-- ==== Sys2Proof/Word.lean ====
section
/-! DEFINITION. The byte and the 32-bit register word (spec 00_scope R9, R10). -/

namespace Sys2Proof

/-- A byte: an unsigned integer 0..255 (R10). -/
abbrev Byte := BitVec 8

/-- A host-visible register: 32 bits (R9). -/
abbrev Word := BitVec 32

end Sys2Proof
end

