-- ==== Sys2Proof/Config.lean ====
section
/-! DEFINITION. What an instance of the block fixes (spec 00_scope R8) and the free values:
constants without a body for what the spec leaves unspecified (log 6, 8, 9, 10). -/

namespace Sys2Proof

/-- The six byte memories (20_memory R60). -/
inductive MemName where
  | pixi  -- the input pixel buffer
  | pixo  -- the output pixel buffer
  | msg   -- the message to encode
  | pwd   -- the password
  | ext   -- the extracted payload (the host has no access)
  | out   -- the decoded message (the host may only read)
deriving DecidableEq, Repr

/-- The open parameters of R8, which the model takes as an argument: `State` carries them and no
step writes them (log 4). -/
structure Params where
  pixMax    : Nat  -- depth in bytes of `PIXI` and of `PIXO`
  msgMax    : Nat  -- depth in bytes of `MSG`
  pwdMax    : Nat  -- depth in bytes of `PWD`
  extMax    : Nat  -- depth in bytes of `EXT` and of `OUT`
  busBase   : Nat  -- where a platform maps register 0
  busStride : Nat  -- the distance between two registers
deriving DecidableEq, Repr

/-- The defaults of R8. `BUS_BASE` and `BUS_STRIDE` are "not fixed" there: 0 and 4 are the model's
(DESIGN CHOICE, log 5); no rule and no other definition depends on them. -/
def Params.default : Params where
  pixMax    := 2 ^ 32 - 1
  msgMax    := 2 ^ 32 - 1
  pwdMax    := 2 ^ 32 - 1
  extMax    := 2 ^ 27
  busBase   := 0
  busStride := 4

/-- The bus address of register `r` (R8: `BUS_BASE + r * BUS_STRIDE`). -/
def Params.busAddress (p : Params) (r : Nat) : Nat := p.busBase + r * p.busStride

/-- FREE VALUE: the byte at an address of a memory whose content is unspecified (R42, R341). The
first number says which unspecified content it is (0 after power-up), the second is the address. -/
opaque Config.unspecifiedByte : MemName → Nat → Nat → Byte

/-- FREE VALUE: what the host reads from `OUT` at or beyond `OUTLEN` (R68, R356, U7), by the free
counter and the address. -/
opaque Config.staleByte : Nat → Nat → Byte

/-- FREE VALUE: `PAY[k]` for a `k` outside the multiplexer's domain (R202), by the free counter. -/
opaque Config.freeByte : Nat → Byte

/-- FREE VALUE: a 32-bit register's value where the natural number a rule gives does not fit it
(R10, R22 say it does not arise in a run), by the free counter. -/
opaque Config.freeWord : Nat → Word

end Sys2Proof
end

