-- ==== Sys2Proof/Syntax.lean ====
section
/-! DEFINITION. The instructions: one constructor per row of spec/opcode_table.json, and the two
instruction formats of 30_encoding R90. No instruction has an operand field (R91, R95). -/

namespace Sys2Proof

/-- The three commands and the eleven micro-operations. -/
inductive Instr where
  | nop     -- `NOP`, R222
  | encode  -- `ENCODE`, R230, R240
  | decode  -- `DECODE`, R260, R270
  | uNone   -- `U_NONE`, R170
  | uLdb    -- `U_LDB`, R136
  | uSho    -- `U_SHO`, R137
  | uShi    -- `U_SHI`, R138
  | uStb    -- `U_STB`, R139
  | uHld    -- `U_HLD`, R140
  | uHso    -- `U_HSO`, R141
  | uHsi    -- `U_HSI`, R142
  | uEmb    -- `U_EMB`, R167
  | uExt    -- `U_EXT`, R168
  | uCln    -- `U_CLN`, R169
deriving DecidableEq, Repr

/-- An instruction as bits: a command word the host writes to register 0, or a micro-operation code
the sequencer gives the datapath (R90). The formats `FRAME` and `PAYLOAD` are data layouts. -/
inductive RawWord where
  | cmd (w : Word)
  | uop (c : BitVec 4)
deriving DecidableEq, Repr

/-- Is the instruction a command (format `CMD`), or a micro-operation (format `UOP`)? -/
def Instr.isCommand : Instr → Bool
  | .nop | .encode | .decode => true
  | .uNone | .uLdb | .uSho | .uShi | .uStb | .uHld | .uHso | .uHsi | .uEmb | .uExt | .uCln => false

end Sys2Proof
end

