-- ==== Sys2Proof/WellFormed.lean ====
section
/-! DEFINITION. Static checks: on an instruction's bits (30_encoding R91, R92, R95) and on the
parameters of an instance (00_scope R8). An `Instr` itself has no operand that could be ill-formed. -/

namespace Sys2Proof

/-- Bits 31:4 of a command word, the field `zero` (R91). -/
def cmdZeroField (w : Word) : BitVec 28 := w.extractLsb' 4 28

/-- Bits 3:0 of a command word, the field `op` (R91). -/
def cmdOpField (w : Word) : BitVec 4 := w.extractLsb' 0 4

/-- A word that is not reserved: `zero` is 0 and `op` is one of the three opcodes (R91, R92); a
micro-operation code is at most 0xA (R95). -/
def RawWord.wellFormed : RawWord → Bool
  | .cmd w => cmdZeroField w == 0 && decide ((cmdOpField w).toNat ≤ 2)
  | .uop c => decide (c.toNat ≤ 10)

/-- Every instruction is well-formed: R91 and R95 give none an operand, so nothing can be out of
range. -/
def Instr.wellFormed (_ : Instr) : Bool := true

/-- The least `EXTMAX` R8 allows. -/
def Params.extMin (p : Params) : Nat := if 128 ≤ p.pixMax then (p.pixMax / 4 - 32) / 8 else 0

/-- The constraints of R8. -/
def Params.wellFormed (p : Params) : Bool :=
  decide (p.pixMax ≤ 2 ^ 32 - 1) && decide (p.msgMax ≤ 2 ^ 32 - 1) && decide (p.pwdMax ≤ 2 ^ 32 - 1) &&
    decide (p.extMin ≤ p.extMax)

end Sys2Proof
end

