-- ==== Sys2Proof/Decode.lean ====
section
/-! DEFINITION. The decoder, total on every word of either format, rejecting by name; then the
encoder, written from the same tables (30_encoding R91, R92, R95). -/

namespace Sys2Proof

/-- Why a word is no instruction. -/
inductive Reject where
  | reservedCommand  -- a reserved command word (R92): dispatch refuses it with `IllCmd`
  | reservedUop      -- a reserved micro-operation code 0xB..0xF (R95): the datapath does nothing
deriving DecidableEq, Repr

/-- The command word the host writes to register 0 (R91): `zero` must be 0, `op` selects. -/
def decodeCmd (w : Word) : Except Reject Instr :=
  if cmdZeroField w = 0 then
    match (cmdOpField w).toNat with
    | 0 => .ok .nop
    | 1 => .ok .encode
    | 2 => .ok .decode
    | _ => .error .reservedCommand
  else .error .reservedCommand

/-- The 4-bit code the sequencer gives the datapath (R95). -/
def decodeUop (c : BitVec 4) : Except Reject Instr :=
  match c.toNat with
  | 0  => .ok .uNone
  | 1  => .ok .uLdb
  | 2  => .ok .uSho
  | 3  => .ok .uShi
  | 4  => .ok .uStb
  | 5  => .ok .uHld
  | 6  => .ok .uHso
  | 7  => .ok .uHsi
  | 8  => .ok .uEmb
  | 9  => .ok .uExt
  | 10 => .ok .uCln
  | _  => .error .reservedUop

/-- The decoder of both formats. -/
def decode : RawWord → Except Reject Instr
  | .cmd w => decodeCmd w
  | .uop c => decodeUop c

/-- The word of an instruction (R91, R95). -/
def encode : Instr → RawWord
  | .nop    => .cmd 0x00000000#32
  | .encode => .cmd 0x00000001#32
  | .decode => .cmd 0x00000002#32
  | .uNone  => .uop 0x0#4
  | .uLdb   => .uop 0x1#4
  | .uSho   => .uop 0x2#4
  | .uShi   => .uop 0x3#4
  | .uStb   => .uop 0x4#4
  | .uHld   => .uop 0x5#4
  | .uHso   => .uop 0x6#4
  | .uHsi   => .uop 0x7#4
  | .uEmb   => .uop 0x8#4
  | .uExt   => .uop 0x9#4
  | .uCln   => .uop 0xA#4

/-- The word that the opcode table's numbering of bits and a width in whole bytes stand for: 32 bits
are a command word, one byte or less a micro-operation code, whose bits above the fourth are 0. A
word of the block has no byte layout (20_memory R64), so no byte order enters. -/
def rawOfTableWord (nbits w : Nat) : Option RawWord :=
  if nbits = 32 then
    if w < 2 ^ 32 then some (.cmd (BitVec.ofNat 32 w)) else none
  else if nbits ≤ 8 then
    if w < 2 ^ 4 then some (.uop (BitVec.ofNat 4 w)) else none
  else none

/-- The instruction the decoder reads from a word given in the table's numbering. -/
def decodeTableWord (nbits w : Nat) : Option Instr :=
  match rawOfTableWord nbits w with
  | none => none
  | some r =>
    match decode r with
    | .ok i => some i
    | .error _ => none

end Sys2Proof
end

