-- ==== Sys2Proof/Machine/BitStream.lean ====
section
/-! DEFINITION. The four functions of the BitStream codec (spec 40_bitstream_codec R130 to R133), the
LSB rule (41_lsb_cell R165, R166) and what the rules say of byte sequences (00_scope R12). A bitstring
is a list of bits, first bit first (R11). -/

namespace Sys2Proof.Machine

/-- The eight bits of a byte, bit 7 first (R63). -/
def byteBits (x : Byte) : List Bool := (List.range 8).map fun r => x.getLsbD (7 - r)

/-- `bytesToBits` (R130). -/
def bytesToBits (xs : List Byte) : List Bool := xs.flatMap byteBits

/-- `bitsToUint` (R133): the sum of `s[i] * 2^(len - 1 - i)`. -/
def bitsToUint : List Bool → Nat
  | [] => 0
  | b :: bs => b.toNat * 2 ^ bs.length + bitsToUint bs

/-- `bitsToBytes` (R131). It is a function on lengths that are multiples of 8 only
(93_implementation_defined U1): it answers none on others. -/
def bitsToBytes (s : List Bool) : Option (List Byte) :=
  if s.length % 8 = 0 then
    some ((List.range (s.length / 8)).map fun q => BitVec.ofNat 8 (bitsToUint ((s.drop (8 * q)).take 8)))
  else none

/-- `uintToBits(n, w)` (R132). The argument is a number of `w` bits, so the case `n >= 2^w` cannot be
put (93_implementation_defined U3). -/
def uintToBits {w : Nat} (n : BitVec w) : List Bool := (List.range w).map fun i => n.getLsbD (w - 1 - i)

/-- A bit as a byte. -/
def bitByte (v : Bool) : Byte := if v then 1 else 0

/-- `setLSB(b, v) = (b & 0xFE) | v` (R165). -/
def setLSB (x : Byte) (v : Bool) : Byte := (x &&& 0xFE#8) ||| bitByte v

/-- `LSB(b) = b & 1 = b[0]` (R166). -/
def lsb (x : Byte) : Bool := x.getLsbD 0

/-- `startsWith(X, W)` (R12). -/
def startsWith (xs ws : List Byte) : Bool := ws.isPrefixOf xs

/-- The indices at which `W` stands in `X` (R12), ascending. -/
def occurrences (xs ws : List Byte) : List Nat :=
  (List.range (xs.length + 1 - ws.length)).filter fun q => decide ((xs.drop q).take ws.length = ws)

/-- `occ(X, W)` (R12). -/
def occ (xs ws : List Byte) : Nat := (occurrences xs ws).length

/-- `MARK`, the ASCII bytes of `[PROTECTED]` (30_encoding R98). -/
def MARK : List Byte := [0x5B, 0x50, 0x52, 0x4F, 0x54, 0x45, 0x43, 0x54, 0x45, 0x44, 0x5D]

/-- `SEP`, the ASCII bytes of `[DATA]` (R98). -/
def SEP : List Byte := [0x5B, 0x44, 0x41, 0x54, 0x41, 0x5D]

end Sys2Proof.Machine
end

