-- ==== Sys2Proof/Machine/State.lean ====
section
/-! DEFINITION. The machine's state as plain data (spec 10_state R20 to R42), what its outside
presents to it, the reasons a step can stop, and the state after reset. -/

namespace Sys2Proof.Machine

/-- The sequencer state `ST` (R24, codes R103). The unreachable codes 6, 7 and 15 have no name here
(93_implementation_defined U10). -/
inductive SeqState where
  | idle
  | eBuild | eChkcap | eClone | eWrhdr | eWrpay
  | dRdhdr | dValhdr | dRdpay | dDetprot | dRetplain | dValpwd | dRetmsg
deriving DecidableEq, Repr

/-- The error kinds of `STATUS.ERR` (R100). `inputError` is reserved and never raised (R303). -/
inductive ErrKind where
  | none | capacityError | formatError | authError | inputError | illCmd | cfgError
deriving DecidableEq, Repr

/-- One byte memory: the listed bytes, addresses strictly rising, and the number of the unspecified
content that every unlisted address has (log 6). -/
structure Memory where
  cells : List Host.Cell
  gen   : Nat
deriving DecidableEq, Repr

/-- The memories the host may write (R60). -/
inductive HostWritable where
  | pixi | pixo | msg | pwd
deriving DecidableEq, Repr

/-- The memories the host may read (R60): `EXT` is not among them. -/
inductive HostReadable where
  | pixi | pixo | msg | pwd | out
deriving DecidableEq, Repr

/-- One move of the world outside the engine (R15, R106, R340). The last three are the host's own decisions:
they touch nothing of the block and only say which moves come next (R107; log 19). -/
inductive HostMove where
  | wr (reg : Nat) (value : Word)                       -- write a register; register 0 is `CMD`
  | rd (reg : Nat)                                      -- read a register
  | poke (m : HostWritable) (addr : Nat) (value : Byte) -- write one byte of a memory
  | peek (m : HostReadable) (addr : Nat)                -- read one byte of a memory
  | wait                                                -- poll `STATUS` until `DONE = 1`
  | idle                                                -- no move: the engine takes a step
  | rst                                                 -- a clock edge with `rst = 1`
  | ifOk (count : Nat)                                  -- if the `STATUS` last read has `ERR != 0`, leave out `count` moves
  | dumpRead (m : HostReadable)                         -- `DUMP m, 0, count`, `count` being the value last read
  | loadRead (m : HostWritable) (count : Nat)           -- `LOAD m, 0` of the last `count` bytes read
deriving DecidableEq, Repr

/-- Everything the block holds (R20), the instance's parameters, and the model's own fields. -/
structure State where
  -- the host-visible registers (R30 to R39); `CMD`, `NVAL`, `CAP` store nothing of their own
  pixlen  : Word      -- `PIXLEN`
  msglen  : Word      -- `MSGLEN`
  pwdlen  : Word      -- `PWDLEN`
  present : Bool      -- `PWDCTL.PRESENT`
  outlen  : Word      -- `OUTLEN`
  done    : Bool      -- `STATUS.DONE`
  err     : ErrKind   -- `STATUS.ERR`
  sub     : BitVec 3  -- `STATUS.SUB`
  -- the datapath registers (R21)
  n       : Word      -- `N`, read by the host as `NVAL`
  hsr     : Word      -- `HSR`
  idx     : Word      -- `IDX`
  shr     : Byte      -- `SHR`
  bc      : BitVec 3  -- `BC`
  b       : Bool      -- `B`
  bp      : Word      -- `BP`
  paylen  : BitVec 34 -- `PAYLEN`
  extlen  : Word      -- `EXTLEN`
  spos    : Word      -- `SPOS`
  prot    : Bool      -- `PROT`, also `STATUS.PROT`
  -- the sequencer state (R24); `STATUS.BUSY` is `ST != IDLE` (R31)
  st      : SeqState  -- `ST`
  -- the memories (R40)
  pixi    : Memory
  pixo    : Memory
  msg     : Memory
  pwd     : Memory
  ext     : Memory
  out     : Memory
  -- the parameters of the instance (00_scope R8), written by no step (log 4)
  params  : Params
  -- the model's own
  host    : List HostMove    -- the moves the outside has still to make, next first (log 2)
  reads   : List Word        -- the values the host has read, newest first (log 3)
  uops    : List (BitVec 4)  -- micro-operation codes the datapath has still to perform (log 7)
  free    : Nat              -- the number of free values drawn so far (log 8)
deriving DecidableEq, Repr

/-- Why the machine stops. -/
inductive Fault where
  /-- Raised by a host byte access, and by a micro-operation or sequencer step in a state no run
  reaches, at an address at or beyond the depth of the memory named: R60 gives no such address, and
  R69 says no command makes such an access. SAFE: the model stops where the spec says nothing. -/
  | noSuchAddress (m : MemName)
deriving DecidableEq, Repr

/-- Why the machine gives a step no meaning. -/
inductive Refusal where
  /-- Raised by no arm of `exec` any more: an instruction that has no meaning yet. SAFE. -/
  | notModelled (mnemonic : String)
  /-- Raised by a host byte access while `BUSY = 1`: the spec gives it no meaning and says the model
  refuses the move (R74, R353, 93_implementation_defined U6). SAFE. -/
  | memoryWhileBusy (m : MemName)
deriving DecidableEq, Repr

/-- What a step or a meaning answers. -/
abbrev Result := Host.Outcome State Fault Refusal

/-- A memory right after power-up: nothing listed (R42, log 6). -/
def Memory.powerUp : Memory where
  cells := []
  gen   := 0

/-- The machine right after reset (R42, R340): `IDLE`, every register 0, memories unspecified. The
parameters are the defaults of R8 (log 5); the model's own fields are empty or 0 (log 2, 3, 7, 8). -/
def State.reset : State where
  pixlen  := 0
  msglen  := 0
  pwdlen  := 0
  present := false
  outlen  := 0
  done    := false
  err     := .none
  sub     := 0
  n       := 0
  hsr     := 0
  idx     := 0
  shr     := 0
  bc      := 0
  b       := false
  bp      := 0
  paylen  := 0
  extlen  := 0
  spos    := 0
  prot    := false
  st      := .idle
  pixi    := .powerUp
  pixo    := .powerUp
  msg     := .powerUp
  pwd     := .powerUp
  ext     := .powerUp
  out     := .powerUp
  params  := .default
  host    := []
  reads   := []
  uops    := []
  free    := 0

end Sys2Proof.Machine
end

