-- ==== Sys2Proof/Machine/Ops.lean ====
section
/-! DEFINITION. The operations every meaning is built from: sequencing, the memories, the counters,
and the ends and beginnings of a command (`finish`, refusal, acceptance). -/

namespace Sys2Proof.Machine

/-- Run `f` on the next state; a stop stays a stop. The numbered lines of a rule are joined so: each
sees the writes of the lines before it (00_scope R13). -/
def andThen (r : Result) (f : State → Result) : Result :=
  match r with
  | .next s => f s
  | .fault e => .fault e
  | .refused e => .refused e

/-! ### The memories (20_memory R60, R66) -/

/-- The listed byte at an address, if any. -/
def lookup : List Host.Cell → Nat → Option Byte
  | [], _ => none
  | (k, v) :: rest, a => if k = a then some v else lookup rest a

/-- Put a byte at an address, keeping the addresses rising. -/
def insertCell : List Host.Cell → Nat → Byte → List Host.Cell
  | [], a, v => [(a, v)]
  | (k, w) :: rest, a, v =>
    if a < k then (a, v) :: (k, w) :: rest
    else if a = k then (a, v) :: rest
    else (k, w) :: insertCell rest a v

/-- Put bytes at an address and the ones after it, in ascending order. -/
def insertCells : List Host.Cell → Nat → List Byte → List Host.Cell
  | cells, _, [] => cells
  | cells, a, v :: vs => insertCells (insertCell cells a v) (a + 1) vs

/-- The canonical form: addresses strictly rising. An unlisted address holds no known byte, so no
entry can repeat what it reads as. -/
abbrev Memory.wf (m : Memory) : Prop := m.cells.Pairwise (fun x y => x.1 < y.1)

/-- A memory with one byte replaced. -/
def Memory.write (m : Memory) (a : Nat) (v : Byte) : Memory := { m with cells := insertCell m.cells a v }

/-- A memory with a run of bytes replaced. -/
def Memory.writeList (m : Memory) (a : Nat) (vs : List Byte) : Memory :=
  { m with cells := insertCells m.cells a vs }

/-- The byte at an address of the memory named: the listed one, or the free value that stands for its
unspecified content. This is the ONE place that says what an unlisted address reads as (R42, log 6). -/
def Memory.read (name : MemName) (m : Memory) (a : Nat) : Byte :=
  match lookup m.cells a with
  | some v => v
  | none => Config.unspecifiedByte name m.gen a

/-- A memory by its name. -/
def State.mem (s : State) : MemName → Memory
  | .pixi => s.pixi
  | .pixo => s.pixo
  | .msg => s.msg
  | .pwd => s.pwd
  | .ext => s.ext
  | .out => s.out

/-- The state with the memory named replaced. -/
def State.setMem (s : State) (name : MemName) (m : Memory) : State :=
  match name with
  | .pixi => { s with pixi := m }
  | .pixo => { s with pixo := m }
  | .msg => { s with msg := m }
  | .pwd => { s with pwd := m }
  | .ext => { s with ext := m }
  | .out => { s with out := m }

/-- The depth of a memory (R40): its addresses are those below it. -/
def State.depth (s : State) : MemName → Nat
  | .pixi => s.params.pixMax
  | .pixo => s.params.pixMax
  | .msg => s.params.msgMax
  | .pwd => s.params.pwdMax
  | .ext => s.params.extMax
  | .out => s.params.extMax

/-- `S[a]`: the byte at address `a` of memory `S` (R13). -/
def State.byteAt (s : State) (name : MemName) (a : Nat) : Byte := (s.mem name).read name a

/-- `S[a .. a + len - 1]` as a byte sequence (R12). -/
def State.bytes (s : State) (name : MemName) (a len : Nat) : List Byte :=
  (List.range len).map fun i => s.byteAt name (a + i)

/-- `MemRead(S, a, 1)`, handed to `k`; an address beyond the depth does not exist (R60). -/
def readByte (name : MemName) (a : Nat) (s : State) (k : Byte → Result) : Result :=
  if a < s.depth name then k (s.byteAt name a) else .fault (.noSuchAddress name)

/-- `S[0 .. len - 1]`, handed to `k`; all of it must exist. -/
def readFirst (name : MemName) (len : Nat) (s : State) (k : List Byte → Result) : Result :=
  if len ≤ s.depth name then k (s.bytes name 0 len) else .fault (.noSuchAddress name)

/-- `MemWrite(S, a, 1, v)`. -/
def storeByte (name : MemName) (a : Nat) (v : Byte) (s : State) : Result :=
  if a < s.depth name then .next (s.setMem name ((s.mem name).write a v)) else .fault (.noSuchAddress name)

/-- `S[0 .. len - 1] <- vs`, in ascending order; all of it must exist. -/
def storeFirst (name : MemName) (vs : List Byte) (s : State) : Result :=
  if vs.length ≤ s.depth name then .next (s.setMem name ((s.mem name).writeList 0 vs))
  else .fault (.noSuchAddress name)

/-! ### Counters -/

/-- `IDX <- IDX + 1` (R167, R168). The sum fits in every state a run reaches (R22); where it does
not, the register is a free value (log 8). -/
def bumpIdx (s : State) : State :=
  if s.idx.toNat + 1 < 2 ^ 32 then { s with idx := s.idx + 1 }
  else { s with idx := Config.freeWord s.free, free := s.free + 1 }

/-- `BP <- BP + 1` (R136, R139), likewise. -/
def bumpBp (s : State) : State :=
  if s.bp.toNat + 1 < 2 ^ 32 then { s with bp := s.bp + 1 }
  else { s with bp := Config.freeWord s.free, free := s.free + 1 }

/-! ### The end and the beginning of a command

`finish` is the block's only "trap entry" and its normal exit too (60_exceptions R310); a refusal at
dispatch records an error without a run (44_commands R223, R224). Nothing is saved and there is no
return (R312): the engine waits in `IDLE`. -/

/-- `STATUS.BUSY`: 1 while `ST != IDLE` (10_state R31). -/
def State.busy (s : State) : Bool := decide (s.st ≠ .idle)

/-- `finish(e, sub)` (R310). `BUSY` falls because `ST` becomes `IDLE`. -/
def finish (e : ErrKind) (sub : BitVec 3) (s : State) : State :=
  { s with st := .idle, done := true, err := e, sub := sub }

/-- A command refused at dispatch (R223, R224): `STATUS` alone is written, `ST` stays `IDLE`. -/
def refuseCommand (e : ErrKind) (sub : BitVec 3) (s : State) : State :=
  { s with done := true, err := e, sub := sub, prot := false }

/-- What acceptance does to `STATUS` (R225); the command's own initialisation sets `ST`. -/
def acceptStatus (s : State) : State :=
  { s with done := false, err := .none, sub := 0, prot := false }

/-! ### The sub-causes of R101 -/

def subCapExceeded  : BitVec 3 := 1
def subHdrParse     : BitVec 3 := 1  -- reserved, never raised (R133)
def subLenZero      : BitVec 3 := 2
def subLenRange     : BitVec 3 := 3
def subSepCount     : BitVec 3 := 4
def subLenAlign     : BitVec 3 := 5
def subPwdRequired  : BitVec 3 := 1
def subPwdIncorrect : BitVec 3 := 2
def subPixDepth     : BitVec 3 := 1
def subMsgDepth     : BitVec 3 := 2
def subPwdDepth     : BitVec 3 := 3

end Sys2Proof.Machine
end

