-- ==== Sys2Proof/Machine/Operands.lean ====
section
/-! DEFINITION. Where the operands of the commands and micro-operations come from: capacity and
addressing (41_lsb_cell R160 to R162), the optional password (10_state R36), the payload multiplexer
(43_protection R200, R202). -/

namespace Sys2Proof.Machine

/-- `BPP`, bytes per pixel (00_scope R7). -/
def BPP : Nat := 4

/-- `HDRW`, the width of the length header in bits (R7). -/
def HDRW : Nat := 32

/-- `CAP = floor(PIXLEN / 4)` (R39, R160). -/
def State.cap (s : State) : Nat := s.pixlen.toNat / BPP

/-- `EA(k) = 4 * k`, channel 0 of pixel `k` (R161). -/
def EA (k : Nat) : Nat := BPP * k

/-- The frame-fit test, on natural numbers (R162): a payload of `n` bits fits. -/
def fits (n cap : Nat) : Bool := decide (HDRW + n ≤ cap)

/-- The password operand: absent, or its bytes (R36, R35). -/
def State.password (s : State) : Option (List Byte) :=
  if s.present then some (s.bytes .pwd 0 s.pwdlen.toNat) else none

/-- The variant the Encoder builds: Protected exactly when the password is present and not empty (R200). -/
def State.protectedVariant (s : State) : Bool := s.present && decide (0 < s.pwdlen.toNat)

/-- The payload's length in bytes for a variant (R202). -/
def State.payloadLength (s : State) (prot : Bool) : Nat :=
  if prot then s.msglen.toNat + s.pwdlen.toNat + 17 else s.msglen.toNat

/-- What the payload multiplexer selects. -/
inductive PaySource where
  | mem (m : MemName) (a : Nat)  -- a byte of `MSG` or `PWD`
  | const (v : Byte)             -- a byte of `MARK` or `SEP`
  | undefined                    -- `k` is outside the multiplexer's domain
deriving DecidableEq, Repr

/-- `PAY[k]`, defined for `0 <= k < PAYLEN` (R202); the variant is the register `PROT`. -/
def State.paySource (s : State) (k : Nat) : PaySource :=
  let p := s.pwdlen.toNat
  if s.payloadLength s.prot ≤ k then .undefined
  else if s.prot then
    if k ≤ 10 then .const (MARK.getD k 0)
    else if k ≤ 10 + p then .mem .pwd (k - 11)
    else if k ≤ 16 + p then .const (SEP.getD (k - 11 - p) 0)
    else .mem .msg (k - 17 - p)
  else .mem .msg k

/-- Does the configuration check of R224 fail, and with which sub-cause? `isEncode` says which of the
two commands asks: `DECODE` does not look at `MSGLEN`. -/
def configCheck (isEncode : Bool) (s : State) : Option (BitVec 3) :=
  if s.params.pixMax < s.pixlen.toNat then some subPixDepth
  else if isEncode && decide (s.params.msgMax < s.msglen.toNat) then some subMsgDepth
  else if s.present && decide (s.params.pwdMax < s.pwdlen.toNat) then some subPwdDepth
  else none

end Sys2Proof.Machine
end

