-- ==== Sys2Proof/Machine/Flags.lean ====
section
/-! DEFINITION. The `STATUS` word and its codes (spec 10_state R31, 30_encoding R100, R101, R103), and
the reads and writes of the register file (R30 to R39). -/

namespace Sys2Proof.Machine

/-- The code of an error kind (R100). -/
def ErrKind.code : ErrKind → Nat
  | .none => 0
  | .capacityError => 1
  | .formatError => 2
  | .authError => 3
  | .inputError => 4
  | .illCmd => 5
  | .cfgError => 6

/-- The code of a sequencer state (R103). -/
def SeqState.code : SeqState → Nat
  | .idle => 0
  | .eBuild => 1
  | .eChkcap => 2
  | .eClone => 3
  | .eWrhdr => 4
  | .eWrpay => 5
  | .dRdhdr => 8
  | .dValhdr => 9
  | .dRdpay => 10
  | .dDetprot => 11
  | .dRetplain => 12
  | .dValpwd => 13
  | .dRetmsg => 14

/-- The pairs (`ERR`, `SUB`) that occur (R101): "All other pairs never occur". `HDR_PARSE` and
`InputError` are never raised (R133, R303). -/
def legalEnding (e : ErrKind) (sub : BitVec 3) : Bool :=
  match e with
  | .none => sub == 0
  | .capacityError => sub == subCapExceeded
  | .formatError => sub == subLenZero || sub == subLenRange || sub == subSepCount || sub == subLenAlign
  | .authError => sub == subPwdRequired || sub == subPwdIncorrect
  | .inputError => false
  | .illCmd => sub == 0
  | .cfgError => sub == subPixDepth || sub == subMsgDepth || sub == subPwdDepth

/-- The text a host that wants the source's texts shows for an ending (R102); the block produces none. -/
def messageText (e : ErrKind) (sub : BitVec 3) : Option String :=
  match e with
  | .formatError =>
    if sub = subLenZero ∨ sub = subLenRange ∨ sub = subLenAlign then some "no message found / invalid data" else none
  | .authError =>
    if sub = subPwdRequired then some "password required"
    else if sub = subPwdIncorrect then some "incorrect password" else none
  | .none | .capacityError | .inputError | .illCmd | .cfgError => none

/-- `STATUS` as the host reads it (R31); the reserved bits read 0. -/
def State.status (s : State) : Word :=
  BitVec.ofNat 32
    (s.busy.toNat + 2 * s.done.toNat + 4 * s.err.code + 32 * s.sub.toNat + 256 * s.prot.toNat + 4096 * s.st.code)

/-- The field `ERR` of a `STATUS` word (R31), as the host takes it from what it read. -/
def statusErr (w : Word) : BitVec 3 := w.extractLsb' 2 3

/-- The output line `done_o`, equal to `STATUS.DONE` at all times (60_exceptions R304). -/
def State.doneO (s : State) : Bool := s.done

/-- A read of register `r` (R30): `CMD` and the numbers 9 and above read 0. -/
def State.readReg (s : State) (r : Nat) : Word :=
  match r with
  | 1 => s.status
  | 2 => s.pixlen
  | 3 => s.msglen
  | 4 => s.pwdlen
  | 5 => if s.present then 1 else 0
  | 6 => s.outlen
  | 7 => s.n
  | 8 => BitVec.ofNat 32 s.cap
  | _ => 0

/-- A write of register `r` other than `CMD` while `BUSY = 0` (R30, R33 to R36): read-only registers and
absent numbers ignore it, `PWDCTL` keeps bit 0 alone. -/
def State.writeReg (s : State) (r : Nat) (v : Word) : State :=
  match r with
  | 2 => { s with pixlen := v }
  | 3 => { s with msglen := v }
  | 4 => { s with pwdlen := v }
  | 5 => { s with present := v.getLsbD 0 }
  | _ => s

end Sys2Proof.Machine
end

