-- ==== Sys2Proof/Machine/Codec.lean ====
section
/-! DEFINITION. The micro-operations of the shifter and the packer (spec 40_bitstream_codec R136 to R142). -/

namespace Sys2Proof.Machine

/-- `U_LDB` (R136): `SHR <- PAY[BP]; BP <- BP + 1`. Outside the multiplexer's domain `SHR` is a free
value (R202, log 8). -/
def execULdb (s : State) : Result :=
  match s.paySource s.bp.toNat with
  | .mem m a => readByte m a s fun v => .next (bumpBp { s with shr := v })
  | .const v => .next (bumpBp { s with shr := v })
  | .undefined => .next (bumpBp { s with shr := Config.freeByte s.free, free := s.free + 1 })

/-- `U_SHO` (R137): `B <- SHR[7]; SHR <- SHR << 1; BC <- (BC + 1) mod 8`. -/
def execUSho (s : State) : Result :=
  .next { s with b := s.shr.getLsbD 7, shr := s.shr <<< 1, bc := s.bc + 1 }

/-- `U_SHI` (R138): `SHR <- (SHR << 1) | B; BC <- (BC + 1) mod 8`. -/
def execUShi (s : State) : Result :=
  .next { s with shr := (s.shr <<< 1) ||| bitByte s.b, bc := s.bc + 1 }

/-- `U_STB` (R139): `EXT[BP] <- SHR; BP <- BP + 1`. -/
def execUStb (s : State) : Result :=
  andThen (storeByte .ext s.bp.toNat s.shr s) fun s => .next (bumpBp s)

/-- `U_HLD` (R140): `HSR <- N`. -/
def execUHld (s : State) : Result := .next { s with hsr := s.n }

/-- `U_HSO` (R141): `B <- HSR[31]; HSR <- HSR << 1`. -/
def execUHso (s : State) : Result := .next { s with b := s.hsr.getLsbD 31, hsr := s.hsr <<< 1 }

/-- `U_HSI` (R142): `HSR <- (HSR << 1) | B`. -/
def execUHsi (s : State) : Result := .next { s with hsr := (s.hsr <<< 1) ||| (if s.b then 1 else 0) }

end Sys2Proof.Machine
end

