-- ==== Sys2Proof/Machine/Commands.lean ====
section
/-! DEFINITION. The three commands: what the write of their word to `CMD` does (spec 44_commands R220 to
R225, 45_encode R240, 46_decode R270). An accepted `ENCODE` or `DECODE` is carried out by the
sequencer's steps (Sequencer.lean); the operation as a whole is in Operation.lean (log 1). -/

namespace Sys2Proof.Machine

/-- Acceptance of `ENCODE` (R240, R225). -/
def acceptEncode (s : State) : State := { acceptStatus s with st := .eBuild }

/-- Acceptance of `DECODE` (R270, R225). The free counter advances: what the host reads from `OUT` at
or beyond `OUTLEN` is another free value from here on (log 10). -/
def acceptDecode (s : State) : State :=
  { acceptStatus s with outlen := 0, idx := 0, hsr := 0, st := .dRdhdr, free := s.free + 1 }

/-- `NOP` (R222): no effect, not even on `STATUS`. -/
def execNop (s : State) : Result := .next s

/-- `ENCODE` written to `CMD`: ignored while busy (R221), refused with `CfgError` (R224), or accepted. -/
def execEncode (s : State) : Result :=
  if s.busy then .next s
  else
    match configCheck true s with
    | some sub => .next (refuseCommand .cfgError sub s)
    | none => .next (acceptEncode s)

/-- `DECODE` written to `CMD`: likewise, without the check of `MSGLEN`. -/
def execDecode (s : State) : Result :=
  if s.busy then .next s
  else
    match configCheck false s with
    | some sub => .next (refuseCommand .cfgError sub s)
    | none => .next (acceptDecode s)

end Sys2Proof.Machine
end

