-- ==== Sys2Proof/Machine/LsbCell.lean ====
section
/-! DEFINITION. The micro-operations of the LSB cell (spec 41_lsb_cell R167 to R170). -/

namespace Sys2Proof.Machine

/-- `U_NONE` (R170): no effect. -/
def execUNone (s : State) : Result := .next s

/-- `U_EMB` (R167): `PIXO[4*IDX] <- setLSB(PIXO[4*IDX], B); IDX <- IDX + 1`. -/
def execUEmb (s : State) : Result :=
  readByte .pixo (EA s.idx.toNat) s fun v =>
  andThen (storeByte .pixo (EA s.idx.toNat) (setLSB v s.b) s) fun s => .next (bumpIdx s)

/-- `U_EXT` (R168): `B <- LSB(PIXI[4*IDX]); IDX <- IDX + 1`. -/
def execUExt (s : State) : Result :=
  readByte .pixi (EA s.idx.toNat) s fun v => .next (bumpIdx { s with b := lsb v })

/-- `U_CLN` (R169): `PIXO[0 .. PIXLEN-1] <- PIXI[0 .. PIXLEN-1]`. -/
def execUCln (s : State) : Result :=
  readFirst .pixi s.pixlen.toNat s fun vs => storeFirst .pixo vs s

end Sys2Proof.Machine
end

