-- ==== Sys2Proof/Machine/Dispatch.lean ====
section
/-! DEFINITION. What each instruction does: one arm per row of spec/opcode_table.json. -/

namespace Sys2Proof.Machine

/-- The meaning of an instruction. -/
def exec (i : Instr) (s : State) : Host.Outcome State Fault Refusal :=
  match i with
  | .nop => Sys2Proof.Machine.execNop s
  | .encode => Sys2Proof.Machine.execEncode s
  | .decode => Sys2Proof.Machine.execDecode s
  | .uNone => Sys2Proof.Machine.execUNone s
  | .uLdb => Sys2Proof.Machine.execULdb s
  | .uSho => Sys2Proof.Machine.execUSho s
  | .uShi => Sys2Proof.Machine.execUShi s
  | .uStb => Sys2Proof.Machine.execUStb s
  | .uHld => Sys2Proof.Machine.execUHld s
  | .uHso => Sys2Proof.Machine.execUHso s
  | .uHsi => Sys2Proof.Machine.execUHsi s
  | .uEmb => Sys2Proof.Machine.execUEmb s
  | .uExt => Sys2Proof.Machine.execUExt s
  | .uCln => Sys2Proof.Machine.execUCln s

end Sys2Proof.Machine
end

