-- ==== Sys2Proof/Machine/Sequencer.lean ====
section
/-! DEFINITION. The sequencer: one definition per step rule (spec 45_encode R241 to R245, 46_decode R271
to R277), each line of a rule a line here, and the engine's step (10_state R24, R25). A micro-operation
is issued by running its meaning. -/

namespace Sys2Proof.Machine

/-- The datapath performs a micro-operation code (R95); one that receives a reserved code does nothing. -/
def datapath (c : BitVec 4) (s : State) : Result :=
  match decodeUop c with
  | .ok i => exec i s
  | .error _ => .next s

/-- Step `E_BUILD` (R241). -/
def stepEBuild (s : State) : Result :=
  andThen (exec .uNone s) fun s =>
  let s := { s with prot := s.protectedVariant }
  let s := { s with paylen := BitVec.ofNat 34 (s.payloadLength s.prot) }
  .next { s with st := .eChkcap }

/-- Step `E_CHKCAP` (R242): the comparison is of natural numbers (R135). -/
def stepEChkcap (s : State) : Result :=
  andThen (exec .uNone s) fun s =>
  if fits (8 * s.paylen.toNat) s.cap then
    .next { s with n := BitVec.ofNat 32 (8 * s.paylen.toNat), st := .eClone }
  else .next (finish .capacityError subCapExceeded s)

/-- Step `E_CLONE` (R243). -/
def stepEClone (s : State) : Result :=
  andThen (exec .uCln s) fun s =>
  andThen (exec .uHld s) fun s =>
  .next { s with idx := 0, st := .eWrhdr }

/-- Step `E_WRHDR` (R244), taken 32 times. -/
def stepEWrhdr (s : State) : Result :=
  andThen (exec .uHso s) fun s =>
  andThen (exec .uEmb s) fun s =>
  if s.idx.toNat = HDRW then
    let s := { s with bp := 0, bc := 0 }
    if s.n = 0 then .next (finish .none 0 s) else .next { s with st := .eWrpay }
  else .next { s with st := .eWrhdr }

/-- Step `E_WRPAY` (R245), taken `N` times. -/
def stepEWrpay (s : State) : Result :=
  andThen (if s.bc = 0 then exec .uLdb s else .next s) fun s =>
  andThen (exec .uSho s) fun s =>
  andThen (exec .uEmb s) fun s =>
  if s.idx.toNat = HDRW + s.n.toNat then .next (finish .none 0 s) else .next { s with st := .eWrpay }

/-- Step `D_RDHDR` (R271), taken 32 times, or once when `CAP < 32`. -/
def stepDRdhdr (s : State) : Result :=
  if s.cap < HDRW then .next (finish .formatError subLenRange s)
  else
    andThen (exec .uExt s) fun s =>
    andThen (exec .uHsi s) fun s =>
    if s.idx.toNat = HDRW then .next { s with st := .dValhdr } else .next { s with st := .dRdhdr }

/-- Step `D_VALHDR` (R272). -/
def stepDValhdr (s : State) : Result :=
  andThen (exec .uNone s) fun s =>
  let s := { s with n := s.hsr }
  if s.n = 0 then .next (finish .formatError subLenZero s)
  else if !fits s.n.toNat s.cap then .next (finish .formatError subLenRange s)
  else if s.n.toNat % 8 ≠ 0 then .next (finish .formatError subLenAlign s)
  else .next { s with bp := 0, bc := 0, shr := 0, st := .dRdpay }

/-- Step `D_RDPAY` (R273), taken `N` times. -/
def stepDRdpay (s : State) : Result :=
  andThen (exec .uExt s) fun s =>
  andThen (exec .uShi s) fun s =>
  andThen (if s.bc = 0 then exec .uStb s else .next s) fun s =>
  if s.idx.toNat = HDRW + s.n.toNat then .next { s with extlen := s.bp, st := .dDetprot }
  else .next { s with st := .dRdpay }

/-- Step `D_DETPROT` (R274). -/
def stepDDetprot (s : State) : Result :=
  andThen (exec .uNone s) fun s =>
  if 11 ≤ s.extlen.toNat then
    readFirst .ext 11 s fun x =>
    if x = MARK then .next { s with prot := true, st := .dValpwd } else .next { s with st := .dRetplain }
  else .next { s with st := .dRetplain }

/-- Step `D_RETPLAIN` (R275). -/
def stepDRetplain (s : State) : Result :=
  andThen (exec .uNone s) fun s =>
  readFirst .ext s.extlen.toNat s fun x =>
  andThen (storeFirst .out x s) fun s =>
  .next (finish .none 0 { s with outlen := s.extlen })

/-- Step `D_VALPWD` (R276). -/
def stepDValpwd (s : State) : Result :=
  andThen (exec .uNone s) fun s =>
  readFirst .ext s.extlen.toNat s fun x =>
  match occurrences x SEP with
  | [p] =>
    if !s.present then .next (finish .authError subPwdRequired s)
    else if p < 11 ∨ s.pwdlen.toNat ≠ p - 11 then .next (finish .authError subPwdIncorrect s)
    else
      readFirst .pwd s.pwdlen.toNat s fun password =>
      if password ≠ (x.drop 11).take s.pwdlen.toNat then .next (finish .authError subPwdIncorrect s)
      else .next { s with spos := BitVec.ofNat 32 p, st := .dRetmsg }
  | _ => .next (finish .formatError subSepCount s)

/-- `OUTLEN <- EXTLEN - SPOS - 6` (R277). In every state a run reaches `SPOS + 6 <= EXTLEN`; elsewhere
the difference is no natural number and the register is a free value (log 8). -/
def setMessageLength (s : State) : State :=
  if s.spos.toNat + 6 ≤ s.extlen.toNat then { s with outlen := s.extlen - s.spos - 6 }
  else { s with outlen := Config.freeWord s.free, free := s.free + 1 }

/-- Step `D_RETMSG` (R277). -/
def stepDRetmsg (s : State) : Result :=
  andThen (exec .uNone s) fun s =>
  readFirst .ext s.extlen.toNat s fun x =>
  andThen (storeFirst .out (x.drop (s.spos.toNat + 6)) s) fun s =>
  .next (finish .none 0 (setMessageLength s))

/-- One step of the engine: one transition of the sequencer (R24). In `IDLE` it waits for a command. -/
def engineStep (s : State) : Result :=
  match s.st with
  | .idle => .next s
  | .eBuild => stepEBuild s
  | .eChkcap => stepEChkcap s
  | .eClone => stepEClone s
  | .eWrhdr => stepEWrhdr s
  | .eWrpay => stepEWrpay s
  | .dRdhdr => stepDRdhdr s
  | .dValhdr => stepDValhdr s
  | .dRdpay => stepDRdpay s
  | .dDetprot => stepDDetprot s
  | .dRetplain => stepDRetplain s
  | .dValpwd => stepDValpwd s
  | .dRetmsg => stepDRetmsg s

end Sys2Proof.Machine
end

