-- ==== Sys2Proof/Machine/HostPort.lean ====
section
/-! DEFINITION. What the world outside can do to the block: register and memory accesses (spec 10_state
R30, 20_memory R60, R74), the write of a command word (44_commands R220 to R223), `rst` (R340, R341); and
the host-script lines of 30_encoding R106, R107 as lists of such moves. -/

namespace Sys2Proof.Machine

/-- The memory a host write goes to. -/
def HostWritable.name : HostWritable → MemName
  | .pixi => .pixi
  | .pixo => .pixo
  | .msg => .msg
  | .pwd => .pwd

/-- The memory a host read comes from. -/
def HostReadable.name : HostReadable → MemName
  | .pixi => .pixi
  | .pixo => .pixo
  | .msg => .msg
  | .pwd => .pwd
  | .out => .out

/-- The write of a word to `CMD` (R220): a reserved word is refused with `IllCmd` (R223), unless the
engine is busy and the write is ignored (R221); any other word is its instruction. -/
def writeCmd (w : Word) (s : State) : Result :=
  match decodeCmd w with
  | .ok i => exec i s
  | .error _ => .next (if s.busy then s else refuseCommand .illCmd 0 s)

/-- A host write to a register (R30): 0 is `CMD`; the others ignore writes while `BUSY = 1` (R352). -/
def hostWrite (r : Nat) (v : Word) (s : State) : Result :=
  if r = 0 then writeCmd v s
  else .next (if s.busy then s else s.writeReg r v)

/-- The host sees a value. -/
def observe (v : Word) (s : State) : State := { s with reads := v :: s.reads }

/-- A host read of a register, at any time and without side effect on the block (R30, R352). -/
def hostRead (r : Nat) (s : State) : Result := .next (observe (s.readReg r) s)

/-- A host write of one byte, only while `BUSY = 0` (R74, R353). -/
def hostPoke (m : HostWritable) (a : Nat) (v : Byte) (s : State) : Result :=
  if s.busy then .refused (.memoryWhileBusy m.name) else storeByte m.name a v s

/-- What the host sees at an address: the byte there, but for `OUT` at or beyond `OUTLEN`, which is
unspecified to it (R68, R356; log 10). DESIGN CHOICE (log 20): of `PIXO` at or beyond `PIXLEN`, on which R226
says nothing and which U7 calls any value, the host sees the byte stored there. -/
def State.hostByte (s : State) (m : HostReadable) (a : Nat) : Byte :=
  if m = .out ∧ s.outlen.toNat ≤ a then Config.staleByte s.free a else s.byteAt m.name a

/-- A host read of one byte, only while `BUSY = 0` (R74, R353). -/
def hostPeek (m : HostReadable) (a : Nat) (s : State) : Result :=
  if s.busy then .refused (.memoryWhileBusy m.name)
  else if a < s.depth m.name then .next (observe ((s.hostByte m a).setWidth 32) s)
  else .fault (.noSuchAddress m.name)

/-! ### Reset -/

/-- Is the command that runs an `ENCODE`? -/
def SeqState.encoding : SeqState → Bool
  | .eBuild | .eChkcap | .eClone | .eWrhdr | .eWrpay => true
  | .idle | .dRdhdr | .dValhdr | .dRdpay | .dDetprot | .dRetplain | .dValpwd | .dRetmsg => false

/-- Is it a `DECODE`? -/
def SeqState.decoding : SeqState → Bool
  | .dRdhdr | .dValhdr | .dRdpay | .dDetprot | .dRetplain | .dValpwd | .dRetmsg => true
  | .idle | .eBuild | .eChkcap | .eClone | .eWrhdr | .eWrpay => false

/-- What an abandoned command does to the memories it was writing (R341): `PIXO[0 .. PIXLEN-1]` is
unspecified after an `ENCODE`, `EXT` and `OUT` after a `DECODE` (log 9). -/
def abandonCommand (s : State) : State :=
  let g := s.free + 1
  if s.st.encoding then
    { s with
        pixo := s.pixo.writeList 0 ((List.range s.pixlen.toNat).map fun a => Config.unspecifiedByte .pixo g a)
        free := g }
  else if s.st.decoding then
    { s with ext := { cells := [], gen := g }, out := { cells := [], gen := g }, free := g }
  else s

/-- Every register to its reset value (R42, R340); memories, parameters and the model's own fields stay. -/
def clearRegisters (s : State) : State :=
  { s with
      pixlen := 0, msglen := 0, pwdlen := 0, present := false, outlen := 0
      done := false, err := .none, sub := 0
      n := 0, hsr := 0, idx := 0, shr := 0, bc := 0, b := false, bp := 0
      paylen := 0, extlen := 0, spos := 0, prot := false, st := .idle }

/-- A clock edge with `rst = 1` (R340, R341). -/
def resetBlock (s : State) : State := clearRegisters (abandonCommand s)

/-! ### The lines of a host script (R106; notation only, D27) -/

/-- `WR <reg>, <value>`. -/
def scriptWr (r : Nat) (v : Word) : List HostMove := [.wr r v]

/-- `RD <reg>`. -/
def scriptRd (r : Nat) : List HostMove := [.rd r]

/-- `LOAD <mem>, <addr>, <bytes>`: byte writes from the address upward. -/
def scriptLoad (m : HostWritable) : Nat → List Byte → List HostMove
  | _, [] => []
  | a, v :: vs => .poke m a v :: scriptLoad m (a + 1) vs

/-- `FILL <mem>, <addr>, <count>, <byte>`. -/
def scriptFill (m : HostWritable) (a count : Nat) (v : Byte) : List HostMove :=
  scriptLoad m a (List.replicate count v)

/-- `DUMP <mem>, <addr>, <count>`. -/
def scriptDump (m : HostReadable) (a count : Nat) : List HostMove :=
  (List.range count).map fun i => .peek m (a + i)

/-- `CMD <mnemonic>`: the command word to register 0. -/
def scriptCmd (w : Word) : List HostMove := [.wr 0 w]

/-- `WAIT`. -/
def scriptWait : List HostMove := [.wait]

/-! ### The host's own decisions (log 19) -/

/-- The value the host read last; 0 if it has read none. -/
def State.lastRead (s : State) : Word := s.reads.headD 0

/-- The last `count` bytes the host read, in the order it read them. -/
def State.lastBytes (s : State) (count : Nat) : List Byte := (s.reads.take count).reverse.map (·.setWidth 8)

/-! ### One move -/

/-- One move of the outside. `wait` polls `STATUS`: while `DONE = 0` the engine steps and the move
stays; `idle` lets the engine step once (log 2). The host's own decisions change its list of moves and
nothing else (log 19). -/
def hostStep (mv : HostMove) (rest : List HostMove) (s : State) : Result :=
  match mv with
  | .wr r v => hostWrite r v { s with host := rest }
  | .rd r => hostRead r { s with host := rest }
  | .poke m a v => hostPoke m a v { s with host := rest }
  | .peek m a => hostPeek m a { s with host := rest }
  | .wait => if s.done then .next { s with host := rest } else engineStep s
  | .idle => engineStep { s with host := rest }
  | .rst => .next (resetBlock { s with host := rest })
  | .ifOk count => .next { s with host := if statusErr s.lastRead = 0 then rest else rest.drop count }
  | .dumpRead m => .next { s with host := scriptDump m 0 s.lastRead.toNat ++ rest }
  | .loadRead m count => .next { s with host := scriptLoad m 0 (s.lastBytes count) ++ rest }

/-! ### The pseudo-operations (R107): the source's two public operations as host scripts -/

/-- The lines that make the optional password resident. -/
def scriptPassword : Option (List Byte) → List HostMove
  | none => scriptWr 5 0
  | some p => scriptLoad .pwd 0 p ++ scriptWr 4 (BitVec.ofNat 32 p.length) ++ scriptWr 5 1

/-- `LOAD PIXI, 0, <pixels> ; WR PIXLEN, len(pixels)`. -/
def scriptPixels (pixels : List Byte) : List HostMove :=
  scriptLoad .pixi 0 pixels ++ scriptWr 2 (BitVec.ofNat 32 pixels.length)

/-- `CMD <mnemonic> ; WAIT ; RD STATUS`, and `result` if `ERR = 0`. -/
def scriptRun (w : Word) (result : List HostMove) : List HostMove :=
  scriptCmd w ++ scriptWait ++ scriptRd 1 ++ .ifOk result.length :: result

/-- `encode(pixels, message, password?)` up to the command, and `result` if `ERR = 0`. -/
def scriptEncodeThen (pixels message : List Byte) (password : Option (List Byte)) (result : List HostMove) :
    List HostMove :=
  scriptPixels pixels ++ scriptLoad .msg 0 message ++ scriptWr 3 (BitVec.ofNat 32 message.length) ++
    scriptPassword password ++ scriptRun 1 result

/-- `encode(pixels, message, password?)`: the result is `DUMP PIXO, 0, len(pixels)`. -/
def scriptEncode (pixels message : List Byte) (password : Option (List Byte)) : List HostMove :=
  scriptEncodeThen pixels message password (scriptDump .pixo 0 pixels.length)

/-- `decode` of the buffer that is resident: the result is `RD OUTLEN ; DUMP OUT, 0, OUTLEN`. -/
def scriptDecodeResident (password : Option (List Byte)) : List HostMove :=
  scriptPassword password ++ scriptRun 2 (scriptRd 6 ++ [.dumpRead .out])

/-- `decode(pixels, password?)`. -/
def scriptDecode (pixels : List Byte) (password : Option (List Byte)) : List HostMove :=
  scriptPixels pixels ++ scriptDecodeResident password

/-- The copy between the two commands (R355): a `DUMP PIXO` followed by a `LOAD PIXI`. -/
def scriptCopyBack (len : Nat) : List HostMove := scriptDump .pixo 0 len ++ [.loadRead .pixi len]

/-- `decode(encode(pixels, message, password?), password'?)`: the dump of the encoder's result is the one the
copy makes; an `encode` that fails ends the script. -/
def scriptRoundTrip (pixels message : List Byte) (password password' : Option (List Byte)) : List HostMove :=
  scriptEncodeThen pixels message password
    (scriptCopyBack pixels.length ++ scriptWr 2 (BitVec.ofNat 32 pixels.length) ++ scriptDecodeResident password')

end Sys2Proof.Machine
end

