-- ==== Sys2Proof/Machine/Step.lean ====
section
/-! DEFINITION. One step of the machine, and the word it runs next. -/

namespace Sys2Proof.Machine

/-- One step: a micro-operation code handed to the datapath from outside the sequencer comes first
(none in a run, log 7); then the outside's next move; with neither, the engine's step. -/
def step (s : State) : Host.Outcome State Fault Refusal :=
  match s.uops with
  | c :: rest => datapath c { s with uops := rest }
  | [] =>
    match s.host with
    | mv :: rest => hostStep mv rest s
    | [] => engineStep s

/-- `k` steps, stopping at the first fault or refusal. -/
def run : Nat → State → Result
  | 0, s => .next s
  | k + 1, s => andThen (step s) (run k)

/-- `s` with a word placed where the next step takes its instruction from: a command word as the
host's next write to `CMD` (R220), a micro-operation code as the datapath's next one (R95; log 7). -/
def State.withFetchWord (s : State) (nbits w : Nat) : State :=
  match rawOfTableWord nbits w with
  | some (.cmd c) => { s with uops := [], host := .wr 0 c :: s.host }
  | some (.uop c) => { s with uops := c :: s.uops }
  | none => s

end Sys2Proof.Machine
end

