-- ==== Sys2Proof/Machine/Operation.lean ====
section
/-! DEFINITION. The operation level, normative in the spec: the frame (42_frame R180 to R188), the payload
(43_protection R200 to R212), and `ENCODE` and `DECODE` as one atomic function each (45_encode R230,
46_decode R260), in the source's own numbered steps. The step level is held against these. -/

namespace Sys2Proof.Machine

/-- The kind and the sub-cause a command ends with. -/
abbrev Ending := ErrKind × BitVec 3

/-! ### The frame -/

/-- `FRAME(P) = uintToBits(n, 32) ∥ bytesToBits(P)`, `n = 8 * len(P)` (R96). -/
def frameBits (p : List Byte) : List Bool :=
  uintToBits (BitVec.ofNat HDRW (8 * p.length)) ++ bytesToBits p

/-- `for k = k0, k0 + 1, ... : out[4 * k] <- setLSB(out[4 * k], F[k])` (R180, R230 steps 5 and 6). -/
def embedFrom : Nat → List Bool → List Byte → List Byte
  | _, [], out => out
  | k, f :: fs, out => embedFrom (k + 1) fs (out.set (EA k) (setLSB (out.getD (EA k) 0) f))

/-- `writeFrame(buf, P)` (R180). -/
def writeFrame (buf p : List Byte) : List Byte := embedFrom 0 (frameBits p) buf

/-- The bits 0 of the channel-0 bytes of pixels `k0 .. k0 + len - 1` (R183, R187). -/
def channelBits (buf : List Byte) (k0 len : Nat) : List Bool :=
  (List.range len).map fun j => lsb (buf.getD (EA (k0 + j)) 0)

/-- `capacity(buf)` (R160). -/
def capacity (buf : List Byte) : Nat := buf.length / BPP

/-- `readHeader(buf)` (R183). -/
def readHeader (buf : List Byte) : Nat := bitsToUint (channelBits buf 0 HDRW)

/-- `readPayload(buf, n)` (R187), for an `n` that is a multiple of 8. -/
def readPayload (buf : List Byte) (n : Nat) : List Byte := (bitsToBytes (channelBits buf HDRW n)).getD []

/-- `readFrame(buf)` (R188): the tests of R184, R185 and R186 in order, then the payload. -/
def readFrame (buf : List Byte) : Except Ending (List Byte) :=
  if capacity buf < HDRW then .error (.formatError, subLenRange)
  else if readHeader buf = 0 then .error (.formatError, subLenZero)
  else if capacity buf < HDRW + readHeader buf then .error (.formatError, subLenRange)
  else if readHeader buf % 8 ≠ 0 then .error (.formatError, subLenAlign)
  else .ok (readPayload buf (readHeader buf))

/-! ### The payload -/

/-- `buildPayload(message, password?)` (R200, R201). -/
def buildPayload (message : List Byte) : Option (List Byte) → List Byte
  | none => message
  | some [] => message
  | some (x :: xs) => MARK ++ (x :: xs) ++ SEP ++ message

/-- `unwrap(extracted, password?)` (R212): the tests in the order of R209. -/
def unwrap (x : List Byte) (password : Option (List Byte)) : Except Ending (List Byte) :=
  if startsWith x MARK then
    match occurrences x SEP with
    | [p] =>
      match password with
      | none => .error (.authError, subPwdRequired)
      | some q =>
        if q = (x.take p).drop 11 then .ok (x.drop (p + 6)) else .error (.authError, subPwdIncorrect)
    | _ => .error (.formatError, subSepCount)
  else .ok x

/-! ### The two public operations of the source -/

/-- `encode(pixels, message, password?)` (R230). -/
def sourceEncode (pixels message : List Byte) (password : Option (List Byte)) : Except Ending (List Byte) :=
  let p := buildPayload message password
  if capacity pixels < HDRW + 8 * p.length then .error (.capacityError, subCapExceeded)
  else .ok (writeFrame pixels p)

/-- `decode(pixels, password?)` (R260). -/
def sourceDecode (pixels : List Byte) (password : Option (List Byte)) : Except Ending (List Byte) :=
  match readFrame pixels with
  | .error e => .error e
  | .ok x => unwrap x password

/-! ### The commands as one transition of the state, for a state in which they are accepted -/

/-- The pixel buffer in `PIXI` (R33). -/
def State.pixels (s : State) : List Byte := s.bytes .pixi 0 s.pixlen.toNat

/-- The message in `MSG` (R34). -/
def State.message (s : State) : List Byte := s.bytes .msg 0 s.msglen.toNat

/-- The byte sequence the payload multiplexer presents for the variant in `PROT` (R202). -/
def State.muxPayload (s : State) : List Byte :=
  if s.prot then MARK ++ s.bytes .pwd 0 s.pwdlen.toNat ++ SEP ++ s.message else s.message

/-- The number of bits the payload of an `ENCODE` takes: `n = 8 * len(P)` (R230 step 2). -/
def State.payloadBits (s : State) : Nat := 8 * (buildPayload s.message s.password).length

/-- `ENCODE` (R230): `PIXO`, `N` and `STATUS`. -/
def encodeOp (s : State) : State :=
  let s1 := { acceptStatus s with prot := s.protectedVariant }
  match sourceEncode s.pixels s.message s.password with
  | .error (e, sub) => finish e sub s1
  | .ok pixels =>
    finish .none 0 { s1 with pixo := s1.pixo.writeList 0 pixels, n := BitVec.ofNat 32 s.payloadBits }

/-- `N` as `DECODE` leaves it: the header, which is read only with `CAP >= 32` (R260 steps 1 and 2). -/
def State.decodedN (s : State) : Word := if s.cap < HDRW then s.n else BitVec.ofNat 32 (readHeader s.pixels)

/-- `DECODE` (R260): `OUTLEN`, `OUT`, `N` and `STATUS`. The extracted payload, which R260 keeps in
`EXT`, is no host-visible result and is left out here. -/
def decodeOp (s : State) : State :=
  let s1 := { acceptStatus s with outlen := 0, n := s.decodedN }
  match readFrame s.pixels with
  | .error (e, sub) => finish e sub s1
  | .ok x =>
    let s2 := { s1 with prot := startsWith x MARK }
    match unwrap x s.password with
    | .error (e, sub) => finish e sub s2
    | .ok m => finish .none 0 { s2 with out := s2.out.writeList 0 m, outlen := BitVec.ofNat 32 m.length }

end Sys2Proof.Machine
end

