-- ==== Sys2Proof/Safety.lean ====
section
/-! DEFINITION. What holds of the machine in every run: the memories keep their canonical form and stay in
their address space, `STATUS` stays legal, and each sequencer state finds its registers as the rules before
it left them. A safe run is one in which every state has this and no step of the engine stops. -/

namespace Sys2Proof.Machine

/-- Every memory is in canonical form and lists no address beyond its depth (R60). -/
def State.MemOk (s : State) : Prop :=
  ∀ m : MemName, (s.mem m).wf ∧ ∀ c ∈ (s.mem m).cells, c.1 < s.depth m

/-- The variant and the length that `E_BUILD` computed (R241). -/
def State.BuiltOk (s : State) : Prop :=
  s.prot = s.protectedVariant ∧ s.paylen.toNat = s.payloadLength s.prot

/-- The bit length that `E_CHKCAP` accepted (R242). -/
def State.FitsOk (s : State) : Prop :=
  s.n.toNat = 8 * s.paylen.toNat ∧ HDRW + s.n.toNat ≤ s.cap

/-- The extracted payload is complete: `EXTLEN = N / 8`, and it fitted (R272, R273). -/
def State.ExtractedOk (s : State) : Prop :=
  s.n.toNat = 8 * s.extlen.toNat ∧ HDRW + s.n.toNat ≤ s.cap

/-- What each sequencer state finds (R23, R240 to R245, R270 to R277). -/
def State.PhaseOk (s : State) : Prop :=
  match s.st with
  | .idle => True
  | .eBuild => configCheck true s = none
  | .eChkcap => configCheck true s = none ∧ s.BuiltOk
  | .eClone => configCheck true s = none ∧ s.BuiltOk ∧ s.FitsOk
  | .eWrhdr => configCheck true s = none ∧ s.BuiltOk ∧ s.FitsOk ∧ s.idx.toNat < HDRW
  | .eWrpay =>
    configCheck true s = none ∧ s.BuiltOk ∧ s.FitsOk ∧
      HDRW ≤ s.idx.toNat ∧ s.idx.toNat < HDRW + s.n.toNat ∧
      s.bc.toNat = (s.idx.toNat - HDRW) % 8 ∧ s.bp.toNat = (s.idx.toNat - HDRW + 7) / 8
  | .dRdhdr => configCheck false s = none ∧ s.outlen = 0 ∧ s.prot = false ∧ s.idx.toNat < HDRW
  | .dValhdr => configCheck false s = none ∧ s.outlen = 0 ∧ s.prot = false ∧ HDRW ≤ s.cap ∧ s.idx.toNat = HDRW
  | .dRdpay =>
    configCheck false s = none ∧ s.outlen = 0 ∧ s.prot = false ∧ HDRW + s.n.toNat ≤ s.cap ∧ s.n.toNat % 8 = 0 ∧
      HDRW ≤ s.idx.toNat ∧ s.idx.toNat < HDRW + s.n.toNat ∧
      s.bc.toNat = (s.idx.toNat - HDRW) % 8 ∧ s.bp.toNat = (s.idx.toNat - HDRW) / 8
  | .dDetprot => configCheck false s = none ∧ s.outlen = 0 ∧ s.prot = false ∧ s.ExtractedOk
  | .dRetplain => configCheck false s = none ∧ s.outlen = 0 ∧ s.prot = false ∧ s.ExtractedOk
  | .dValpwd => configCheck false s = none ∧ s.outlen = 0 ∧ s.prot = true ∧ s.ExtractedOk ∧ 11 ≤ s.extlen.toNat
  | .dRetmsg =>
    configCheck false s = none ∧ s.outlen = 0 ∧ s.prot = true ∧ s.ExtractedOk ∧ s.spos.toNat + 6 ≤ s.extlen.toNat

/-- The invariant of every run. -/
structure State.Inv (s : State) : Prop where
  /-- the memories are canonical and in their address space -/
  memOk : s.MemOk
  /-- the parameters meet the constraints of R8 -/
  paramsOk : s.params.wellFormed = true
  /-- the sequencer leaves no micro-operation unperformed between steps (R95) -/
  uopsDone : s.uops = []
  /-- `BUSY` and `DONE` are never both 1 (R31) -/
  notBoth : s.busy = true → s.done = false
  /-- an error is on record only when a command has ended (R31) -/
  noErrorYet : s.done = false → s.err = .none
  /-- the pair (`ERR`, `SUB`) is one that occurs (R101) -/
  endingOk : legalEnding s.err s.sub = true
  /-- the registers are as the sequencer state expects -/
  phaseOk : s.PhaseOk

/-- A safe state: the invariant holds and the engine's step answers a next state (R69: no access is ever
out of range). -/
def State.Safe (s : State) : Prop := s.Inv ∧ ∃ t, engineStep s = .next t

end Sys2Proof.Machine
end

