-- ==== Sys2Proof/Certificates/Slice0/Obligations.lean ====
section
/-! DEFINITION. The statements for the provers. `Sys2Proof.Claims` holds the words they are said in. -/

namespace Sys2Proof.Claims

open Sys2Proof Sys2Proof.Machine

/-- The engine waits in `IDLE`, nothing is pending from outside, and the invariant holds (with it the
constraints of R8 on the parameters): a state in which a command can be given. -/
structure Ready (s : State) : Prop where
  idle : s.st = .idle
  host : s.host = []
  inv  : s.Inv

/-- Every byte of every memory reads as before, but for the memory named. -/
def SameBytesBut (k : MemName) (s t : State) : Prop := ∀ m a, m ≠ k → t.byteAt m a = s.byteAt m a

/-- What the host can see of two states is the same: every register, and every byte of every memory but
`EXT`. -/
structure SameResult (s t : State) : Prop where
  pixlen  : t.pixlen = s.pixlen
  msglen  : t.msglen = s.msglen
  pwdlen  : t.pwdlen = s.pwdlen
  present : t.present = s.present
  outlen  : t.outlen = s.outlen
  done    : t.done = s.done
  err     : t.err = s.err
  sub     : t.sub = s.sub
  n       : t.n = s.n
  prot    : t.prot = s.prot
  st      : t.st = s.st
  bytes   : SameBytesBut .ext s t

/-- Give an instruction one bit after another in the latch `B`. -/
def feed (i : Instr) : List Bool → State → Result
  | [], s => .next s
  | v :: vs, s => andThen (exec i { s with b := v }) (feed i vs)

/-- How many steps an accepted `ENCODE` takes (R246). -/
def encodeSteps (s : State) : Nat := if s.cap < HDRW + s.payloadBits then 2 else 3 + 32 + s.payloadBits

/-- How many steps an accepted `DECODE` takes (R278). -/
def decodeSteps (s : State) : Nat :=
  if s.cap < HDRW then 1
  else
    match readFrame s.pixels with
    | .error _ => 33
    | .ok x =>
      match startsWith x MARK, unwrap x s.password with
      | true, .ok _ => 33 + readHeader s.pixels + 3
      | _, _ => 33 + readHeader s.pixels + 2

/-- The state after a frame bit `v` was put into pixel `IDX` of `PIXO`: the bytes, and `IDX`. -/
def Embedded (v : Bool) (s t : State) : Prop :=
  t.idx.toNat = s.idx.toNat + 1 ∧
    ∀ m a, t.byteAt m a =
      if m = .pixo ∧ a = EA s.idx.toNat then setLSB (s.byteAt .pixo a) v else s.byteAt m a

/-- Byte `BP` of the payload lies in memory `m` at an address that does not exist (R60, R202). -/
abbrev ByteMissing (s : State) (m : MemName) : Prop :=
  (m = .msg ∧ s.prot = false ∧ s.params.msgMax ≤ s.bp.toNat) ∨
  (m = .msg ∧ s.prot = true ∧ 17 + s.pwdlen.toNat ≤ s.bp.toNat ∧ s.params.msgMax ≤ s.bp.toNat - 17 - s.pwdlen.toNat) ∨
  (m = .pwd ∧ s.prot = true ∧ 11 ≤ s.bp.toNat ∧ s.bp.toNat < 11 + s.pwdlen.toNat ∧ s.params.pwdMax ≤ s.bp.toNat - 11)

/-- A host that decodes what `u` encoded: ready, with the pixels of `u`'s `PIXO` in `PIXI` (R355). -/
structure Carried (u v : State) : Prop where
  ready  : Ready v
  config : configCheck false v = none
  pixlen : v.pixlen = u.pixlen
  pixels : ∀ a < u.pixlen.toNat, v.byteAt .pixi a = u.byteAt .pixo a

/-- What `State.reads` shows of bytes read one after another: the newest first. -/
def readBack (xs : List Byte) : List Word := (xs.map (·.setWidth 32)).reverse

/-- A `DECODE` given in `v` runs to its end and leaves `w`. -/
def Decodes (v w : State) : Prop :=
  ∃ t k, exec .decode v = .next t ∧ run k t = .next w ∧ w.st = .idle ∧ w.done = true

end Sys2Proof.Claims

open Sys2Proof Sys2Proof.Machine Sys2Proof.Claims

/-! ### Encodings -/

/-- The words of the opcode table decode to their instructions (30_encoding R91, R95). -/
def Obligations.OpcodeWordsDecode : Prop :=
  decodeCmd 0x00000000#32 = .ok .nop ∧ decodeCmd 0x00000001#32 = .ok .encode ∧ decodeCmd 0x00000002#32 = .ok .decode ∧
  decodeUop 0x0#4 = .ok .uNone ∧ decodeUop 0x1#4 = .ok .uLdb ∧ decodeUop 0x2#4 = .ok .uSho ∧
  decodeUop 0x3#4 = .ok .uShi ∧ decodeUop 0x4#4 = .ok .uStb ∧ decodeUop 0x5#4 = .ok .uHld ∧
  decodeUop 0x6#4 = .ok .uHso ∧ decodeUop 0x7#4 = .ok .uHsi ∧ decodeUop 0x8#4 = .ok .uEmb ∧
  decodeUop 0x9#4 = .ok .uExt ∧ decodeUop 0xA#4 = .ok .uCln ∧
  decodeTableWord 32 1 = some .encode ∧ decodeTableWord 8 8 = some .uEmb ∧ decodeTableWord 32 0x11 = none

/-- Exactly the reserved words are rejected, by name (R92, R95). -/
def Obligations.ReservedWordsAreRejected : Prop :=
  (∀ w : Word, decodeCmd w = .error .reservedCommand ↔ w ≠ 0x00000000#32 ∧ w ≠ 0x00000001#32 ∧ w ≠ 0x00000002#32) ∧
  (∀ c : BitVec 4, decodeUop c = .error .reservedUop ↔ 0xB ≤ c.toNat)

/-- Decoding undoes encoding for every instruction, encoding undoes decoding for every word that is an
instruction, and the well-formed words are exactly those (R91, R92, R95). -/
def Obligations.DecodeAndEncodeAgree : Prop :=
  (∀ i : Instr, i.wellFormed = true → decode (encode i) = .ok i) ∧
  (∀ (r : RawWord) (i : Instr), decode r = .ok i → encode i = r) ∧
  (∀ r : RawWord, r.wellFormed = true ↔ ∃ i, decode r = .ok i)

/-! ### The step and what it runs -/

/-- When the outside's next move writes a word to `CMD`, the step is the word's instruction (R220); when a
micro-operation code waits in the datapath, the step is that micro-operation, and a reserved code does
nothing (R95); and `withFetchWord` places a word so. The list of the outside's moves is the model's choice
(log 2), and so are the list `uops` from which a step takes one code ahead of everything else (log 7) and
`withFetchWord` (log 15); the spec's are what a written word and a code do. -/
def Obligations.StepRunsTheDecodedInstruction : Prop :=
  (∀ (s : State) (w : Word) (rest : List HostMove) (i : Instr),
    s.uops = [] → s.host = .wr 0 w :: rest → decodeCmd w = .ok i → step s = exec i { s with host := rest }) ∧
  (∀ (s : State) (c : BitVec 4) (rest : List (BitVec 4)) (i : Instr),
    s.uops = c :: rest → decodeUop c = .ok i → step s = exec i { s with uops := rest }) ∧
  (∀ (s : State) (c : BitVec 4) (rest : List (BitVec 4)),
    s.uops = c :: rest → 0xB ≤ c.toNat → step s = .next { s with uops := rest }) ∧
  (∀ (s : State) (nbits w : Nat) (i : Instr),
    s.uops = [] → decodeTableWord nbits w = some i → step (s.withFetchWord nbits w) = exec i s)

/-- Without a move of the outside the engine steps; `idle` lets it step once, `wait` until `DONE = 1`; in
`IDLE` the engine waits and changes nothing (R24, R72, R106). -/
def Obligations.EngineStepsBetweenHostMoves : Prop :=
  ∀ s : State, s.uops = [] →
    (s.host = [] → step s = engineStep s) ∧
    (∀ rest, s.host = .idle :: rest → step s = engineStep { s with host := rest }) ∧
    (∀ rest, s.host = .wait :: rest → s.done = true → step s = .next { s with host := rest }) ∧
    (∀ rest, s.host = .wait :: rest → s.done = false → step s = engineStep s) ∧
    (s.st = .idle → engineStep s = .next s)

/-! ### Dispatch (44_commands) -/

/-- R223: a reserved word written while `IDLE` is refused with `IllCmd`; `STATUS` reads 0x00000016 and
nothing else changes. Said of the write and of the step that makes it (that the move is then gone is log 2). -/
def Obligations.ReservedCommandIsRefused : Prop :=
  ∀ (s : State) (w : Word), s.st = .idle → w ≠ 0x00000000#32 → w ≠ 0x00000001#32 → w ≠ 0x00000002#32 →
    (∃ t, writeCmd w s = .next t ∧ t = { s with done := true, err := .illCmd, sub := 0, prot := false } ∧
      t.status = 0x00000016#32) ∧
    (∀ rest, s.uops = [] → s.host = .wr 0 w :: rest →
      ∃ t, step s = .next t ∧
        t = { s with host := rest, done := true, err := .illCmd, sub := 0, prot := false } ∧
        t.status = 0x00000016#32)

/-- R351: a write to `CMD` while `BUSY = 1` is ignored, whatever the word. -/
def Obligations.CommandWhileBusyIsIgnored : Prop :=
  ∀ (s : State) (w : Word) (rest : List HostMove), s.st ≠ .idle → s.uops = [] → s.host = .wr 0 w :: rest →
    step s = .next { s with host := rest }

/-- R222: `NOP` changes nothing, whatever the state. -/
def Obligations.NopChangesNothing : Prop := ∀ s : State, exec .nop s = .next s

/-- R224: the configuration check, in its order, and what a refusal records; with the default parameters
it never fails. -/
def Obligations.ConfigurationCheck : Prop :=
  ∀ s : State, s.st = .idle →
    (s.params.pixMax < s.pixlen.toNat →
      exec .encode s = .next { s with done := true, err := .cfgError, sub := 1, prot := false } ∧
      exec .decode s = .next { s with done := true, err := .cfgError, sub := 1, prot := false }) ∧
    (s.pixlen.toNat ≤ s.params.pixMax → s.params.msgMax < s.msglen.toNat →
      exec .encode s = .next { s with done := true, err := .cfgError, sub := 2, prot := false }) ∧
    (s.pixlen.toNat ≤ s.params.pixMax → s.msglen.toNat ≤ s.params.msgMax → s.present = true →
      s.params.pwdMax < s.pwdlen.toNat →
      exec .encode s = .next { s with done := true, err := .cfgError, sub := 3, prot := false }) ∧
    (s.pixlen.toNat ≤ s.params.pixMax → s.present = true → s.params.pwdMax < s.pwdlen.toNat →
      exec .decode s = .next { s with done := true, err := .cfgError, sub := 3, prot := false }) ∧
    (s.params = .default → configCheck true s = none ∧ configCheck false s = none)

/-- R240: acceptance of `ENCODE`. Nothing but `STATUS` and `ST` changes. -/
def Obligations.EncodeIsAccepted : Prop :=
  ∀ s : State, s.st = .idle → s.pixlen.toNat ≤ s.params.pixMax → s.msglen.toNat ≤ s.params.msgMax →
    (s.present = true → s.pwdlen.toNat ≤ s.params.pwdMax) →
    exec .encode s = .next { s with done := false, err := .none, sub := 0, prot := false, st := .eBuild }

/-- R270: acceptance of `DECODE`. `MSGLEN` is not looked at. (The model's free counter moves.) -/
def Obligations.DecodeIsAccepted : Prop :=
  ∀ s : State, s.st = .idle → s.pixlen.toNat ≤ s.params.pixMax →
    (s.present = true → s.pwdlen.toNat ≤ s.params.pwdMax) →
    ∃ f, exec .decode s = .next { s with
      done := false, err := .none, sub := 0, prot := false
      outlen := 0, idx := 0, hsr := 0, st := .dRdhdr, free := f }

/-! ### The register file and the host's memory accesses (10_state, 20_memory) -/

/-- What each register reads, and that a read has no effect on the block (R30, R32 to R39). -/
def Obligations.RegisterReads : Prop :=
  ∀ s : State,
    (s.readReg 0 = 0 ∧ s.readReg 1 = s.status ∧ s.readReg 2 = s.pixlen ∧ s.readReg 3 = s.msglen ∧
      s.readReg 4 = s.pwdlen ∧ (s.readReg 5).toNat = s.present.toNat ∧ s.readReg 6 = s.outlen ∧ s.readReg 7 = s.n ∧
      (s.readReg 8).toNat = s.pixlen.toNat / 4 ∧ ∀ r, 9 ≤ r → s.readReg r = 0) ∧
    (∀ r rest, s.uops = [] → s.host = .rd r :: rest →
      step s = .next { s with host := rest, reads := s.readReg r :: s.reads })

/-- The fields of `STATUS` (R31), with the numbers of the error kinds (R100) and of the sequencer states (R103). -/
def Obligations.StatusFields : Prop :=
  ∀ s : State,
    s.status.getLsbD 0 = decide (s.st ≠ .idle) ∧ s.status.getLsbD 1 = s.done ∧
    (s.status.extractLsb' 2 3).toNat =
      (match s.err with
        | .none => 0 | .capacityError => 1 | .formatError => 2 | .authError => 3
        | .inputError => 4 | .illCmd => 5 | .cfgError => 6) ∧
    s.status.extractLsb' 5 3 = s.sub ∧
    s.status.getLsbD 8 = s.prot ∧ s.status.extractLsb' 9 3 = 0 ∧
    (s.status.extractLsb' 12 4).toNat =
      (match s.st with
        | .idle => 0 | .eBuild => 1 | .eChkcap => 2 | .eClone => 3 | .eWrhdr => 4 | .eWrpay => 5
        | .dRdhdr => 8 | .dValhdr => 9 | .dRdpay => 10 | .dDetprot => 11 | .dRetplain => 12
        | .dValpwd => 13 | .dRetmsg => 14) ∧
    s.status.extractLsb' 16 16 = 0

/-- A write to a register while `BUSY = 0`: the four operand registers take it, `PWDCTL` its bit 0 alone,
every other number but `CMD` ignores it (R30, R33 to R36). -/
def Obligations.RegisterWrites : Prop :=
  ∀ (s : State) (v : Word) (rest : List HostMove) (r : Nat),
    s.st = .idle → s.uops = [] → s.host = .wr r v :: rest →
    (r = 2 → step s = .next { s with host := rest, pixlen := v }) ∧
    (r = 3 → step s = .next { s with host := rest, msglen := v }) ∧
    (r = 4 → step s = .next { s with host := rest, pwdlen := v }) ∧
    (r = 5 → step s = .next { s with host := rest, present := v.getLsbD 0 }) ∧
    (r = 1 ∨ 6 ≤ r → step s = .next { s with host := rest })

/-- R352: while `BUSY = 1` a write to a register is ignored, and a read returns the current value. -/
def Obligations.RegistersWhileBusy : Prop :=
  ∀ (s : State) (rest : List HostMove) (r : Nat), s.st ≠ .idle → s.uops = [] →
    (∀ v, s.host = .wr r v :: rest → step s = .next { s with host := rest }) ∧
    (s.host = .rd r :: rest → step s = .next { s with host := rest, reads := s.readReg r :: s.reads })

/-- A host access to a memory while `BUSY = 1` is refused by name (R74, R353, 93_implementation_defined U6). -/
def Obligations.MemoryAccessWhileBusyIsRefused : Prop :=
  ∀ (s : State) (rest : List HostMove), s.st ≠ .idle → s.uops = [] →
    (∀ m a v, s.host = .poke m a v :: rest → step s = .refused (.memoryWhileBusy m.name)) ∧
    (∀ m a, s.host = .peek m a :: rest → step s = .refused (.memoryWhileBusy m.name))

/-- A host byte write while `BUSY = 0` replaces that byte and nothing else; a host byte read returns the
byte, of `OUT` only below `OUTLEN` (elsewhere some value); an address beyond the depth is a fault (R60,
R66, R68; the fault is log 11). That the host sees the stored byte of `PIXO` at or beyond `PIXLEN` too is the
model's choice (log 20). -/
def Obligations.HostMemoryAccess : Prop :=
  ∀ (s : State) (rest : List HostMove), s.st = .idle → s.uops = [] →
    (∀ m a v, s.host = .poke m a v :: rest → a < s.depth m.name →
      ∃ t, step s = .next t ∧
        t = { s with host := rest, pixi := t.pixi, pixo := t.pixo, msg := t.msg, pwd := t.pwd } ∧
        ∀ k c, t.byteAt k c = if k = m.name ∧ c = a then v else s.byteAt k c) ∧
    (∀ m a, s.host = .peek m a :: rest → a < s.depth m.name →
      ∃ v : Byte, step s = .next { s with host := rest, reads := v.setWidth 32 :: s.reads } ∧
        (m ≠ .out → v = s.byteAt m.name a) ∧ (m = .out → a < s.outlen.toNat → v = s.byteAt .out a)) ∧
    (∀ m a v, s.host = .poke m a v :: rest → s.depth m.name ≤ a → step s = .fault (.noSuchAddress m.name)) ∧
    (∀ m a, s.host = .peek m a :: rest → s.depth m.name ≤ a → step s = .fault (.noSuchAddress m.name))

/-- `LOAD` (R106): the moves of the script line put the bytes into consecutive addresses, change no other byte
of any memory and nothing else of the state. -/
def Obligations.LoadScriptMakesBytesResident : Prop :=
  ∀ (s : State) (m : HostWritable) (a : Nat) (xs : List Byte),
    s.st = .idle → s.uops = [] → s.host = scriptLoad m a xs → a + xs.length ≤ s.depth m.name →
    ∃ t, run xs.length s = .next t ∧
      t = { s with host := [], pixi := t.pixi, pixo := t.pixo, msg := t.msg, pwd := t.pwd } ∧
      ∀ k c, t.byteAt k c =
        if k = m.name ∧ a ≤ c ∧ c < a + xs.length then xs.getD (c - a) 0 else s.byteAt k c

/-! ### The micro-operations (40_bitstream_codec, 41_lsb_cell) -/

/-- The micro-operations that touch registers only complete in every state, with their results and nothing
else changed (R137, R138, R140, R141, R142, R170). -/
def Obligations.RegisterMicroOperations : Prop :=
  ∀ s : State,
    exec .uNone s = .next s ∧
    exec .uHld s = .next { s with hsr := s.n } ∧
    (∃ t, exec .uSho s = .next t ∧ t = { s with b := t.b, shr := t.shr, bc := t.bc } ∧
      t.b = s.shr.getLsbD 7 ∧ t.shr.toNat = 2 * s.shr.toNat % 2 ^ 8 ∧ t.bc.toNat = (s.bc.toNat + 1) % 8) ∧
    (∃ t, exec .uShi s = .next t ∧ t = { s with shr := t.shr, bc := t.bc } ∧
      t.shr.toNat = 2 * s.shr.toNat % 2 ^ 8 + s.b.toNat ∧ t.bc.toNat = (s.bc.toNat + 1) % 8) ∧
    (∃ t, exec .uHso s = .next t ∧ t = { s with b := t.b, hsr := t.hsr } ∧
      t.b = s.hsr.getLsbD 31 ∧ t.hsr.toNat = 2 * s.hsr.toNat % 2 ^ 32) ∧
    (∃ t, exec .uHsi s = .next t ∧ t = { s with hsr := t.hsr } ∧
      t.hsr.toNat = 2 * s.hsr.toNat % 2 ^ 32 + s.b.toNat)

/-- Eight `U_SHO` put bits 7, 6, ..., 0 of `SHR` into `B`, in that order, and leave `SHR = 0` and `BC` as it
was (R137, R143). -/
def Obligations.EightShiftsEmitTheByte : Prop :=
  ∀ s : State, s.uops = List.replicate 8 0x2#4 → ∀ j < 8,
    ∃ t, run (j + 1) s = .next t ∧ t.b = s.shr.getLsbD (7 - j) ∧ (j = 7 → t.shr = 0 ∧ t.bc = s.bc ∧ t.uops = [])

/-- Eight `U_SHI` assemble the byte of the eight bits given, whatever `SHR` held, and leave `BC` as it was
(R131, R138, R144). -/
def Obligations.EightShiftsAssembleTheByte : Prop :=
  ∀ (s : State) (bits : List Bool), bits.length = 8 →
    ∃ t, feed .uShi bits s = .next t ∧ bitsToBytes bits = some [t.shr] ∧ t.shr.toNat = bitsToUint bits ∧ t.bc = s.bc

/-- 32 `U_HSO` put `uintToBits(HSR, 32)` into `B`, and 32 `U_HSI` make `HSR` the number of the 32 bits given,
whatever it held (R132, R133, R141, R142, R143, R144). -/
def Obligations.HeaderShiftsConvertTheNumber : Prop :=
  (∀ s : State, s.uops = List.replicate 32 0x6#4 → ∀ j < 32,
    ∃ t, run (j + 1) s = .next t ∧ (uintToBits s.hsr)[j]? = some t.b ∧ (j = 31 → t.hsr = 0 ∧ t.uops = [])) ∧
  (∀ (s : State) (bits : List Bool), bits.length = 32 →
    ∃ t, feed .uHsi bits s = .next t ∧ t.hsr.toNat = bitsToUint bits)

/-- `U_LDB` loads byte `BP` of the payload from `MSG`, `PWD`, `MARK` or `SEP`, and counts `BP` up; past the
payload's end it completes with some byte (log 8); where the byte lies beyond its memory's depth it is a
fault (R136, R202; the fault is log 11). -/
def Obligations.LoadByteReadsThePayload : Prop :=
  (∀ s : State, s.bp.toNat < s.payloadLength s.prot → (∀ m, ¬ ByteMissing s m) →
    ∃ p f, exec .uLdb s = .next { s with shr := s.muxPayload.getD s.bp.toNat 0, bp := p, free := f } ∧
      (s.bp.toNat + 1 < 2 ^ 32 → p.toNat = s.bp.toNat + 1)) ∧
  (∀ s : State, s.payloadLength s.prot ≤ s.bp.toNat →
    ∃ x p f, exec .uLdb s = .next { s with shr := x, bp := p, free := f } ∧
      (s.bp.toNat + 1 < 2 ^ 32 → p.toNat = s.bp.toNat + 1)) ∧
  (∀ (s : State) (m : MemName), s.bp.toNat < s.payloadLength s.prot → ByteMissing s m →
    exec .uLdb s = .fault (.noSuchAddress m))

/-- `U_STB` stores `SHR` at `EXT[BP]` and nowhere else, and counts `BP` up; beyond the depth of `EXT` it is a
fault (R139). -/
def Obligations.StoreByteWritesExt : Prop :=
  ∀ s : State,
    (s.bp.toNat < s.params.extMax →
      ∃ t, exec .uStb s = .next t ∧ t = { s with ext := t.ext, bp := t.bp, free := t.free } ∧
        (s.bp.toNat + 1 < 2 ^ 32 → t.bp.toNat = s.bp.toNat + 1) ∧
        ∀ m a, t.byteAt m a = if m = .ext ∧ a = s.bp.toNat then s.shr else s.byteAt m a) ∧
    (s.params.extMax ≤ s.bp.toNat → exec .uStb s = .fault (.noSuchAddress .ext))

/-- `U_EMB` puts `B` into bit 0 of `PIXO[4 * IDX]`, keeps every other bit of every byte, and counts `IDX` up;
beyond the depth of `PIXO` it is a fault (R161, R165, R167). -/
def Obligations.EmbedWritesOneBit : Prop :=
  ∀ s : State,
    (4 * s.idx.toNat < s.params.pixMax →
      ∃ t, exec .uEmb s = .next t ∧ t = { s with pixo := t.pixo, idx := t.idx, free := t.free } ∧
        (s.idx.toNat + 1 < 2 ^ 32 → t.idx.toNat = s.idx.toNat + 1) ∧
        ∀ m a, t.byteAt m a =
          if m = .pixo ∧ a = 4 * s.idx.toNat then setLSB (s.byteAt .pixo a) s.b else s.byteAt m a) ∧
    (s.params.pixMax ≤ 4 * s.idx.toNat → exec .uEmb s = .fault (.noSuchAddress .pixo))

/-- `U_EXT` puts bit 0 of `PIXI[4 * IDX]` into `B` and counts `IDX` up; it writes no memory; beyond the depth
of `PIXI` it is a fault (R161, R166, R168). -/
def Obligations.ExtractReadsOneBit : Prop :=
  ∀ s : State,
    (4 * s.idx.toNat < s.params.pixMax →
      ∃ p f, exec .uExt s = .next { s with
          b := (s.byteAt .pixi (4 * s.idx.toNat)).getLsbD 0, idx := p, free := f } ∧
        (s.idx.toNat + 1 < 2 ^ 32 → p.toNat = s.idx.toNat + 1)) ∧
    (s.params.pixMax ≤ 4 * s.idx.toNat → exec .uExt s = .fault (.noSuchAddress .pixi))

/-- `U_CLN` makes `PIXO[0 .. PIXLEN-1]` equal `PIXI[0 .. PIXLEN-1]` and changes no other byte; a buffer beyond
the depth is a fault (R169). -/
def Obligations.CloneCopiesTheBuffer : Prop :=
  ∀ s : State,
    (s.pixlen.toNat ≤ s.params.pixMax →
      ∃ t, exec .uCln s = .next t ∧ t = { s with pixo := t.pixo } ∧
        ∀ m a, t.byteAt m a = if m = .pixo ∧ a < s.pixlen.toNat then s.byteAt .pixi a else s.byteAt m a) ∧
    (s.params.pixMax < s.pixlen.toNat → exec .uCln s = .fault (.noSuchAddress .pixi))

/-! ### The BitStream functions and the LSB cell -/

/-- `setLSB` and `LSB` (R165, R166), and the laws the spec derives from them (R171). -/
def Obligations.LsbCellLaws : Prop :=
  (∀ x : Byte, setLSB x true = x ||| 0x01#8 ∧ setLSB x false = x &&& 0xFE#8 ∧ (lsb x).toNat = x.toNat % 2) ∧
  (∀ (x : Byte) (v : Bool), (setLSB x v).getLsbD 0 = v ∧ ∀ i, 1 ≤ i → (setLSB x v).getLsbD i = x.getLsbD i) ∧
  (∀ (x : Byte) (v w : Bool), lsb (setLSB x v) = v ∧ setLSB x (lsb x) = x ∧ setLSB (setLSB x v) w = setLSB x w)

/-- R130: bit `8*q + r` of `bytesToBits(X)` is bit `7 - r` of `X[q]`, and there are `8 * len(X)` of them. -/
def Obligations.BytesToBitsIsMostSignificantFirst : Prop :=
  ∀ xs : List Byte, (bytesToBits xs).length = 8 * xs.length ∧
    ∀ (q : Nat) (h : q < xs.length) (r : Nat), r < 8 → (bytesToBits xs)[8 * q + r]? = some (xs[q].getLsbD (7 - r))

/-- The inverse laws of the codec (R134). -/
def Obligations.CodecInverseLaws : Prop :=
  (∀ xs : List Byte, bitsToBytes (bytesToBits xs) = some xs) ∧
  (∀ s : List Bool, s.length % 8 = 0 → ∃ xs, bitsToBytes s = some xs ∧ bytesToBits xs = s) ∧
  (∀ n : Word, bitsToUint (uintToBits n) = n.toNat) ∧
  (∀ s : List Bool, s.length = 32 → uintToBits (BitVec.ofNat 32 (bitsToUint s)) = s)

/-! ### The frame and the payload (42_frame, 43_protection) -/

/-- What `writeFrame` changes and what it keeps (R180, R181). -/
def Obligations.WriteFrameFootprint : Prop :=
  ∀ buf p : List Byte, HDRW + 8 * p.length ≤ capacity buf →
    (writeFrame buf p).length = buf.length ∧
    ∀ a < buf.length, (writeFrame buf p).getD a 0 =
      if a % 4 = 0 ∧ a / 4 < 32 + 8 * p.length then setLSB (buf.getD a 0) ((frameBits p).getD (a / 4) false)
      else buf.getD a 0

/-- The round trip of the frame, for buffers whose length a register holds (R189, R9). -/
def Obligations.FrameRoundTrip : Prop :=
  ∀ buf p : List Byte, buf.length < 2 ^ 32 → HDRW + 8 * p.length ≤ capacity buf →
    (1 ≤ p.length → readFrame (writeFrame buf p) = .ok p) ∧
    (p.length = 0 → readFrame (writeFrame buf p) = .error (.formatError, subLenZero))

/-- Two occurrences of `SEP` never overlap, and in a sequence that starts with `MARK` none begins before
index 11 (R207). -/
def Obligations.SeparatorsStandApart : Prop :=
  ∀ (xs : List Byte) (p : Nat), p ∈ occurrences xs SEP →
    (∀ q ∈ occurrences xs SEP, p < q → p + 6 ≤ q) ∧ (startsWith xs MARK = true → 11 ≤ p)

/-- What `unwrap` makes of an Encoder's Protected payload (R209 to R214): with neither the password nor the
message containing `SEP`, the right password gives the message, none gives `PWD_REQUIRED`, any other
`PWD_INCORRECT`; with one of them containing `SEP`, every password operand gives `SEP_COUNT`. -/
def Obligations.ProtectedPayloadUnwraps : Prop :=
  ∀ p m : List Byte, p ≠ [] →
    (occ p SEP = 0 → occ m SEP = 0 →
      unwrap (buildPayload m (some p)) (some p) = .ok m ∧
      unwrap (buildPayload m (some p)) none = .error (.authError, subPwdRequired) ∧
      ∀ q, q ≠ p → unwrap (buildPayload m (some p)) (some q) = .error (.authError, subPwdIncorrect)) ∧
    (occ p SEP ≠ 0 ∨ occ m SEP ≠ 0 →
      ∀ q, unwrap (buildPayload m (some p)) q = .error (.formatError, subSepCount))

/-- The capacity boundary (R162, R232, R234): with `CAP >= 32` a payload of at most `floor((CAP - 32) / 8)`
bytes encodes and a longer one is `CapacityError`; with `CAP < 32` every one is. -/
def Obligations.CapacityBoundary : Prop :=
  ∀ (pixels m : List Byte) (q : Option (List Byte)),
    (HDRW ≤ capacity pixels →
      ((∃ r, sourceEncode pixels m q = .ok r) ↔ (buildPayload m q).length ≤ (capacity pixels - 32) / 8) ∧
      ((capacity pixels - 32) / 8 < (buildPayload m q).length →
        sourceEncode pixels m q = .error (.capacityError, subCapExceeded))) ∧
    (capacity pixels < HDRW → sourceEncode pixels m q = .error (.capacityError, subCapExceeded))

/-! ### The step rules (45_encode, 46_decode) -/

/-- R241 and R242: the Encoder's two deciding steps. -/
def Obligations.EncoderDecidingSteps : Prop :=
  (∀ s : State, s.st = .eBuild →
    ∃ t, engineStep s = .next t ∧ t = { s with prot := t.prot, paylen := t.paylen, st := .eChkcap } ∧
      (t.prot = true ↔ s.present = true ∧ 0 < s.pwdlen.toNat) ∧
      t.paylen.toNat = if t.prot then s.msglen.toNat + s.pwdlen.toNat + 17 else s.msglen.toNat) ∧
  (∀ s : State, s.st = .eChkcap →
    (s.pixlen.toNat / 4 < 32 + 8 * s.paylen.toNat →
      engineStep s = .next { s with st := .idle, done := true, err := .capacityError, sub := 1 }) ∧
    (32 + 8 * s.paylen.toNat ≤ s.pixlen.toNat / 4 →
      ∃ t, engineStep s = .next t ∧ t = { s with n := t.n, st := .eClone } ∧ t.n.toNat = 8 * s.paylen.toNat))

/-- R243: the clone, and the header loaded. -/
def Obligations.CloneStep : Prop :=
  ∀ s : State, s.Inv → s.st = .eClone →
    ∃ t, engineStep s = .next t ∧ t = { s with pixo := t.pixo, hsr := s.n, idx := 0, st := .eWrhdr } ∧
      ∀ m a, t.byteAt m a = if m = .pixo ∧ a < s.pixlen.toNat then s.byteAt .pixi a else s.byteAt m a

/-- One header bit written (R244): what the step changes, and where the sequencer goes. -/
def Obligations.WriteHeaderStep : Prop :=
  ∀ s : State, s.Inv → s.st = .eWrhdr →
    ∃ t, engineStep s = .next t ∧
      t = { s with
        b := s.hsr.getLsbD 31, hsr := s.hsr <<< 1, pixo := t.pixo, idx := t.idx
        bp := t.bp, bc := t.bc, st := t.st, done := t.done, err := t.err, sub := t.sub } ∧
      Embedded (s.hsr.getLsbD 31) s t ∧
      (s.idx.toNat + 1 ≠ 32 →
        t.st = .eWrhdr ∧ t.bp = s.bp ∧ t.bc = s.bc ∧ t.done = s.done ∧ t.err = s.err ∧ t.sub = s.sub) ∧
      (s.idx.toNat + 1 = 32 → s.n = 0 →
        t.st = .idle ∧ t.bp = 0 ∧ t.bc = 0 ∧ t.done = true ∧ t.err = .none ∧ t.sub = 0) ∧
      (s.idx.toNat + 1 = 32 → s.n ≠ 0 →
        t.st = .eWrpay ∧ t.bp = 0 ∧ t.bc = 0 ∧ t.done = s.done ∧ t.err = s.err ∧ t.sub = s.sub)

/-- One payload bit written (R245): the byte is loaded when `BC = 0`, its top bit embedded. -/
def Obligations.WritePayloadStep : Prop :=
  ∀ s : State, s.Inv → s.st = .eWrpay →
    ∃ t, engineStep s = .next t ∧
      (let x := if s.bc = 0 then s.muxPayload.getD s.bp.toNat 0 else s.shr
       t = { s with
         b := x.getLsbD 7, shr := x <<< 1, bc := s.bc + 1, bp := t.bp, pixo := t.pixo, idx := t.idx
         st := t.st, done := t.done, err := t.err, sub := t.sub } ∧
       Embedded (x.getLsbD 7) s t) ∧
      t.bp.toNat = s.bp.toNat + (if s.bc = 0 then 1 else 0) ∧
      (s.idx.toNat + 1 = 32 + s.n.toNat → t.st = .idle ∧ t.done = true ∧ t.err = .none ∧ t.sub = 0) ∧
      (s.idx.toNat + 1 ≠ 32 + s.n.toNat → t.st = .eWrpay ∧ t.done = s.done ∧ t.err = s.err ∧ t.sub = s.sub)

/-- The Decoder's two reading steps (R271, R273): the bit of pixel `IDX` goes into `HSR`, or into `SHR` and
from there, every eighth time, into `EXT`. -/
def Obligations.DecoderReadingSteps : Prop :=
  (∀ s : State, s.Inv → s.st = .dRdhdr →
    (s.cap < 32 → engineStep s = .next { s with st := .idle, done := true, err := .formatError, sub := 3 }) ∧
    (32 ≤ s.cap → ∃ t, engineStep s = .next t ∧
      t = { s with b := t.b, hsr := t.hsr, idx := t.idx, st := t.st } ∧
      t.b = (s.byteAt .pixi (4 * s.idx.toNat)).getLsbD 0 ∧ t.hsr.toNat = 2 * s.hsr.toNat % 2 ^ 32 + t.b.toNat ∧
      t.idx.toNat = s.idx.toNat + 1 ∧ t.st = if s.idx.toNat + 1 = 32 then .dValhdr else .dRdhdr)) ∧
  (∀ s : State, s.Inv → s.st = .dRdpay →
    ∃ t, engineStep s = .next t ∧
      t = { s with b := t.b, shr := t.shr, bc := s.bc + 1, bp := t.bp, ext := t.ext, idx := t.idx, extlen := t.extlen, st := t.st } ∧
      t.b = (s.byteAt .pixi (4 * s.idx.toNat)).getLsbD 0 ∧ t.shr.toNat = 2 * s.shr.toNat % 2 ^ 8 + t.b.toNat ∧
      t.idx.toNat = s.idx.toNat + 1 ∧ t.bp.toNat = s.bp.toNat + (if s.bc = 7 then 1 else 0) ∧
      (∀ m a, t.byteAt m a = if m = .ext ∧ s.bc = 7 ∧ a = s.bp.toNat then t.shr else s.byteAt m a) ∧
      (s.idx.toNat + 1 = 32 + s.n.toNat → t.extlen = t.bp ∧ t.st = .dDetprot) ∧
      (s.idx.toNat + 1 ≠ 32 + s.n.toNat → t.extlen = s.extlen ∧ t.st = .dRdpay))

/-- R272: the header's tests, in order. -/
def Obligations.ValidateHeaderStep : Prop :=
  ∀ s : State, s.st = .dValhdr →
    (s.hsr.toNat = 0 →
      engineStep s = .next { s with n := s.hsr, st := .idle, done := true, err := .formatError, sub := 2 }) ∧
    (s.hsr.toNat ≠ 0 → s.pixlen.toNat / 4 < 32 + s.hsr.toNat →
      engineStep s = .next { s with n := s.hsr, st := .idle, done := true, err := .formatError, sub := 3 }) ∧
    (s.hsr.toNat ≠ 0 → 32 + s.hsr.toNat ≤ s.pixlen.toNat / 4 → s.hsr.toNat % 8 ≠ 0 →
      engineStep s = .next { s with n := s.hsr, st := .idle, done := true, err := .formatError, sub := 5 }) ∧
    (s.hsr.toNat ≠ 0 → 32 + s.hsr.toNat ≤ s.pixlen.toNat / 4 → s.hsr.toNat % 8 = 0 →
      engineStep s = .next { s with n := s.hsr, bp := 0, bc := 0, shr := 0, st := .dRdpay })

/-- R274 and R275: detection, and the return of a Plain payload. -/
def Obligations.DetectAndReturnPlainSteps : Prop :=
  (∀ s : State, s.Inv → s.st = .dDetprot →
    (11 ≤ s.extlen.toNat ∧ s.bytes .ext 0 11 = MARK →
      engineStep s = .next { s with prot := true, st := .dValpwd }) ∧
    (¬ (11 ≤ s.extlen.toNat ∧ s.bytes .ext 0 11 = MARK) → engineStep s = .next { s with st := .dRetplain })) ∧
  (∀ s : State, s.Inv → s.st = .dRetplain →
    ∃ t, engineStep s = .next t ∧
      t = { s with out := t.out, outlen := s.extlen, st := .idle, done := true, err := .none, sub := 0 } ∧
      ∀ m a, t.byteAt m a = if m = .out ∧ a < s.extlen.toNat then s.byteAt .ext a else s.byteAt m a)

/-- R276: the separator count, then the password, in order; the position of the one separator is kept. -/
def Obligations.ValidatePasswordStep : Prop :=
  ∀ s : State, s.Inv → s.st = .dValpwd →
    (occ (s.bytes .ext 0 s.extlen.toNat) SEP ≠ 1 →
      engineStep s = .next { s with st := .idle, done := true, err := .formatError, sub := 4 }) ∧
    (∀ p, occurrences (s.bytes .ext 0 s.extlen.toNat) SEP = [p] →
      (s.present = false →
        engineStep s = .next { s with st := .idle, done := true, err := .authError, sub := 1 }) ∧
      (s.present = true →
        ((s.pwdlen.toNat : Int) ≠ p - 11 ∨ ∃ i < s.pwdlen.toNat, s.byteAt .pwd i ≠ s.byteAt .ext (11 + i)) →
        engineStep s = .next { s with st := .idle, done := true, err := .authError, sub := 2 }) ∧
      (s.present = true → (s.pwdlen.toNat : Int) = p - 11 →
        (∀ i < s.pwdlen.toNat, s.byteAt .pwd i = s.byteAt .ext (11 + i)) →
        ∃ t, engineStep s = .next t ∧ t = { s with spos := t.spos, st := .dRetmsg } ∧ t.spos.toNat = p))

/-- R277: the message is copied out, the command ends. -/
def Obligations.ReturnMessageStep : Prop :=
  ∀ s : State, s.Inv → s.st = .dRetmsg →
    ∃ t, engineStep s = .next t ∧
      t = { s with out := t.out, outlen := t.outlen, st := .idle, done := true, err := .none, sub := 0 } ∧
      t.outlen.toNat = s.extlen.toNat - s.spos.toNat - 6 ∧
      ∀ m a, t.byteAt m a =
        if m = .out ∧ a < s.extlen.toNat - s.spos.toNat - 6 then s.byteAt .ext (s.spos.toNat + 6 + a)
        else s.byteAt m a

/-! ### Reset (10_state R42, 70_reset_and_hazards R340, R341) -/

/-- The state after reset: `IDLE`, every register 0; the registers 0 to 8 read 0 (R42). -/
def Obligations.ResetState : Prop :=
  State.reset.st = .idle ∧ (∀ r, State.reset.readReg r = 0) ∧
  State.reset.pixlen = 0 ∧ State.reset.msglen = 0 ∧ State.reset.pwdlen = 0 ∧ State.reset.present = false ∧
  State.reset.outlen = 0 ∧ State.reset.done = false ∧ State.reset.err = .none ∧ State.reset.sub = 0 ∧
  State.reset.n = 0 ∧ State.reset.hsr = 0 ∧ State.reset.idx = 0 ∧ State.reset.shr = 0 ∧ State.reset.bc = 0 ∧
  State.reset.b = false ∧ State.reset.bp = 0 ∧ State.reset.paylen = 0 ∧ State.reset.extlen = 0 ∧
  State.reset.spos = 0 ∧ State.reset.prot = false

/-- `rst` at any step: every register goes to its reset value; the memories are kept, but for those a running
command was writing (R340, R341). -/
def Obligations.ResetMove : Prop :=
  ∀ (s : State) (rest : List HostMove), s.uops = [] → s.host = .rst :: rest →
    ∃ t, step s = .next t ∧
      t = { State.reset with
        pixi := s.pixi, pixo := t.pixo, msg := s.msg, pwd := s.pwd, ext := t.ext, out := t.out
        params := s.params, host := rest, reads := s.reads, free := t.free } ∧
      (s.st = .idle → t.pixo = s.pixo ∧ t.ext = s.ext ∧ t.out = s.out) ∧
      (s.st.encoding = true →
        t.ext = s.ext ∧ t.out = s.out ∧ ∀ a, s.pixlen.toNat ≤ a → t.byteAt .pixo a = s.byteAt .pixo a) ∧
      (s.st.decoding = true → t.pixo = s.pixo)

/-! ### The invariant and the machine as a whole -/

/-- The invariant holds after reset. -/
def Obligations.InvariantHoldsAtReset : Prop := State.reset.Inv

/-- Every step, of the engine or of the outside, keeps the invariant: canonical memories in their address
spaces, a legal `STATUS`, and the registers each sequencer state expects. -/
def Obligations.InvariantIsKeptByEveryStep : Prop :=
  ∀ s t : State, s.Inv → step s = .next t → t.Inv

/-- No access of the engine is ever out of range (R69): in every state with the invariant its step answers a
next state, which has the invariant again. -/
def Obligations.EngineNeverStops : Prop :=
  ∀ s : State, s.Inv → ∃ t, engineStep s = .next t ∧ t.Inv

/-- Every command ends by itself (R221, R246, R278): from any state with the invariant, the engine left alone
reaches `IDLE`. -/
def Obligations.EveryCommandEnds : Prop :=
  ∀ s : State, s.Inv → s.host = [] → ∃ k t, run k s = .next t ∧ t.st = .idle

/-- Which memories a step of the engine may write (R67, R68, R75, R262): never the operands; `PIXO` only in
the Encoder's writing states; `EXT` only while the payload is read; `OUT` and `OUTLEN` only in the two
steps that end a `DECODE` with success. -/
def Obligations.EngineFootprint : Prop :=
  ∀ s t : State, engineStep s = .next t →
    t.pixlen = s.pixlen ∧ t.msglen = s.msglen ∧ t.pwdlen = s.pwdlen ∧ t.present = s.present ∧
    t.params = s.params ∧ t.host = s.host ∧ t.reads = s.reads ∧ t.uops = s.uops ∧
    (∀ a, t.byteAt .pixi a = s.byteAt .pixi a ∧ t.byteAt .msg a = s.byteAt .msg a ∧ t.byteAt .pwd a = s.byteAt .pwd a) ∧
    (s.st ≠ .eClone → s.st ≠ .eWrhdr → s.st ≠ .eWrpay → ∀ a, t.byteAt .pixo a = s.byteAt .pixo a) ∧
    (s.st ≠ .dRdpay → ∀ a, t.byteAt .ext a = s.byteAt .ext a) ∧
    (¬ ((s.st = .dRetplain ∨ s.st = .dRetmsg) ∧ t.st = .idle ∧ t.done = true ∧ t.err = .none) →
      t.outlen = s.outlen ∧ ∀ a, t.byteAt .out a = s.byteAt .out a)

/-- The host has no path to `EXT` (R41): while the engine is idle, the outside's moves go the same way and
leave the same, whatever `EXT` holds. -/
def Obligations.HostCannotSeeExt : Prop :=
  ∀ (s : State) (e : Memory) (mv : HostMove) (rest : List HostMove),
    s.st = .idle → s.uops = [] → s.host = mv :: rest →
    (∀ t, step s = .next t → step (s.setMem .ext e) = .next (t.setMem .ext e)) ∧
    (∀ f, step s = .fault f → step (s.setMem .ext e) = .fault f)

/-- `ENCODE` run step by step is the operation of R230 (R246, R247): the step count, and every register and
byte the host can see. -/
def Obligations.EncodeAgreesWithTheOperation : Prop :=
  ∀ s : State, Ready s → configCheck true s = none →
    ∃ t u, exec .encode s = .next t ∧ run (encodeSteps s) t = .next u ∧
      SameResult (encodeOp s) u ∧ (∀ a, u.byteAt .ext a = s.byteAt .ext a) ∧
      ∀ j < encodeSteps s, ∃ v, run j t = .next v ∧ v.st ≠ .idle

/-- `DECODE` run step by step is the operation of R260 (R278, R279). -/
def Obligations.DecodeAgreesWithTheOperation : Prop :=
  ∀ s : State, Ready s → configCheck false s = none →
    ∃ t u, exec .decode s = .next t ∧ run (decodeSteps s) t = .next u ∧ SameResult (decodeOp s) u ∧
      ∀ j < decodeSteps s, ∃ v, run j t = .next v ∧ v.st ≠ .idle

/-- The round trip without a password, on the machine (R214): a message that is not empty, fits and does not
start with `MARK` comes back, whatever password operand the `DECODE` is given. -/
def Obligations.PlainRoundTripOnTheMachine : Prop :=
  ∀ s : State, Ready s → configCheck true s = none → s.protectedVariant = false →
    1 ≤ s.msglen.toNat → startsWith s.message MARK = false → 32 + 8 * s.msglen.toNat ≤ s.cap →
    ∃ t k u, exec .encode s = .next t ∧ run k t = .next u ∧ u.st = .idle ∧ u.done = true ∧ u.err = .none ∧
      u.prot = false ∧
      ∀ v, Carried u v → ∃ w, Decodes v w ∧ w.err = .none ∧ w.outlen = s.msglen ∧ w.prot = false ∧
        ∀ i < s.msglen.toNat, w.byteAt .out i = s.byteAt .msg i

/-- The round trip with a password, on the machine (R214): when neither the password nor the message contains
`SEP` and the wrapped message fits, the same password gives the message back, no password gives
`PWD_REQUIRED`, any other one `PWD_INCORRECT`, and an error returns nothing. -/
def Obligations.ProtectedRoundTripOnTheMachine : Prop :=
  ∀ s : State, Ready s → configCheck true s = none → s.protectedVariant = true →
    occ (s.bytes .pwd 0 s.pwdlen.toNat) SEP = 0 → occ s.message SEP = 0 →
    32 + 8 * (s.msglen.toNat + s.pwdlen.toNat + 17) ≤ s.cap →
    ∃ t k u, exec .encode s = .next t ∧ run k t = .next u ∧ u.st = .idle ∧ u.done = true ∧ u.err = .none ∧
      u.prot = true ∧
      ∀ v, Carried u v → ∃ w, Decodes v w ∧ w.prot = true ∧
        (v.password = s.password →
          w.err = .none ∧ w.outlen = s.msglen ∧ ∀ i < s.msglen.toNat, w.byteAt .out i = s.byteAt .msg i) ∧
        (v.password = none → w.err = .authError ∧ w.sub = 1 ∧ w.outlen = 0 ∧ ∀ a, w.byteAt .out a = v.byteAt .out a) ∧
        (v.password ≠ none → v.password ≠ s.password →
          w.err = .authError ∧ w.sub = 2 ∧ w.outlen = 0 ∧ ∀ a, w.byteAt .out a = v.byteAt .out a)

/-- `DECODE` is a function of `PIXLEN`, of bit 0 of the channel-0 bytes of the frame's pixels (0 to `32 + n - 1`,
`n` the header, and no pixel when `CAP < 32`) and of the password operand, and of nothing else (R227, R267):
two ready states that agree on those reach `IDLE` after equally many steps and end alike. -/
def Obligations.DecodeDependsOnItsOperandsOnly : Prop :=
  ∀ s s' : State, Ready s → Ready s' → configCheck false s = none → configCheck false s' = none →
    s.pixlen = s'.pixlen → s.password = s'.password →
    (HDRW ≤ s.cap → ∀ k < s.cap, k < HDRW + readHeader s.pixels →
      (s.byteAt .pixi (4 * k)).getLsbD 0 = (s'.byteAt .pixi (4 * k)).getLsbD 0) →
    ∃ k t t' u u', exec .decode s = .next t ∧ exec .decode s' = .next t' ∧
      run k t = .next u ∧ run k t' = .next u' ∧ u.st = .idle ∧ u'.st = .idle ∧
      (∀ j < k, ∃ v v', run j t = .next v ∧ run j t' = .next v' ∧ v.st ≠ .idle ∧ v'.st ≠ .idle) ∧
      u.err = u'.err ∧ u.sub = u'.sub ∧ u.prot = u'.prot ∧ u.outlen = u'.outlen ∧
      ∀ i < u.outlen.toNat, u.byteAt .out i = u'.byteAt .out i

/-! ### Host scripts (30_encoding R106, R107) -/

/-- The host's own decisions change its list of moves and nothing else: by `ERR` of the `STATUS` last read, by
the count last read, by the bytes last read. (The moves are the model's, log 19.) -/
def Obligations.HostDecisionsChangeItsMovesOnly : Prop :=
  ∀ (s : State) (rest : List HostMove), s.uops = [] →
    (∀ count v vs, s.host = .ifOk count :: rest → s.reads = v :: vs →
      step s = .next { s with host := if v.extractLsb' 2 3 = 0#3 then rest else rest.drop count }) ∧
    (∀ m v vs, s.host = .dumpRead m :: rest → s.reads = v :: vs →
      step s = .next { s with host := scriptDump m 0 v.toNat ++ rest }) ∧
    (∀ m xs vs, s.host = .loadRead m xs.length :: rest → s.reads = readBack xs ++ vs →
      step s = .next { s with host := scriptLoad m 0 xs ++ rest })

/-- The scripts of `encode` and `decode` (R107), run to their end, give the host what the source's operations
answer: `STATUS`, and on success the bytes (of `decode` their number first); on an error nothing more. (The
moves, the values read and the decisions between the lines are the model's, logs 2, 3, 19.) -/
def Obligations.ScriptsReturnTheSourcesResults : Prop :=
  ∀ (s : State) (pixels : List Byte) (q : Option (List Byte)), s.Inv → s.st = .idle →
    pixels.length ≤ s.params.pixMax → (∀ p, q = some p → p.length ≤ s.params.pwdMax) →
    (∀ m : List Byte, m.length ≤ s.params.msgMax → s.host = scriptEncode pixels m q →
      ∃ k t, run k s = .next t ∧ t.host = [] ∧ t.st = .idle ∧
        (∀ r, sourceEncode pixels m q = .ok r →
          t.err = .none ∧ t.reads = readBack r ++ t.status :: s.reads) ∧
        (∀ e sub, sourceEncode pixels m q = .error (e, sub) →
          t.err = e ∧ t.sub = sub ∧ t.reads = t.status :: s.reads)) ∧
    (s.host = scriptDecode pixels q →
      ∃ k t, run k s = .next t ∧ t.host = [] ∧ t.st = .idle ∧
        (∀ x, sourceDecode pixels q = .ok x →
          t.err = .none ∧ t.reads = readBack x ++ BitVec.ofNat 32 x.length :: t.status :: s.reads) ∧
        (∀ e sub, sourceDecode pixels q = .error (e, sub) →
          t.err = e ∧ t.sub = sub ∧ t.reads = t.status :: s.reads))

/-- The script of `decode(encode(pixels, m, q), q')` (R107, R355), run to its end, gives the host the result of
the composition; an `encode` that fails ends it. (Moves, values read and decisions: logs 2, 3, 19.) -/
def Obligations.RoundTripScriptIsTheComposition : Prop :=
  ∀ (s : State) (pixels m : List Byte) (q q' : Option (List Byte)), s.Inv → s.st = .idle →
    pixels.length ≤ s.params.pixMax → m.length ≤ s.params.msgMax →
    (∀ p, q = some p ∨ q' = some p → p.length ≤ s.params.pwdMax) →
    s.host = scriptRoundTrip pixels m q q' →
    ∃ k t, run k s = .next t ∧ t.host = [] ∧ t.st = .idle ∧
      (∀ e sub, sourceEncode pixels m q = .error (e, sub) →
        t.err = e ∧ t.sub = sub ∧ t.reads = t.status :: s.reads) ∧
      (∀ r, sourceEncode pixels m q = .ok r →
        ∃ w : Word, statusErr w = 0 ∧
          (∀ x, sourceDecode r q' = .ok x →
            t.err = .none ∧
            t.reads = readBack x ++ BitVec.ofNat 32 x.length :: t.status :: (readBack r ++ w :: s.reads)) ∧
          (∀ e sub, sourceDecode r q' = .error (e, sub) →
            t.err = e ∧ t.sub = sub ∧ t.reads = t.status :: (readBack r ++ w :: s.reads)))
end

