-- ==== Sys2Proof/Laws/Bits.lean ====
section
/-! SUPPORT. Bits, bytes and numbers: small lemmas on the BitStream functions. -/

namespace Sys2Proof.Machine

theorem byteBits_length (x : Byte) : (byteBits x).length = 8 := by simp [byteBits]

/-- Element `r` of a byte's bits is bit `7 - r`. -/
theorem byteBits_get (x : Byte) (r : Nat) (h : r < 8) : (byteBits x)[r]? = some (x.getLsbD (7 - r)) := by
  simp [byteBits, h]

theorem bytesToBits_cons (x : Byte) (xs : List Byte) : bytesToBits (x :: xs) = byteBits x ++ bytesToBits xs := by
  simp [bytesToBits]

/-- One more bit at the end: the step of `U_HSI` on numbers. -/
theorem bitsToUint_snoc (s : List Bool) (b : Bool) : bitsToUint (s ++ [b]) = 2 * bitsToUint s + b.toNat := by
  induction s with
  | nil => simp [bitsToUint]
  | cons x s ih => simp only [List.cons_append, bitsToUint, ih, List.length_append, List.length_singleton, pow_succ]; ring

theorem bitsToUint_lt (s : List Bool) : bitsToUint s < 2 ^ s.length := by
  induction s with
  | nil => simp [bitsToUint]
  | cons x s ih => cases x <;> simp [bitsToUint, pow_succ] <;> omega

theorem uintToBits_length {w} (n : BitVec w) : (uintToBits n).length = w := by simp [uintToBits]

theorem uintToBits_get {w} (n : BitVec w) (i : Nat) (h : i < w) : (uintToBits n)[i]? = some (n.getLsbD (w - 1 - i)) := by
  simp [uintToBits, h]

/-- Bit `i` of the number is the element `i` from the end. -/
theorem bitsToUint_testBit (s : List Bool) (i : Nat) (h : i < s.length) :
    (bitsToUint s).testBit i = s.getD (s.length - 1 - i) false := by
  induction s using List.reverseRecOn generalizing i with
  | nil => simp at h
  | append_singleton s b ih =>
    rw [bitsToUint_snoc]
    simp only [List.length_append, List.length_singleton]
    cases i with
    | zero =>
      rw [show s.length + 1 - 1 - 0 = s.length by omega]
      cases b <;> simp [Nat.testBit_zero, List.getD_eq_getElem?_getD]
    | succ i =>
      have hl : i < s.length := by simp at h; omega
      rw [Nat.testBit_succ, show (2 * bitsToUint s + b.toNat) / 2 = bitsToUint s by cases b <;> simp; omega, ih i hl]
      rw [List.getD_append _ _ _ _ (by omega)]
      congr 1; omega

/-- `bitsToBytes` on a length that is a multiple of 8, byte by byte. -/
theorem bitsToBytes_some (s : List Bool) (h : s.length % 8 = 0) :
    ∃ xs, bitsToBytes s = some xs ∧ xs.length = s.length / 8 ∧
      ∀ q < s.length / 8, xs[q]? = some (BitVec.ofNat 8 (bitsToUint ((s.drop (8 * q)).take 8))) := by
  refine ⟨_, if_pos h, by simp, fun q hq => by simp [hq]⟩

/-- A bit after a shift to the left. -/
theorem getLsbD_shl {w : Nat} (x : BitVec w) (k i : Nat) (h : k ≤ i) (hi : i < w) :
    (x <<< k).getLsbD i = x.getLsbD (i - k) := by
  rw [BitVec.getLsbD_shiftLeft, decide_eq_true hi, decide_eq_false (by omega : ¬ i < k)]; rfl

end Sys2Proof.Machine
end

