-- ==== Sys2Proof/Laws/State.lean ====
section
/-! SUPPORT. One lemma per field per update of the state, true by unfolding the update once. No later
proof unfolds a record update. -/

namespace Sys2Proof.Machine

/-! ### `finish` -/

@[simp] theorem finish_pixlen (e : ErrKind) (sub : BitVec 3) (s : State) : (finish e sub s).pixlen = s.pixlen := rfl
@[simp] theorem finish_msglen (e : ErrKind) (sub : BitVec 3) (s : State) : (finish e sub s).msglen = s.msglen := rfl
@[simp] theorem finish_pwdlen (e : ErrKind) (sub : BitVec 3) (s : State) : (finish e sub s).pwdlen = s.pwdlen := rfl
@[simp] theorem finish_present (e : ErrKind) (sub : BitVec 3) (s : State) : (finish e sub s).present = s.present := rfl
@[simp] theorem finish_outlen (e : ErrKind) (sub : BitVec 3) (s : State) : (finish e sub s).outlen = s.outlen := rfl
@[simp] theorem finish_done (e : ErrKind) (sub : BitVec 3) (s : State) : (finish e sub s).done = true := rfl
@[simp] theorem finish_err (e : ErrKind) (sub : BitVec 3) (s : State) : (finish e sub s).err = e := rfl
@[simp] theorem finish_sub (e : ErrKind) (sub : BitVec 3) (s : State) : (finish e sub s).sub = sub := rfl
@[simp] theorem finish_n (e : ErrKind) (sub : BitVec 3) (s : State) : (finish e sub s).n = s.n := rfl
@[simp] theorem finish_hsr (e : ErrKind) (sub : BitVec 3) (s : State) : (finish e sub s).hsr = s.hsr := rfl
@[simp] theorem finish_idx (e : ErrKind) (sub : BitVec 3) (s : State) : (finish e sub s).idx = s.idx := rfl
@[simp] theorem finish_shr (e : ErrKind) (sub : BitVec 3) (s : State) : (finish e sub s).shr = s.shr := rfl
@[simp] theorem finish_bc (e : ErrKind) (sub : BitVec 3) (s : State) : (finish e sub s).bc = s.bc := rfl
@[simp] theorem finish_b (e : ErrKind) (sub : BitVec 3) (s : State) : (finish e sub s).b = s.b := rfl
@[simp] theorem finish_bp (e : ErrKind) (sub : BitVec 3) (s : State) : (finish e sub s).bp = s.bp := rfl
@[simp] theorem finish_paylen (e : ErrKind) (sub : BitVec 3) (s : State) : (finish e sub s).paylen = s.paylen := rfl
@[simp] theorem finish_extlen (e : ErrKind) (sub : BitVec 3) (s : State) : (finish e sub s).extlen = s.extlen := rfl
@[simp] theorem finish_spos (e : ErrKind) (sub : BitVec 3) (s : State) : (finish e sub s).spos = s.spos := rfl
@[simp] theorem finish_prot (e : ErrKind) (sub : BitVec 3) (s : State) : (finish e sub s).prot = s.prot := rfl
@[simp] theorem finish_st (e : ErrKind) (sub : BitVec 3) (s : State) : (finish e sub s).st = .idle := rfl
@[simp] theorem finish_pixi (e : ErrKind) (sub : BitVec 3) (s : State) : (finish e sub s).pixi = s.pixi := rfl
@[simp] theorem finish_pixo (e : ErrKind) (sub : BitVec 3) (s : State) : (finish e sub s).pixo = s.pixo := rfl
@[simp] theorem finish_msg (e : ErrKind) (sub : BitVec 3) (s : State) : (finish e sub s).msg = s.msg := rfl
@[simp] theorem finish_pwd (e : ErrKind) (sub : BitVec 3) (s : State) : (finish e sub s).pwd = s.pwd := rfl
@[simp] theorem finish_ext (e : ErrKind) (sub : BitVec 3) (s : State) : (finish e sub s).ext = s.ext := rfl
@[simp] theorem finish_out (e : ErrKind) (sub : BitVec 3) (s : State) : (finish e sub s).out = s.out := rfl
@[simp] theorem finish_params (e : ErrKind) (sub : BitVec 3) (s : State) : (finish e sub s).params = s.params := rfl
@[simp] theorem finish_host (e : ErrKind) (sub : BitVec 3) (s : State) : (finish e sub s).host = s.host := rfl
@[simp] theorem finish_reads (e : ErrKind) (sub : BitVec 3) (s : State) : (finish e sub s).reads = s.reads := rfl
@[simp] theorem finish_uops (e : ErrKind) (sub : BitVec 3) (s : State) : (finish e sub s).uops = s.uops := rfl
@[simp] theorem finish_free (e : ErrKind) (sub : BitVec 3) (s : State) : (finish e sub s).free = s.free := rfl
@[simp] theorem finish_mem (e : ErrKind) (sub : BitVec 3) (s : State) (m : MemName) : (finish e sub s).mem m = s.mem m := by cases m <;> rfl
@[simp] theorem finish_byteAt (e : ErrKind) (sub : BitVec 3) (s : State) (m : MemName) (a : Nat) : (finish e sub s).byteAt m a = s.byteAt m a := by cases m <;> rfl
@[simp] theorem finish_depth (e : ErrKind) (sub : BitVec 3) (s : State) (m : MemName) : (finish e sub s).depth m = s.depth m := by cases m <;> rfl

/-! ### `refuseCommand` -/

@[simp] theorem refuseCommand_pixlen (e : ErrKind) (sub : BitVec 3) (s : State) : (refuseCommand e sub s).pixlen = s.pixlen := rfl
@[simp] theorem refuseCommand_msglen (e : ErrKind) (sub : BitVec 3) (s : State) : (refuseCommand e sub s).msglen = s.msglen := rfl
@[simp] theorem refuseCommand_pwdlen (e : ErrKind) (sub : BitVec 3) (s : State) : (refuseCommand e sub s).pwdlen = s.pwdlen := rfl
@[simp] theorem refuseCommand_present (e : ErrKind) (sub : BitVec 3) (s : State) : (refuseCommand e sub s).present = s.present := rfl
@[simp] theorem refuseCommand_outlen (e : ErrKind) (sub : BitVec 3) (s : State) : (refuseCommand e sub s).outlen = s.outlen := rfl
@[simp] theorem refuseCommand_done (e : ErrKind) (sub : BitVec 3) (s : State) : (refuseCommand e sub s).done = true := rfl
@[simp] theorem refuseCommand_err (e : ErrKind) (sub : BitVec 3) (s : State) : (refuseCommand e sub s).err = e := rfl
@[simp] theorem refuseCommand_sub (e : ErrKind) (sub : BitVec 3) (s : State) : (refuseCommand e sub s).sub = sub := rfl
@[simp] theorem refuseCommand_n (e : ErrKind) (sub : BitVec 3) (s : State) : (refuseCommand e sub s).n = s.n := rfl
@[simp] theorem refuseCommand_hsr (e : ErrKind) (sub : BitVec 3) (s : State) : (refuseCommand e sub s).hsr = s.hsr := rfl
@[simp] theorem refuseCommand_idx (e : ErrKind) (sub : BitVec 3) (s : State) : (refuseCommand e sub s).idx = s.idx := rfl
@[simp] theorem refuseCommand_shr (e : ErrKind) (sub : BitVec 3) (s : State) : (refuseCommand e sub s).shr = s.shr := rfl
@[simp] theorem refuseCommand_bc (e : ErrKind) (sub : BitVec 3) (s : State) : (refuseCommand e sub s).bc = s.bc := rfl
@[simp] theorem refuseCommand_b (e : ErrKind) (sub : BitVec 3) (s : State) : (refuseCommand e sub s).b = s.b := rfl
@[simp] theorem refuseCommand_bp (e : ErrKind) (sub : BitVec 3) (s : State) : (refuseCommand e sub s).bp = s.bp := rfl
@[simp] theorem refuseCommand_paylen (e : ErrKind) (sub : BitVec 3) (s : State) : (refuseCommand e sub s).paylen = s.paylen := rfl
@[simp] theorem refuseCommand_extlen (e : ErrKind) (sub : BitVec 3) (s : State) : (refuseCommand e sub s).extlen = s.extlen := rfl
@[simp] theorem refuseCommand_spos (e : ErrKind) (sub : BitVec 3) (s : State) : (refuseCommand e sub s).spos = s.spos := rfl
@[simp] theorem refuseCommand_prot (e : ErrKind) (sub : BitVec 3) (s : State) : (refuseCommand e sub s).prot = false := rfl
@[simp] theorem refuseCommand_st (e : ErrKind) (sub : BitVec 3) (s : State) : (refuseCommand e sub s).st = s.st := rfl
@[simp] theorem refuseCommand_pixi (e : ErrKind) (sub : BitVec 3) (s : State) : (refuseCommand e sub s).pixi = s.pixi := rfl
@[simp] theorem refuseCommand_pixo (e : ErrKind) (sub : BitVec 3) (s : State) : (refuseCommand e sub s).pixo = s.pixo := rfl
@[simp] theorem refuseCommand_msg (e : ErrKind) (sub : BitVec 3) (s : State) : (refuseCommand e sub s).msg = s.msg := rfl
@[simp] theorem refuseCommand_pwd (e : ErrKind) (sub : BitVec 3) (s : State) : (refuseCommand e sub s).pwd = s.pwd := rfl
@[simp] theorem refuseCommand_ext (e : ErrKind) (sub : BitVec 3) (s : State) : (refuseCommand e sub s).ext = s.ext := rfl
@[simp] theorem refuseCommand_out (e : ErrKind) (sub : BitVec 3) (s : State) : (refuseCommand e sub s).out = s.out := rfl
@[simp] theorem refuseCommand_params (e : ErrKind) (sub : BitVec 3) (s : State) : (refuseCommand e sub s).params = s.params := rfl
@[simp] theorem refuseCommand_host (e : ErrKind) (sub : BitVec 3) (s : State) : (refuseCommand e sub s).host = s.host := rfl
@[simp] theorem refuseCommand_reads (e : ErrKind) (sub : BitVec 3) (s : State) : (refuseCommand e sub s).reads = s.reads := rfl
@[simp] theorem refuseCommand_uops (e : ErrKind) (sub : BitVec 3) (s : State) : (refuseCommand e sub s).uops = s.uops := rfl
@[simp] theorem refuseCommand_free (e : ErrKind) (sub : BitVec 3) (s : State) : (refuseCommand e sub s).free = s.free := rfl
@[simp] theorem refuseCommand_mem (e : ErrKind) (sub : BitVec 3) (s : State) (m : MemName) : (refuseCommand e sub s).mem m = s.mem m := by cases m <;> rfl
@[simp] theorem refuseCommand_byteAt (e : ErrKind) (sub : BitVec 3) (s : State) (m : MemName) (a : Nat) : (refuseCommand e sub s).byteAt m a = s.byteAt m a := by cases m <;> rfl
@[simp] theorem refuseCommand_depth (e : ErrKind) (sub : BitVec 3) (s : State) (m : MemName) : (refuseCommand e sub s).depth m = s.depth m := by cases m <;> rfl

/-! ### `acceptStatus` -/

@[simp] theorem acceptStatus_pixlen (s : State) : (acceptStatus s).pixlen = s.pixlen := rfl
@[simp] theorem acceptStatus_msglen (s : State) : (acceptStatus s).msglen = s.msglen := rfl
@[simp] theorem acceptStatus_pwdlen (s : State) : (acceptStatus s).pwdlen = s.pwdlen := rfl
@[simp] theorem acceptStatus_present (s : State) : (acceptStatus s).present = s.present := rfl
@[simp] theorem acceptStatus_outlen (s : State) : (acceptStatus s).outlen = s.outlen := rfl
@[simp] theorem acceptStatus_done (s : State) : (acceptStatus s).done = false := rfl
@[simp] theorem acceptStatus_err (s : State) : (acceptStatus s).err = .none := rfl
@[simp] theorem acceptStatus_sub (s : State) : (acceptStatus s).sub = 0 := rfl
@[simp] theorem acceptStatus_n (s : State) : (acceptStatus s).n = s.n := rfl
@[simp] theorem acceptStatus_hsr (s : State) : (acceptStatus s).hsr = s.hsr := rfl
@[simp] theorem acceptStatus_idx (s : State) : (acceptStatus s).idx = s.idx := rfl
@[simp] theorem acceptStatus_shr (s : State) : (acceptStatus s).shr = s.shr := rfl
@[simp] theorem acceptStatus_bc (s : State) : (acceptStatus s).bc = s.bc := rfl
@[simp] theorem acceptStatus_b (s : State) : (acceptStatus s).b = s.b := rfl
@[simp] theorem acceptStatus_bp (s : State) : (acceptStatus s).bp = s.bp := rfl
@[simp] theorem acceptStatus_paylen (s : State) : (acceptStatus s).paylen = s.paylen := rfl
@[simp] theorem acceptStatus_extlen (s : State) : (acceptStatus s).extlen = s.extlen := rfl
@[simp] theorem acceptStatus_spos (s : State) : (acceptStatus s).spos = s.spos := rfl
@[simp] theorem acceptStatus_prot (s : State) : (acceptStatus s).prot = false := rfl
@[simp] theorem acceptStatus_st (s : State) : (acceptStatus s).st = s.st := rfl
@[simp] theorem acceptStatus_pixi (s : State) : (acceptStatus s).pixi = s.pixi := rfl
@[simp] theorem acceptStatus_pixo (s : State) : (acceptStatus s).pixo = s.pixo := rfl
@[simp] theorem acceptStatus_msg (s : State) : (acceptStatus s).msg = s.msg := rfl
@[simp] theorem acceptStatus_pwd (s : State) : (acceptStatus s).pwd = s.pwd := rfl
@[simp] theorem acceptStatus_ext (s : State) : (acceptStatus s).ext = s.ext := rfl
@[simp] theorem acceptStatus_out (s : State) : (acceptStatus s).out = s.out := rfl
@[simp] theorem acceptStatus_params (s : State) : (acceptStatus s).params = s.params := rfl
@[simp] theorem acceptStatus_host (s : State) : (acceptStatus s).host = s.host := rfl
@[simp] theorem acceptStatus_reads (s : State) : (acceptStatus s).reads = s.reads := rfl
@[simp] theorem acceptStatus_uops (s : State) : (acceptStatus s).uops = s.uops := rfl
@[simp] theorem acceptStatus_free (s : State) : (acceptStatus s).free = s.free := rfl
@[simp] theorem acceptStatus_mem (s : State) (m : MemName) : (acceptStatus s).mem m = s.mem m := by cases m <;> rfl
@[simp] theorem acceptStatus_byteAt (s : State) (m : MemName) (a : Nat) : (acceptStatus s).byteAt m a = s.byteAt m a := by cases m <;> rfl
@[simp] theorem acceptStatus_depth (s : State) (m : MemName) : (acceptStatus s).depth m = s.depth m := by cases m <;> rfl

/-! ### `acceptEncode` -/

@[simp] theorem acceptEncode_pixlen (s : State) : (acceptEncode s).pixlen = s.pixlen := rfl
@[simp] theorem acceptEncode_msglen (s : State) : (acceptEncode s).msglen = s.msglen := rfl
@[simp] theorem acceptEncode_pwdlen (s : State) : (acceptEncode s).pwdlen = s.pwdlen := rfl
@[simp] theorem acceptEncode_present (s : State) : (acceptEncode s).present = s.present := rfl
@[simp] theorem acceptEncode_outlen (s : State) : (acceptEncode s).outlen = s.outlen := rfl
@[simp] theorem acceptEncode_done (s : State) : (acceptEncode s).done = false := rfl
@[simp] theorem acceptEncode_err (s : State) : (acceptEncode s).err = .none := rfl
@[simp] theorem acceptEncode_sub (s : State) : (acceptEncode s).sub = 0 := rfl
@[simp] theorem acceptEncode_n (s : State) : (acceptEncode s).n = s.n := rfl
@[simp] theorem acceptEncode_hsr (s : State) : (acceptEncode s).hsr = s.hsr := rfl
@[simp] theorem acceptEncode_idx (s : State) : (acceptEncode s).idx = s.idx := rfl
@[simp] theorem acceptEncode_shr (s : State) : (acceptEncode s).shr = s.shr := rfl
@[simp] theorem acceptEncode_bc (s : State) : (acceptEncode s).bc = s.bc := rfl
@[simp] theorem acceptEncode_b (s : State) : (acceptEncode s).b = s.b := rfl
@[simp] theorem acceptEncode_bp (s : State) : (acceptEncode s).bp = s.bp := rfl
@[simp] theorem acceptEncode_paylen (s : State) : (acceptEncode s).paylen = s.paylen := rfl
@[simp] theorem acceptEncode_extlen (s : State) : (acceptEncode s).extlen = s.extlen := rfl
@[simp] theorem acceptEncode_spos (s : State) : (acceptEncode s).spos = s.spos := rfl
@[simp] theorem acceptEncode_prot (s : State) : (acceptEncode s).prot = false := rfl
@[simp] theorem acceptEncode_st (s : State) : (acceptEncode s).st = .eBuild := rfl
@[simp] theorem acceptEncode_pixi (s : State) : (acceptEncode s).pixi = s.pixi := rfl
@[simp] theorem acceptEncode_pixo (s : State) : (acceptEncode s).pixo = s.pixo := rfl
@[simp] theorem acceptEncode_msg (s : State) : (acceptEncode s).msg = s.msg := rfl
@[simp] theorem acceptEncode_pwd (s : State) : (acceptEncode s).pwd = s.pwd := rfl
@[simp] theorem acceptEncode_ext (s : State) : (acceptEncode s).ext = s.ext := rfl
@[simp] theorem acceptEncode_out (s : State) : (acceptEncode s).out = s.out := rfl
@[simp] theorem acceptEncode_params (s : State) : (acceptEncode s).params = s.params := rfl
@[simp] theorem acceptEncode_host (s : State) : (acceptEncode s).host = s.host := rfl
@[simp] theorem acceptEncode_reads (s : State) : (acceptEncode s).reads = s.reads := rfl
@[simp] theorem acceptEncode_uops (s : State) : (acceptEncode s).uops = s.uops := rfl
@[simp] theorem acceptEncode_free (s : State) : (acceptEncode s).free = s.free := rfl
@[simp] theorem acceptEncode_mem (s : State) (m : MemName) : (acceptEncode s).mem m = s.mem m := by cases m <;> rfl
@[simp] theorem acceptEncode_byteAt (s : State) (m : MemName) (a : Nat) : (acceptEncode s).byteAt m a = s.byteAt m a := by cases m <;> rfl
@[simp] theorem acceptEncode_depth (s : State) (m : MemName) : (acceptEncode s).depth m = s.depth m := by cases m <;> rfl

/-! ### `acceptDecode` -/

@[simp] theorem acceptDecode_pixlen (s : State) : (acceptDecode s).pixlen = s.pixlen := rfl
@[simp] theorem acceptDecode_msglen (s : State) : (acceptDecode s).msglen = s.msglen := rfl
@[simp] theorem acceptDecode_pwdlen (s : State) : (acceptDecode s).pwdlen = s.pwdlen := rfl
@[simp] theorem acceptDecode_present (s : State) : (acceptDecode s).present = s.present := rfl
@[simp] theorem acceptDecode_outlen (s : State) : (acceptDecode s).outlen = 0 := rfl
@[simp] theorem acceptDecode_done (s : State) : (acceptDecode s).done = false := rfl
@[simp] theorem acceptDecode_err (s : State) : (acceptDecode s).err = .none := rfl
@[simp] theorem acceptDecode_sub (s : State) : (acceptDecode s).sub = 0 := rfl
@[simp] theorem acceptDecode_n (s : State) : (acceptDecode s).n = s.n := rfl
@[simp] theorem acceptDecode_hsr (s : State) : (acceptDecode s).hsr = 0 := rfl
@[simp] theorem acceptDecode_idx (s : State) : (acceptDecode s).idx = 0 := rfl
@[simp] theorem acceptDecode_shr (s : State) : (acceptDecode s).shr = s.shr := rfl
@[simp] theorem acceptDecode_bc (s : State) : (acceptDecode s).bc = s.bc := rfl
@[simp] theorem acceptDecode_b (s : State) : (acceptDecode s).b = s.b := rfl
@[simp] theorem acceptDecode_bp (s : State) : (acceptDecode s).bp = s.bp := rfl
@[simp] theorem acceptDecode_paylen (s : State) : (acceptDecode s).paylen = s.paylen := rfl
@[simp] theorem acceptDecode_extlen (s : State) : (acceptDecode s).extlen = s.extlen := rfl
@[simp] theorem acceptDecode_spos (s : State) : (acceptDecode s).spos = s.spos := rfl
@[simp] theorem acceptDecode_prot (s : State) : (acceptDecode s).prot = false := rfl
@[simp] theorem acceptDecode_st (s : State) : (acceptDecode s).st = .dRdhdr := rfl
@[simp] theorem acceptDecode_pixi (s : State) : (acceptDecode s).pixi = s.pixi := rfl
@[simp] theorem acceptDecode_pixo (s : State) : (acceptDecode s).pixo = s.pixo := rfl
@[simp] theorem acceptDecode_msg (s : State) : (acceptDecode s).msg = s.msg := rfl
@[simp] theorem acceptDecode_pwd (s : State) : (acceptDecode s).pwd = s.pwd := rfl
@[simp] theorem acceptDecode_ext (s : State) : (acceptDecode s).ext = s.ext := rfl
@[simp] theorem acceptDecode_out (s : State) : (acceptDecode s).out = s.out := rfl
@[simp] theorem acceptDecode_params (s : State) : (acceptDecode s).params = s.params := rfl
@[simp] theorem acceptDecode_host (s : State) : (acceptDecode s).host = s.host := rfl
@[simp] theorem acceptDecode_reads (s : State) : (acceptDecode s).reads = s.reads := rfl
@[simp] theorem acceptDecode_uops (s : State) : (acceptDecode s).uops = s.uops := rfl
@[simp] theorem acceptDecode_free (s : State) : (acceptDecode s).free = s.free + 1 := rfl
@[simp] theorem acceptDecode_mem (s : State) (m : MemName) : (acceptDecode s).mem m = s.mem m := by cases m <;> rfl
@[simp] theorem acceptDecode_byteAt (s : State) (m : MemName) (a : Nat) : (acceptDecode s).byteAt m a = s.byteAt m a := by cases m <;> rfl
@[simp] theorem acceptDecode_depth (s : State) (m : MemName) : (acceptDecode s).depth m = s.depth m := by cases m <;> rfl

/-! ### `observe` -/

@[simp] theorem observe_pixlen (v : Word) (s : State) : (observe v s).pixlen = s.pixlen := rfl
@[simp] theorem observe_msglen (v : Word) (s : State) : (observe v s).msglen = s.msglen := rfl
@[simp] theorem observe_pwdlen (v : Word) (s : State) : (observe v s).pwdlen = s.pwdlen := rfl
@[simp] theorem observe_present (v : Word) (s : State) : (observe v s).present = s.present := rfl
@[simp] theorem observe_outlen (v : Word) (s : State) : (observe v s).outlen = s.outlen := rfl
@[simp] theorem observe_done (v : Word) (s : State) : (observe v s).done = s.done := rfl
@[simp] theorem observe_err (v : Word) (s : State) : (observe v s).err = s.err := rfl
@[simp] theorem observe_sub (v : Word) (s : State) : (observe v s).sub = s.sub := rfl
@[simp] theorem observe_n (v : Word) (s : State) : (observe v s).n = s.n := rfl
@[simp] theorem observe_hsr (v : Word) (s : State) : (observe v s).hsr = s.hsr := rfl
@[simp] theorem observe_idx (v : Word) (s : State) : (observe v s).idx = s.idx := rfl
@[simp] theorem observe_shr (v : Word) (s : State) : (observe v s).shr = s.shr := rfl
@[simp] theorem observe_bc (v : Word) (s : State) : (observe v s).bc = s.bc := rfl
@[simp] theorem observe_b (v : Word) (s : State) : (observe v s).b = s.b := rfl
@[simp] theorem observe_bp (v : Word) (s : State) : (observe v s).bp = s.bp := rfl
@[simp] theorem observe_paylen (v : Word) (s : State) : (observe v s).paylen = s.paylen := rfl
@[simp] theorem observe_extlen (v : Word) (s : State) : (observe v s).extlen = s.extlen := rfl
@[simp] theorem observe_spos (v : Word) (s : State) : (observe v s).spos = s.spos := rfl
@[simp] theorem observe_prot (v : Word) (s : State) : (observe v s).prot = s.prot := rfl
@[simp] theorem observe_st (v : Word) (s : State) : (observe v s).st = s.st := rfl
@[simp] theorem observe_pixi (v : Word) (s : State) : (observe v s).pixi = s.pixi := rfl
@[simp] theorem observe_pixo (v : Word) (s : State) : (observe v s).pixo = s.pixo := rfl
@[simp] theorem observe_msg (v : Word) (s : State) : (observe v s).msg = s.msg := rfl
@[simp] theorem observe_pwd (v : Word) (s : State) : (observe v s).pwd = s.pwd := rfl
@[simp] theorem observe_ext (v : Word) (s : State) : (observe v s).ext = s.ext := rfl
@[simp] theorem observe_out (v : Word) (s : State) : (observe v s).out = s.out := rfl
@[simp] theorem observe_params (v : Word) (s : State) : (observe v s).params = s.params := rfl
@[simp] theorem observe_host (v : Word) (s : State) : (observe v s).host = s.host := rfl
@[simp] theorem observe_reads (v : Word) (s : State) : (observe v s).reads = v :: s.reads := rfl
@[simp] theorem observe_uops (v : Word) (s : State) : (observe v s).uops = s.uops := rfl
@[simp] theorem observe_free (v : Word) (s : State) : (observe v s).free = s.free := rfl
@[simp] theorem observe_mem (v : Word) (s : State) (m : MemName) : (observe v s).mem m = s.mem m := by cases m <;> rfl
@[simp] theorem observe_byteAt (v : Word) (s : State) (m : MemName) (a : Nat) : (observe v s).byteAt m a = s.byteAt m a := by cases m <;> rfl
@[simp] theorem observe_depth (v : Word) (s : State) (m : MemName) : (observe v s).depth m = s.depth m := by cases m <;> rfl

/-! ### `bumpIdx` -/

/-- The counter in a state where it fits, which is every state a run reaches (R22). -/
theorem bumpIdx_of_lt (s : State) (h : s.idx.toNat + 1 < 2 ^ 32) : bumpIdx s = { s with idx := s.idx + 1 } := if_pos h
@[simp] theorem bumpIdx_pixlen (s : State) : (bumpIdx s).pixlen = s.pixlen := by unfold bumpIdx; split <;> rfl
@[simp] theorem bumpIdx_msglen (s : State) : (bumpIdx s).msglen = s.msglen := by unfold bumpIdx; split <;> rfl
@[simp] theorem bumpIdx_pwdlen (s : State) : (bumpIdx s).pwdlen = s.pwdlen := by unfold bumpIdx; split <;> rfl
@[simp] theorem bumpIdx_present (s : State) : (bumpIdx s).present = s.present := by unfold bumpIdx; split <;> rfl
@[simp] theorem bumpIdx_outlen (s : State) : (bumpIdx s).outlen = s.outlen := by unfold bumpIdx; split <;> rfl
@[simp] theorem bumpIdx_done (s : State) : (bumpIdx s).done = s.done := by unfold bumpIdx; split <;> rfl
@[simp] theorem bumpIdx_err (s : State) : (bumpIdx s).err = s.err := by unfold bumpIdx; split <;> rfl
@[simp] theorem bumpIdx_sub (s : State) : (bumpIdx s).sub = s.sub := by unfold bumpIdx; split <;> rfl
@[simp] theorem bumpIdx_n (s : State) : (bumpIdx s).n = s.n := by unfold bumpIdx; split <;> rfl
@[simp] theorem bumpIdx_hsr (s : State) : (bumpIdx s).hsr = s.hsr := by unfold bumpIdx; split <;> rfl
@[simp] theorem bumpIdx_shr (s : State) : (bumpIdx s).shr = s.shr := by unfold bumpIdx; split <;> rfl
@[simp] theorem bumpIdx_bc (s : State) : (bumpIdx s).bc = s.bc := by unfold bumpIdx; split <;> rfl
@[simp] theorem bumpIdx_b (s : State) : (bumpIdx s).b = s.b := by unfold bumpIdx; split <;> rfl
@[simp] theorem bumpIdx_bp (s : State) : (bumpIdx s).bp = s.bp := by unfold bumpIdx; split <;> rfl
@[simp] theorem bumpIdx_paylen (s : State) : (bumpIdx s).paylen = s.paylen := by unfold bumpIdx; split <;> rfl
@[simp] theorem bumpIdx_extlen (s : State) : (bumpIdx s).extlen = s.extlen := by unfold bumpIdx; split <;> rfl
@[simp] theorem bumpIdx_spos (s : State) : (bumpIdx s).spos = s.spos := by unfold bumpIdx; split <;> rfl
@[simp] theorem bumpIdx_prot (s : State) : (bumpIdx s).prot = s.prot := by unfold bumpIdx; split <;> rfl
@[simp] theorem bumpIdx_st (s : State) : (bumpIdx s).st = s.st := by unfold bumpIdx; split <;> rfl
@[simp] theorem bumpIdx_pixi (s : State) : (bumpIdx s).pixi = s.pixi := by unfold bumpIdx; split <;> rfl
@[simp] theorem bumpIdx_pixo (s : State) : (bumpIdx s).pixo = s.pixo := by unfold bumpIdx; split <;> rfl
@[simp] theorem bumpIdx_msg (s : State) : (bumpIdx s).msg = s.msg := by unfold bumpIdx; split <;> rfl
@[simp] theorem bumpIdx_pwd (s : State) : (bumpIdx s).pwd = s.pwd := by unfold bumpIdx; split <;> rfl
@[simp] theorem bumpIdx_ext (s : State) : (bumpIdx s).ext = s.ext := by unfold bumpIdx; split <;> rfl
@[simp] theorem bumpIdx_out (s : State) : (bumpIdx s).out = s.out := by unfold bumpIdx; split <;> rfl
@[simp] theorem bumpIdx_params (s : State) : (bumpIdx s).params = s.params := by unfold bumpIdx; split <;> rfl
@[simp] theorem bumpIdx_host (s : State) : (bumpIdx s).host = s.host := by unfold bumpIdx; split <;> rfl
@[simp] theorem bumpIdx_reads (s : State) : (bumpIdx s).reads = s.reads := by unfold bumpIdx; split <;> rfl
@[simp] theorem bumpIdx_uops (s : State) : (bumpIdx s).uops = s.uops := by unfold bumpIdx; split <;> rfl
@[simp] theorem bumpIdx_mem (s : State) (m : MemName) : (bumpIdx s).mem m = s.mem m := by cases m <;> simp [State.mem]
@[simp] theorem bumpIdx_byteAt (s : State) (m : MemName) (a : Nat) : (bumpIdx s).byteAt m a = s.byteAt m a := by simp [State.byteAt]
@[simp] theorem bumpIdx_depth (s : State) (m : MemName) : (bumpIdx s).depth m = s.depth m := by cases m <;> simp [State.depth]

/-! ### `bumpBp` -/

/-- The counter in a state where it fits, which is every state a run reaches (R22). -/
theorem bumpBp_of_lt (s : State) (h : s.bp.toNat + 1 < 2 ^ 32) : bumpBp s = { s with bp := s.bp + 1 } := if_pos h
@[simp] theorem bumpBp_pixlen (s : State) : (bumpBp s).pixlen = s.pixlen := by unfold bumpBp; split <;> rfl
@[simp] theorem bumpBp_msglen (s : State) : (bumpBp s).msglen = s.msglen := by unfold bumpBp; split <;> rfl
@[simp] theorem bumpBp_pwdlen (s : State) : (bumpBp s).pwdlen = s.pwdlen := by unfold bumpBp; split <;> rfl
@[simp] theorem bumpBp_present (s : State) : (bumpBp s).present = s.present := by unfold bumpBp; split <;> rfl
@[simp] theorem bumpBp_outlen (s : State) : (bumpBp s).outlen = s.outlen := by unfold bumpBp; split <;> rfl
@[simp] theorem bumpBp_done (s : State) : (bumpBp s).done = s.done := by unfold bumpBp; split <;> rfl
@[simp] theorem bumpBp_err (s : State) : (bumpBp s).err = s.err := by unfold bumpBp; split <;> rfl
@[simp] theorem bumpBp_sub (s : State) : (bumpBp s).sub = s.sub := by unfold bumpBp; split <;> rfl
@[simp] theorem bumpBp_n (s : State) : (bumpBp s).n = s.n := by unfold bumpBp; split <;> rfl
@[simp] theorem bumpBp_hsr (s : State) : (bumpBp s).hsr = s.hsr := by unfold bumpBp; split <;> rfl
@[simp] theorem bumpBp_idx (s : State) : (bumpBp s).idx = s.idx := by unfold bumpBp; split <;> rfl
@[simp] theorem bumpBp_shr (s : State) : (bumpBp s).shr = s.shr := by unfold bumpBp; split <;> rfl
@[simp] theorem bumpBp_bc (s : State) : (bumpBp s).bc = s.bc := by unfold bumpBp; split <;> rfl
@[simp] theorem bumpBp_b (s : State) : (bumpBp s).b = s.b := by unfold bumpBp; split <;> rfl
@[simp] theorem bumpBp_paylen (s : State) : (bumpBp s).paylen = s.paylen := by unfold bumpBp; split <;> rfl
@[simp] theorem bumpBp_extlen (s : State) : (bumpBp s).extlen = s.extlen := by unfold bumpBp; split <;> rfl
@[simp] theorem bumpBp_spos (s : State) : (bumpBp s).spos = s.spos := by unfold bumpBp; split <;> rfl
@[simp] theorem bumpBp_prot (s : State) : (bumpBp s).prot = s.prot := by unfold bumpBp; split <;> rfl
@[simp] theorem bumpBp_st (s : State) : (bumpBp s).st = s.st := by unfold bumpBp; split <;> rfl
@[simp] theorem bumpBp_pixi (s : State) : (bumpBp s).pixi = s.pixi := by unfold bumpBp; split <;> rfl
@[simp] theorem bumpBp_pixo (s : State) : (bumpBp s).pixo = s.pixo := by unfold bumpBp; split <;> rfl
@[simp] theorem bumpBp_msg (s : State) : (bumpBp s).msg = s.msg := by unfold bumpBp; split <;> rfl
@[simp] theorem bumpBp_pwd (s : State) : (bumpBp s).pwd = s.pwd := by unfold bumpBp; split <;> rfl
@[simp] theorem bumpBp_ext (s : State) : (bumpBp s).ext = s.ext := by unfold bumpBp; split <;> rfl
@[simp] theorem bumpBp_out (s : State) : (bumpBp s).out = s.out := by unfold bumpBp; split <;> rfl
@[simp] theorem bumpBp_params (s : State) : (bumpBp s).params = s.params := by unfold bumpBp; split <;> rfl
@[simp] theorem bumpBp_host (s : State) : (bumpBp s).host = s.host := by unfold bumpBp; split <;> rfl
@[simp] theorem bumpBp_reads (s : State) : (bumpBp s).reads = s.reads := by unfold bumpBp; split <;> rfl
@[simp] theorem bumpBp_uops (s : State) : (bumpBp s).uops = s.uops := by unfold bumpBp; split <;> rfl
@[simp] theorem bumpBp_mem (s : State) (m : MemName) : (bumpBp s).mem m = s.mem m := by cases m <;> simp [State.mem]
@[simp] theorem bumpBp_byteAt (s : State) (m : MemName) (a : Nat) : (bumpBp s).byteAt m a = s.byteAt m a := by simp [State.byteAt]
@[simp] theorem bumpBp_depth (s : State) (m : MemName) : (bumpBp s).depth m = s.depth m := by cases m <;> simp [State.depth]

/-! ### `setMem` -/

@[simp] theorem setMem_pixlen (s : State) (k : MemName) (x : Memory) : (s.setMem k x).pixlen = s.pixlen := by cases k <;> rfl
@[simp] theorem setMem_msglen (s : State) (k : MemName) (x : Memory) : (s.setMem k x).msglen = s.msglen := by cases k <;> rfl
@[simp] theorem setMem_pwdlen (s : State) (k : MemName) (x : Memory) : (s.setMem k x).pwdlen = s.pwdlen := by cases k <;> rfl
@[simp] theorem setMem_present (s : State) (k : MemName) (x : Memory) : (s.setMem k x).present = s.present := by cases k <;> rfl
@[simp] theorem setMem_outlen (s : State) (k : MemName) (x : Memory) : (s.setMem k x).outlen = s.outlen := by cases k <;> rfl
@[simp] theorem setMem_done (s : State) (k : MemName) (x : Memory) : (s.setMem k x).done = s.done := by cases k <;> rfl
@[simp] theorem setMem_err (s : State) (k : MemName) (x : Memory) : (s.setMem k x).err = s.err := by cases k <;> rfl
@[simp] theorem setMem_sub (s : State) (k : MemName) (x : Memory) : (s.setMem k x).sub = s.sub := by cases k <;> rfl
@[simp] theorem setMem_n (s : State) (k : MemName) (x : Memory) : (s.setMem k x).n = s.n := by cases k <;> rfl
@[simp] theorem setMem_hsr (s : State) (k : MemName) (x : Memory) : (s.setMem k x).hsr = s.hsr := by cases k <;> rfl
@[simp] theorem setMem_idx (s : State) (k : MemName) (x : Memory) : (s.setMem k x).idx = s.idx := by cases k <;> rfl
@[simp] theorem setMem_shr (s : State) (k : MemName) (x : Memory) : (s.setMem k x).shr = s.shr := by cases k <;> rfl
@[simp] theorem setMem_bc (s : State) (k : MemName) (x : Memory) : (s.setMem k x).bc = s.bc := by cases k <;> rfl
@[simp] theorem setMem_b (s : State) (k : MemName) (x : Memory) : (s.setMem k x).b = s.b := by cases k <;> rfl
@[simp] theorem setMem_bp (s : State) (k : MemName) (x : Memory) : (s.setMem k x).bp = s.bp := by cases k <;> rfl
@[simp] theorem setMem_paylen (s : State) (k : MemName) (x : Memory) : (s.setMem k x).paylen = s.paylen := by cases k <;> rfl
@[simp] theorem setMem_extlen (s : State) (k : MemName) (x : Memory) : (s.setMem k x).extlen = s.extlen := by cases k <;> rfl
@[simp] theorem setMem_spos (s : State) (k : MemName) (x : Memory) : (s.setMem k x).spos = s.spos := by cases k <;> rfl
@[simp] theorem setMem_prot (s : State) (k : MemName) (x : Memory) : (s.setMem k x).prot = s.prot := by cases k <;> rfl
@[simp] theorem setMem_st (s : State) (k : MemName) (x : Memory) : (s.setMem k x).st = s.st := by cases k <;> rfl
@[simp] theorem setMem_params (s : State) (k : MemName) (x : Memory) : (s.setMem k x).params = s.params := by cases k <;> rfl
@[simp] theorem setMem_host (s : State) (k : MemName) (x : Memory) : (s.setMem k x).host = s.host := by cases k <;> rfl
@[simp] theorem setMem_reads (s : State) (k : MemName) (x : Memory) : (s.setMem k x).reads = s.reads := by cases k <;> rfl
@[simp] theorem setMem_uops (s : State) (k : MemName) (x : Memory) : (s.setMem k x).uops = s.uops := by cases k <;> rfl
@[simp] theorem setMem_free (s : State) (k : MemName) (x : Memory) : (s.setMem k x).free = s.free := by cases k <;> rfl

/-- Replacing a memory replaces that one alone. -/
@[simp] theorem setMem_mem (s : State) (k m : MemName) (x : Memory) :
    (s.setMem k x).mem m = if m = k then x else s.mem m := by cases k <;> cases m <;> rfl

@[simp] theorem setMem_depth (s : State) (k m : MemName) (x : Memory) : (s.setMem k x).depth m = s.depth m := by
  cases m <;> simp [State.depth]

/-! ### `writeReg` -/

/-- A write of a register reaches the four operand registers only. -/
theorem writeReg_frame (s : State) (r : Nat) (v : Word) :
    s.writeReg r v = { s with
      pixlen := (s.writeReg r v).pixlen, msglen := (s.writeReg r v).msglen,
      pwdlen := (s.writeReg r v).pwdlen, present := (s.writeReg r v).present } := by
  unfold State.writeReg; split <;> rfl

end Sys2Proof.Machine
end

