-- ==== Sys2Proof/Laws/Memory.lean ====
section
/-! SUPPORT. The memories: read after write, the canonical form and the address space are kept; and what
the shared operations can answer. -/

namespace Sys2Proof.Machine

/-! ### The list of cells -/

/-- Read after write on the list of cells. -/
@[simp] theorem lookup_insertCell (cells : List Host.Cell) (a b : Nat) (v : Byte) :
    lookup (insertCell cells a v) b = if a = b then some v else lookup cells b := by
  induction cells with
  | nil => simp [insertCell, lookup]
  | cons c rest ih =>
    obtain ⟨k, w⟩ := c
    unfold insertCell
    split
    · simp [lookup]
    · split
      · next h => subst h; by_cases hb : a = b <;> simp [lookup, hb]
      · next h =>
        simp only [lookup, ih]
        by_cases hk : k = b
        · subst hk; simp [h]
        · simp [hk]

/-- The addresses of a list after an insertion. -/
theorem mem_insertCell {cells : List Host.Cell} {a : Nat} {v : Byte} {c : Host.Cell}
    (h : c ∈ insertCell cells a v) : c = (a, v) ∨ c ∈ cells := by
  induction cells with
  | nil => simpa [insertCell] using h
  | cons d rest ih =>
    obtain ⟨k, w⟩ := d
    unfold insertCell at h
    split at h
    · simpa using h
    · split at h
      · rcases List.mem_cons.1 h with h | h
        · exact .inl h
        · exact .inr (List.mem_cons_of_mem _ h)
      · rcases List.mem_cons.1 h with h | h
        · exact .inr (h ▸ List.mem_cons_self)
        · rcases ih h with h | h
          · exact .inl h
          · exact .inr (List.mem_cons_of_mem _ h)

/-- An insertion keeps the addresses strictly rising. -/
theorem insertCell_rising {cells : List Host.Cell} (a : Nat) (v : Byte)
    (h : cells.Pairwise (fun x y => x.1 < y.1)) :
    (insertCell cells a v).Pairwise (fun x y => x.1 < y.1) := by
  induction cells with
  | nil => simp [insertCell]
  | cons c rest ih =>
    obtain ⟨k, w⟩ := c
    obtain ⟨hk, hr⟩ := List.pairwise_cons.1 h
    unfold insertCell
    split
    · next hlt =>
      refine List.pairwise_cons.2 ⟨fun x hx => ?_, h⟩
      rcases List.mem_cons.1 hx with rfl | hx
      · exact hlt
      · exact Nat.lt_trans hlt (hk x hx)
    · split
      · next heq => exact List.pairwise_cons.2 ⟨fun x hx => heq ▸ hk x hx, hr⟩
      · next hlt hne =>
        refine List.pairwise_cons.2 ⟨fun x hx => ?_, ih hr⟩
        rcases mem_insertCell hx with rfl | hx
        · show k < a; omega
        · exact hk x hx

/-- Read after the write of a run of bytes. -/
@[simp] theorem lookup_insertCells (cells : List Host.Cell) (a b : Nat) (vs : List Byte) :
    lookup (insertCells cells a vs) b =
      if a ≤ b ∧ b < a + vs.length then some (vs.getD (b - a) 0) else lookup cells b := by
  induction vs generalizing cells a with
  | nil => simp [insertCells]
  | cons v rest ih =>
    rw [insertCells, ih, lookup_insertCell]
    simp only [List.length_cons]
    by_cases h1 : a + 1 ≤ b ∧ b < a + 1 + rest.length
    · rw [if_pos h1, if_pos (by omega), show b - a = (b - (a + 1)) + 1 by omega, List.getD_cons_succ]
    · rw [if_neg h1]
      by_cases h2 : a = b
      · rw [if_pos h2, if_pos (by omega), show b - a = 0 by omega, List.getD_cons_zero]
      · rw [if_neg h2, if_neg (by omega)]

theorem insertCells_rising {cells : List Host.Cell} (a : Nat) (vs : List Byte)
    (h : cells.Pairwise (fun x y => x.1 < y.1)) :
    (insertCells cells a vs).Pairwise (fun x y => x.1 < y.1) := by
  induction vs generalizing cells a with
  | nil => exact h
  | cons v rest ih => exact ih (a + 1) (insertCell_rising a v h)

theorem mem_insertCells {cells : List Host.Cell} {a : Nat} {vs : List Byte} {c : Host.Cell}
    (h : c ∈ insertCells cells a vs) : c.1 < a + vs.length ∨ c ∈ cells := by
  induction vs generalizing cells a with
  | nil => exact .inr h
  | cons v rest ih =>
    rcases ih h with h | h
    · left; simp only [List.length_cons]; omega
    · rcases mem_insertCell h with rfl | h
      · left; simp
      · exact .inr h

/-! ### Memories -/

/-- Every write keeps the canonical form. -/
theorem Memory.write_wf {m : Memory} (a : Nat) (v : Byte) (h : m.wf) : (m.write a v).wf :=
  insertCell_rising a v h

theorem Memory.writeList_wf {m : Memory} (a : Nat) (vs : List Byte) (h : m.wf) : (m.writeList a vs).wf :=
  insertCells_rising a vs h

theorem Memory.powerUp_wf : Memory.powerUp.wf := List.Pairwise.nil

/-- Read after write. -/
@[simp] theorem Memory.read_write (k : MemName) (m : Memory) (a b : Nat) (v : Byte) :
    (m.write a v).read k b = if a = b then v else m.read k b := by
  unfold Memory.read Memory.write
  simp only [lookup_insertCell]
  by_cases h : a = b <;> simp [h]

@[simp] theorem Memory.read_writeList (k : MemName) (m : Memory) (a b : Nat) (vs : List Byte) :
    (m.writeList a vs).read k b = if a ≤ b ∧ b < a + vs.length then vs.getD (b - a) 0 else m.read k b := by
  unfold Memory.read Memory.writeList
  simp only [lookup_insertCells]
  by_cases h : a ≤ b ∧ b < a + vs.length <;> simp [h]

/-- A byte after a memory is replaced. -/
@[simp] theorem setMem_byteAt (s : State) (k m : MemName) (x : Memory) (a : Nat) :
    (s.setMem k x).byteAt m a = if m = k then x.read m a else s.byteAt m a := by
  unfold State.byteAt
  rw [setMem_mem]
  split <;> rfl

/-! ### Byte sequences -/

@[simp] theorem bytes_length (s : State) (m : MemName) (a len : Nat) : (s.bytes m a len).length = len := by
  simp [State.bytes]

@[simp] theorem bytes_getElem (s : State) (m : MemName) (a len i : Nat) (h : i < (s.bytes m a len).length) :
    (s.bytes m a len)[i] = s.byteAt m (a + i) := by
  simp [State.bytes]

theorem bytes_getD (s : State) (m : MemName) (a len i : Nat) (h : i < len) (d : Byte) :
    (s.bytes m a len).getD i d = s.byteAt m (a + i) := by
  rw [List.getD_eq_getElem?_getD, List.getElem?_eq_getElem (by simpa using h), Option.getD_some, bytes_getElem]

/-- Two states with the same bytes have the same byte sequence. -/
theorem bytes_congr {s t : State} {m k : MemName} {a b len : Nat}
    (h : ∀ i < len, s.byteAt m (a + i) = t.byteAt k (b + i)) : s.bytes m a len = t.bytes k b len := by
  unfold State.bytes
  exact List.map_congr_left fun i hi => h i (List.mem_range.1 hi)

/-! ### What the shared operations answer -/

@[simp] theorem andThen_next (s : State) (f : State → Result) : andThen (.next s) f = f s := rfl
@[simp] theorem andThen_fault (e : Fault) (f : State → Result) : andThen (.fault e) f = .fault e := rfl
@[simp] theorem andThen_refused (e : Refusal) (f : State → Result) : andThen (.refused e) f = .refused e := rfl

/-- A sequence answers a next state exactly when both parts do. -/
theorem andThen_eq_next {r : Result} {f : State → Result} {t : State} :
    andThen r f = .next t ↔ ∃ u, r = .next u ∧ f u = .next t := by
  cases r <;> simp

/-- A byte read answers next only at an address of the memory. -/
theorem readByte_eq_next {m : MemName} {a : Nat} {s t : State} {k : Byte → Result} :
    readByte m a s k = .next t ↔ a < s.depth m ∧ k (s.byteAt m a) = .next t := by
  unfold readByte; split <;> simp_all

theorem readByte_of_lt {m : MemName} {a : Nat} {s : State} (h : a < s.depth m) (k : Byte → Result) :
    readByte m a s k = k (s.byteAt m a) := if_pos h

theorem readFirst_eq_next {m : MemName} {len : Nat} {s t : State} {k : List Byte → Result} :
    readFirst m len s k = .next t ↔ len ≤ s.depth m ∧ k (s.bytes m 0 len) = .next t := by
  unfold readFirst; split <;> simp_all

theorem readFirst_of_le {m : MemName} {len : Nat} {s : State} (h : len ≤ s.depth m) (k : List Byte → Result) :
    readFirst m len s k = k (s.bytes m 0 len) := if_pos h

/-- A byte store answers next only at an address of the memory, and replaces that byte. -/
theorem storeByte_eq_next {m : MemName} {a : Nat} {v : Byte} {s t : State} :
    storeByte m a v s = .next t ↔ a < s.depth m ∧ t = s.setMem m ((s.mem m).write a v) := by
  unfold storeByte; split <;> simp_all [eq_comm]

theorem storeByte_of_lt {m : MemName} {a : Nat} {v : Byte} {s : State} (h : a < s.depth m) :
    storeByte m a v s = .next (s.setMem m ((s.mem m).write a v)) := if_pos h

theorem storeFirst_eq_next {m : MemName} {vs : List Byte} {s t : State} :
    storeFirst m vs s = .next t ↔ vs.length ≤ s.depth m ∧ t = s.setMem m ((s.mem m).writeList 0 vs) := by
  unfold storeFirst; split <;> simp_all [eq_comm]

theorem storeFirst_of_le {m : MemName} {vs : List Byte} {s : State} (h : vs.length ≤ s.depth m) :
    storeFirst m vs s = .next (s.setMem m ((s.mem m).writeList 0 vs)) := if_pos h

/-! At an address that does not exist the answer is the fault (log 11). -/

theorem readByte_of_le {m : MemName} {a : Nat} {s : State} (h : s.depth m ≤ a) (k : Byte → Result) :
    readByte m a s k = .fault (.noSuchAddress m) := if_neg (Nat.not_lt.2 h)

theorem readFirst_of_lt {m : MemName} {len : Nat} {s : State} (h : s.depth m < len) (k : List Byte → Result) :
    readFirst m len s k = .fault (.noSuchAddress m) := if_neg (Nat.not_le.2 h)

theorem storeByte_of_le {m : MemName} {a : Nat} {v : Byte} {s : State} (h : s.depth m ≤ a) :
    storeByte m a v s = .fault (.noSuchAddress m) := if_neg (Nat.not_lt.2 h)

theorem storeFirst_of_lt {m : MemName} {vs : List Byte} {s : State} (h : s.depth m < vs.length) :
    storeFirst m vs s = .fault (.noSuchAddress m) := if_neg (Nat.not_le.2 h)

/-- A byte after one byte of a memory is written. -/
theorem write_byteAt (s : State) (k m : MemName) (a b : Nat) (v : Byte) :
    (s.setMem k ((s.mem k).write b v)).byteAt m a = if m = k ∧ a = b then v else s.byteAt m a := by
  rw [setMem_byteAt]
  by_cases h : m = k
  · subst h; simp only [Memory.read_write, true_and, ↓reduceIte, eq_comm]; rfl
  · simp [h]

/-- A byte after the first bytes of a memory are written. -/
theorem writeList_byteAt (s : State) (k m : MemName) (a : Nat) (vs : List Byte) :
    (s.setMem k ((s.mem k).writeList 0 vs)).byteAt m a =
      if m = k ∧ a < vs.length then vs.getD a 0 else s.byteAt m a := by
  rw [setMem_byteAt]
  by_cases h : m = k
  · subst h; simp only [Memory.read_writeList, true_and, ↓reduceIte, Nat.zero_le, Nat.zero_add, Nat.sub_zero]; rfl
  · simp [h]

/-- Counting `IDX` up changes `IDX` alone, and the free counter where the sum does not fit (log 8). -/
theorem bumpIdx_eq (s : State) :
    ∃ p f, bumpIdx s = { s with idx := p, free := f } ∧ (s.idx.toNat + 1 < 2 ^ 32 → p.toNat = s.idx.toNat + 1) := by
  unfold bumpIdx
  split
  · next h => exact ⟨_, _, rfl, fun _ => by rw [BitVec.toNat_add]; exact Nat.mod_eq_of_lt h⟩
  · next h => exact ⟨_, _, rfl, fun h' => absurd h' h⟩

/-- Counting `BP` up, likewise. -/
theorem bumpBp_eq (s : State) :
    ∃ p f, bumpBp s = { s with bp := p, free := f } ∧ (s.bp.toNat + 1 < 2 ^ 32 → p.toNat = s.bp.toNat + 1) := by
  unfold bumpBp
  split
  · next h => exact ⟨_, _, rfl, fun _ => by rw [BitVec.toNat_add]; exact Nat.mod_eq_of_lt h⟩
  · next h => exact ⟨_, _, rfl, fun h' => absurd h' h⟩

end Sys2Proof.Machine
end

