-- ==== Sys2Proof/Laws/Exec.lean ====
section
/-! SUPPORT. What each micro-operation answers, said once: the next state under the condition on which
it answers one, and that it answers none otherwise. -/

namespace Sys2Proof.Machine

/-! ### Dispatch: `exec` unfolded, one lemma per arm -/

@[simp] theorem exec_uNone (s : State) : exec .uNone s = .next s := rfl
@[simp] theorem exec_uSho (s : State) :
    exec .uSho s = .next { s with b := s.shr.getLsbD 7, shr := s.shr <<< 1, bc := s.bc + 1 } := rfl
@[simp] theorem exec_uShi (s : State) :
    exec .uShi s = .next { s with shr := (s.shr <<< 1) ||| bitByte s.b, bc := s.bc + 1 } := rfl
@[simp] theorem exec_uHld (s : State) : exec .uHld s = .next { s with hsr := s.n } := rfl
@[simp] theorem exec_uHso (s : State) :
    exec .uHso s = .next { s with b := s.hsr.getLsbD 31, hsr := s.hsr <<< 1 } := rfl
@[simp] theorem exec_uHsi (s : State) :
    exec .uHsi s = .next { s with hsr := (s.hsr <<< 1) ||| (if s.b then 1 else 0) } := rfl

/-! ### The LSB cell -/

/-- `U_EMB` at a pixel that exists. -/
theorem exec_uEmb_of_lt (s : State) (h : EA s.idx.toNat < s.params.pixMax) :
    exec .uEmb s = .next (bumpIdx (s.setMem .pixo
      (s.pixo.write (EA s.idx.toNat) (setLSB (s.byteAt .pixo (EA s.idx.toNat)) s.b)))) := by
  simp only [exec, execUEmb]
  rw [readByte_of_lt (show _ < s.depth .pixo from h), storeByte_of_lt (show _ < s.depth .pixo from h), andThen_next]
  rfl

/-- `U_EMB` answers a next state only at a pixel that exists, and then that one. -/
theorem exec_uEmb_eq_next (s t : State) :
    exec .uEmb s = .next t ↔ EA s.idx.toNat < s.params.pixMax ∧
      t = bumpIdx (s.setMem .pixo (s.pixo.write (EA s.idx.toNat) (setLSB (s.byteAt .pixo (EA s.idx.toNat)) s.b))) := by
  by_cases h : EA s.idx.toNat < s.params.pixMax
  · rw [exec_uEmb_of_lt s h]; simp [h, eq_comm]
  · simp [exec, execUEmb, readByte, State.depth, h]

/-- `U_EXT` at a pixel that exists. -/
theorem exec_uExt_of_lt (s : State) (h : EA s.idx.toNat < s.params.pixMax) :
    exec .uExt s = .next (bumpIdx { s with b := lsb (s.byteAt .pixi (EA s.idx.toNat)) }) := by
  simp only [exec, execUExt]
  rw [readByte_of_lt (show _ < s.depth .pixi from h)]

/-- `U_EXT` answers a next state only at a pixel that exists, and then that one. -/
theorem exec_uExt_eq_next (s t : State) :
    exec .uExt s = .next t ↔ EA s.idx.toNat < s.params.pixMax ∧
      t = bumpIdx { s with b := lsb (s.byteAt .pixi (EA s.idx.toNat)) } := by
  by_cases h : EA s.idx.toNat < s.params.pixMax
  · rw [exec_uExt_of_lt s h]; simp [h, eq_comm]
  · simp [exec, execUExt, readByte, State.depth, h]

/-- `U_CLN` of a buffer that fits its memory. -/
theorem exec_uCln_of_le (s : State) (h : s.pixlen.toNat ≤ s.params.pixMax) :
    exec .uCln s = .next (s.setMem .pixo (s.pixo.writeList 0 (s.bytes .pixi 0 s.pixlen.toNat))) := by
  simp only [exec, execUCln]
  rw [readFirst_of_le (show _ ≤ s.depth .pixi from h),
    storeFirst_of_le (show _ ≤ s.depth .pixo by rw [bytes_length]; exact h)]
  rfl

/-- `U_CLN` answers a next state only for a buffer that fits its memory, and then that one. -/
theorem exec_uCln_eq_next (s t : State) :
    exec .uCln s = .next t ↔ s.pixlen.toNat ≤ s.params.pixMax ∧
      t = s.setMem .pixo (s.pixo.writeList 0 (s.bytes .pixi 0 s.pixlen.toNat)) := by
  by_cases h : s.pixlen.toNat ≤ s.params.pixMax
  · rw [exec_uCln_of_le s h]; simp [h, eq_comm]
  · simp [exec, execUCln, readFirst, State.depth, h]

/-! ### The packer's store and the shifter's load -/

/-- `U_STB` at an address that exists. -/
theorem exec_uStb_of_lt (s : State) (h : s.bp.toNat < s.params.extMax) :
    exec .uStb s = .next (bumpBp (s.setMem .ext (s.ext.write s.bp.toNat s.shr))) := by
  simp only [exec, execUStb]
  rw [storeByte_of_lt (show _ < s.depth .ext from h), andThen_next]
  rfl

/-- `U_STB` answers a next state only at an address that exists, and then that one. -/
theorem exec_uStb_eq_next (s t : State) :
    exec .uStb s = .next t ↔ s.bp.toNat < s.params.extMax ∧
      t = bumpBp (s.setMem .ext (s.ext.write s.bp.toNat s.shr)) := by
  by_cases h : s.bp.toNat < s.params.extMax
  · rw [exec_uStb_of_lt s h]; simp [h, eq_comm]
  · simp [exec, execUStb, storeByte, State.depth, h]

theorem MARK_length : MARK.length = 11 := rfl
theorem SEP_length : SEP.length = 6 := rfl

/-- The multiplexer's byte sequence has the length R202 gives. -/
@[simp] theorem muxPayload_length (s : State) : s.muxPayload.length = s.payloadLength s.prot := by
  unfold State.muxPayload State.payloadLength State.message
  cases s.prot
  · simp
  · simp [MARK_length, SEP_length]; omega

/-- `U_LDB` inside the multiplexer's domain loads byte `BP` of the payload, if the operands' lengths
are within the depths of their memories. -/
theorem exec_uLdb_of_lt (s : State) (hk : s.bp.toNat < s.payloadLength s.prot)
    (hm : s.msglen.toNat ≤ s.params.msgMax) (hp : s.prot = true → s.pwdlen.toNat ≤ s.params.pwdMax) :
    exec .uLdb s = .next (bumpBp { s with shr := s.muxPayload.getD s.bp.toNat 0 }) := by
  simp only [exec, execULdb, State.paySource, State.muxPayload, State.message]
  rw [if_neg (by omega)]
  revert hk
  unfold State.payloadLength
  cases hprot : s.prot with
  | false =>
    intro hk
    simp only [Bool.false_eq_true, ↓reduceIte] at hk ⊢
    rw [readByte_of_lt (by simp only [State.depth]; omega), bytes_getD _ _ _ _ _ hk, Nat.zero_add]
  | true =>
    intro hk
    have hp := hp hprot
    simp only [↓reduceIte] at hk ⊢
    have hl1 : (MARK ++ s.bytes .pwd 0 s.pwdlen.toNat ++ SEP).length = 17 + s.pwdlen.toNat := by
      simp [MARK_length, SEP_length]; omega
    have hl2 : (MARK ++ s.bytes .pwd 0 s.pwdlen.toNat).length = 11 + s.pwdlen.toNat := by
      simp [MARK_length]
    by_cases h1 : s.bp.toNat ≤ 10
    · rw [if_pos h1, List.append_assoc, List.append_assoc, List.getD_append _ _ _ _ (by rw [MARK_length]; omega)]
    · rw [if_neg h1]
      by_cases h2 : s.bp.toNat ≤ 10 + s.pwdlen.toNat
      · rw [if_pos h2]
        simp only []
        rw [readByte_of_lt (by simp only [State.depth]; omega), List.getD_append _ _ _ _ (by rw [hl1]; omega),
          List.getD_append _ _ _ _ (by rw [hl2]; omega), List.getD_append_right _ _ _ _ (by rw [MARK_length]; omega),
          MARK_length, bytes_getD _ _ _ _ _ (by omega), Nat.zero_add]
      · rw [if_neg h2]
        by_cases h3 : s.bp.toNat ≤ 16 + s.pwdlen.toNat
        · rw [if_pos h3, List.getD_append _ _ _ _ (by rw [hl1]; omega),
            List.getD_append_right _ _ _ _ (by rw [hl2]; omega), hl2, show s.bp.toNat - (11 + s.pwdlen.toNat) = s.bp.toNat - 11 - s.pwdlen.toNat by omega]
        · rw [if_neg h3]
          simp only []
          rw [readByte_of_lt (by simp only [State.depth]; omega), List.getD_append_right _ _ _ _ (by rw [hl1]; omega), hl1,
            bytes_getD _ _ _ _ _ (by omega), Nat.zero_add, show s.bp.toNat - (17 + s.pwdlen.toNat) = s.bp.toNat - 17 - s.pwdlen.toNat by omega]

/-- `U_LDB` outside the domain: some byte is loaded. -/
theorem exec_uLdb_undefined (s : State) (hk : s.payloadLength s.prot ≤ s.bp.toNat) :
    exec .uLdb s = .next (bumpBp { s with shr := Config.freeByte s.free, free := s.free + 1 }) := by
  simp only [exec, execULdb, State.paySource]
  rw [if_pos hk]

end Sys2Proof.Machine
end

