-- ==== Sys2Proof/Laws/Sequencer.lean ====
section
/-! SUPPORT. One lemma per step rule: the next state of the step, in full, when the addresses it uses exist. -/

namespace Sys2Proof.Machine

/-! ### Arithmetic of the registers (R9, R22) -/

theorem cap_lt (s : State) : s.cap < 2 ^ 30 := by
  unfold State.cap BPP; have := s.pixlen.isLt; omega

theorem cap_le (s : State) : 4 * s.cap ≤ s.pixlen.toNat := by
  unfold State.cap BPP; omega

theorem payloadLength_lt (s : State) (p : Bool) : s.payloadLength p < 2 ^ 34 := by
  unfold State.payloadLength; have := s.msglen.isLt; have := s.pwdlen.isLt; split <;> omega

theorem toNat_succ_of_lt (x : Word) (h : x.toNat + 1 < 2 ^ 32) : (x + 1).toNat = x.toNat + 1 := by
  bv_omega

theorem toNat_ofNat_of_lt {w n : Nat} (h : n < 2 ^ w) : (BitVec.ofNat w n).toNat = n := by
  rw [BitVec.toNat_ofNat, Nat.mod_eq_of_lt h]

/-- What the configuration check passing says (R224). -/
theorem configCheck_eq_none (e : Bool) (s : State) :
    configCheck e s = none ↔ s.pixlen.toNat ≤ s.params.pixMax ∧ (e = true → s.msglen.toNat ≤ s.params.msgMax) ∧
      (s.present = true → s.pwdlen.toNat ≤ s.params.pwdMax) := by
  unfold configCheck
  by_cases h1 : s.params.pixMax < s.pixlen.toNat
  · simp [h1]
  · by_cases h2 : s.params.msgMax < s.msglen.toNat <;> by_cases h3 : s.params.pwdMax < s.pwdlen.toNat <;>
      cases e <;> cases s.present <;> simp [h1, h2, h3] <;> omega

theorem Params.pixMax_lt {p : Params} (h : p.wellFormed = true) : p.pixMax < 2 ^ 32 := by
  simp [Params.wellFormed] at h; omega

/-- R8's constraint on `EXTMAX`: a payload that fits a buffer fits `EXT`. -/
theorem Params.le_extMax {p : Params} (h : p.wellFormed = true) {pixlen n : Nat} (hp : pixlen ≤ p.pixMax)
    (hf : HDRW + 8 * n ≤ pixlen / 4) : n ≤ p.extMax := by
  simp only [Params.wellFormed, Params.extMin, Bool.and_eq_true, decide_eq_true_eq] at h
  unfold HDRW at hf
  obtain ⟨-, h⟩ := h
  split at h
  · have := of_decide_eq_true h
    omega
  · omega

/-- The address of a pixel of the buffer (R163). -/
theorem EA_lt_pixMax {s : State} (hp : s.pixlen.toNat ≤ s.params.pixMax) {k : Nat} (hk : k < s.cap) :
    EA k < s.params.pixMax := by
  have := cap_le s; unfold EA BPP; omega

theorem prot_pwd_le {s : State} {e : Bool} (h : configCheck e s = none) (hb : s.prot = s.protectedVariant)
    (hp : s.prot = true) : s.pwdlen.toNat ≤ s.params.pwdMax := by
  rw [configCheck_eq_none] at h
  rw [hb] at hp
  simp [State.protectedVariant] at hp
  exact h.2.2 hp.1

/-! ### The Encoder's steps -/

theorem stepEBuild_eq (s : State) :
    stepEBuild s = .next { s with
      prot := s.protectedVariant
      paylen := BitVec.ofNat 34 (s.payloadLength s.protectedVariant)
      st := .eChkcap } := rfl

theorem stepEChkcap_eq (s : State) :
    stepEChkcap s =
      if HDRW + 8 * s.paylen.toNat ≤ s.cap then
        .next { s with n := BitVec.ofNat 32 (8 * s.paylen.toNat), st := .eClone }
      else .next (finish .capacityError subCapExceeded s) := by
  simp [stepEChkcap, fits]

theorem stepEClone_eq (s : State) (h : s.pixlen.toNat ≤ s.params.pixMax) :
    stepEClone s = .next { s with
      pixo := s.pixo.writeList 0 (s.bytes .pixi 0 s.pixlen.toNat), hsr := s.n, idx := 0, st := .eWrhdr } := by
  rw [stepEClone, exec_uCln_of_le s h]
  rfl

/-- The write of one frame bit to pixel `IDX`. -/
def embedBit (v : Bool) (s : State) : State :=
  { s with b := v, pixo := s.pixo.write (EA s.idx.toNat) (setLSB (s.byteAt .pixo (EA s.idx.toNat)) v), idx := s.idx + 1 }

theorem stepEWrhdr_eq (s : State) (h : EA s.idx.toNat < s.params.pixMax) (hi : s.idx.toNat + 1 < 2 ^ 32) :
    stepEWrhdr s =
      let t := { embedBit (s.hsr.getLsbD 31) s with hsr := s.hsr <<< 1 }
      if s.idx.toNat + 1 = HDRW then
        if s.n = 0 then .next (finish .none 0 { t with bp := 0, bc := 0 })
        else .next { t with bp := 0, bc := 0, st := .eWrpay }
      else .next { t with st := .eWrhdr } := by
  rw [stepEWrhdr, exec_uHso, andThen_next, exec_uEmb_of_lt _ (by exact h), andThen_next,
    bumpIdx_of_lt _ (by simpa using hi)]
  simp only [setMem_idx, toNat_succ_of_lt s.idx hi]
  rfl

/-- The Encoder's payload step, given the shift register it shifts from. -/
theorem stepEWrpay_eq (s u : State) (hu : (if s.bc = 0 then exec .uLdb s else .next s) = .next u)
    (h : EA u.idx.toNat < u.params.pixMax) (hi : u.idx.toNat + 1 < 2 ^ 32) :
    stepEWrpay s =
      let t := { embedBit (u.shr.getLsbD 7) u with shr := u.shr <<< 1, bc := u.bc + 1 }
      if u.idx.toNat + 1 = HDRW + u.n.toNat then .next (finish .none 0 t) else .next { t with st := .eWrpay } := by
  rw [stepEWrpay, hu, andThen_next, exec_uSho, andThen_next, exec_uEmb_of_lt _ (by exact h), andThen_next,
    bumpIdx_of_lt _ (by simpa using hi)]
  simp only [setMem_idx, toNat_succ_of_lt u.idx hi, setMem_n]
  rfl

/-! ### The Decoder's steps -/

theorem stepDRdhdr_small (s : State) (h : s.cap < HDRW) :
    stepDRdhdr s = .next (finish .formatError subLenRange s) := if_pos h

/-- The read of the frame bit of pixel `IDX`. -/
def extractBit (s : State) : State :=
  { s with b := lsb (s.byteAt .pixi (EA s.idx.toNat)), idx := s.idx + 1 }

theorem stepDRdhdr_eq (s : State) (hc : HDRW ≤ s.cap) (h : EA s.idx.toNat < s.params.pixMax)
    (hi : s.idx.toNat + 1 < 2 ^ 32) :
    stepDRdhdr s =
      let t := { extractBit s with
        hsr := (s.hsr <<< 1) ||| (if lsb (s.byteAt .pixi (EA s.idx.toNat)) then 1 else 0) }
      if s.idx.toNat + 1 = HDRW then .next { t with st := .dValhdr } else .next { t with st := .dRdhdr } := by
  rw [stepDRdhdr, if_neg (by omega), exec_uExt_of_lt _ h, andThen_next, bumpIdx_of_lt _ (by simpa using hi)]
  simp only [exec_uHsi, andThen_next, toNat_succ_of_lt s.idx hi]
  rfl

theorem stepDValhdr_eq (s : State) :
    stepDValhdr s =
      let t := { s with n := s.hsr }
      if s.hsr = 0 then .next (finish .formatError subLenZero t)
      else if s.cap < HDRW + s.hsr.toNat then .next (finish .formatError subLenRange t)
      else if s.hsr.toNat % 8 ≠ 0 then .next (finish .formatError subLenAlign t)
      else .next { t with bp := 0, bc := 0, shr := 0, st := .dRdpay } := by
  simp only [stepDValhdr, exec_uNone, andThen_next]
  change (if s.hsr = 0 then _ else if (!fits s.hsr.toNat s.cap) = true then _ else _) = _
  have hfits : (!fits s.hsr.toNat s.cap) = decide (s.cap < HDRW + s.hsr.toNat) := by
    unfold fits
    by_cases h : s.cap < HDRW + s.hsr.toNat
    · simp [h, Nat.not_le.2 h]
    · simp [h, Nat.not_lt.1 h]
  simp only [hfits, decide_eq_true_eq]

/-- The Decoder's payload step while the byte is not complete. -/
theorem stepDRdpay_eq_of_ne (s : State) (h : EA s.idx.toNat < s.params.pixMax) (hi : s.idx.toNat + 1 < 2 ^ 32)
    (hb : s.bc + 1 ≠ 0) :
    stepDRdpay s =
      let t := { extractBit s with
        shr := (s.shr <<< 1) ||| bitByte (lsb (s.byteAt .pixi (EA s.idx.toNat))), bc := s.bc + 1 }
      if s.idx.toNat + 1 = HDRW + s.n.toNat then .next { t with extlen := s.bp, st := .dDetprot }
      else .next { t with st := .dRdpay } := by
  rw [stepDRdpay, exec_uExt_of_lt _ h, andThen_next, bumpIdx_of_lt _ (by simpa using hi)]
  simp only [exec_uShi, andThen_next, toNat_succ_of_lt s.idx hi, if_neg hb]
  rfl

/-- The Decoder's payload step that completes a byte. -/
theorem stepDRdpay_eq_of_eq (s : State) (h : EA s.idx.toNat < s.params.pixMax) (hi : s.idx.toNat + 1 < 2 ^ 32)
    (hb : s.bc + 1 = 0) (he : s.bp.toNat < s.params.extMax) (hp : s.bp.toNat + 1 < 2 ^ 32) :
    stepDRdpay s =
      let x := (s.shr <<< 1) ||| bitByte (lsb (s.byteAt .pixi (EA s.idx.toNat)))
      let t := { extractBit s with shr := x, bc := 0, ext := s.ext.write s.bp.toNat x, bp := s.bp + 1 }
      if s.idx.toNat + 1 = HDRW + s.n.toNat then .next { t with extlen := s.bp + 1, st := .dDetprot }
      else .next { t with st := .dRdpay } := by
  rw [stepDRdpay, exec_uExt_of_lt _ h, andThen_next, bumpIdx_of_lt _ (by simpa using hi)]
  simp only [exec_uShi, andThen_next, hb, ↓reduceIte]
  rw [exec_uStb_of_lt _ (by exact he), andThen_next, bumpBp_of_lt _ (by simpa using hp)]
  simp only [setMem_idx, setMem_bp, setMem_n, toNat_succ_of_lt s.idx hi]
  rfl

theorem stepDDetprot_eq (s : State) (he : 11 ≤ s.extlen.toNat → 11 ≤ s.params.extMax) :
    stepDDetprot s =
      if 11 ≤ s.extlen.toNat ∧ s.bytes .ext 0 11 = MARK then .next { s with prot := true, st := .dValpwd }
      else .next { s with st := .dRetplain } := by
  simp only [stepDDetprot, exec_uNone, andThen_next]
  by_cases h : 11 ≤ s.extlen.toNat
  · rw [if_pos h, readFirst_of_le (show _ ≤ s.depth .ext from he h)]
    simp [h]
  · simp [h]

theorem stepDRetplain_eq (s : State) (he : s.extlen.toNat ≤ s.params.extMax) :
    stepDRetplain s = .next (finish .none 0 { s with
      out := s.out.writeList 0 (s.bytes .ext 0 s.extlen.toNat), outlen := s.extlen }) := by
  simp only [stepDRetplain, exec_uNone, andThen_next]
  rw [readFirst_of_le (show _ ≤ s.depth .ext from he),
    storeFirst_of_le (show _ ≤ s.depth .out by rw [bytes_length]; exact he), andThen_next]
  rfl

/-- The Decoder's password step: the tests of R276 in order. -/
theorem stepDValpwd_eq (s : State) (he : s.extlen.toNat ≤ s.params.extMax)
    (hp : s.present = true → s.pwdlen.toNat ≤ s.params.pwdMax) :
    stepDValpwd s =
      match occurrences (s.bytes .ext 0 s.extlen.toNat) SEP with
      | [p] =>
        if s.present = false then .next (finish .authError subPwdRequired s)
        else if p < 11 ∨ s.pwdlen.toNat ≠ p - 11 ∨
            s.bytes .pwd 0 s.pwdlen.toNat ≠ ((s.bytes .ext 0 s.extlen.toNat).drop 11).take s.pwdlen.toNat then
          .next (finish .authError subPwdIncorrect s)
        else .next { s with spos := BitVec.ofNat 32 p, st := .dRetmsg }
      | _ => .next (finish .formatError subSepCount s) := by
  simp only [stepDValpwd, exec_uNone, andThen_next]
  rw [readFirst_of_le (show _ ≤ s.depth .ext from he)]
  generalize occurrences (s.bytes .ext 0 s.extlen.toNat) SEP = places
  rcases places with _ | ⟨p, _ | ⟨q, rest⟩⟩
  · rfl
  · cases hpr : s.present
    · simp
    · simp only [Bool.not_true, Bool.false_eq_true, ↓reduceIte]
      rw [readFirst_of_le (show _ ≤ s.depth .pwd from hp hpr)]
      simp only [Bool.true_eq_false, ↓reduceIte]
      by_cases h1 : p < 11 ∨ s.pwdlen.toNat ≠ p - 11
      · rw [if_pos h1, if_pos (by tauto)]
      · rw [if_neg h1]
        split
        · rw [if_pos (by tauto)]
        · rw [if_neg (by tauto)]
  · rfl

theorem stepDRetmsg_eq (s : State) (he : s.extlen.toNat ≤ s.params.extMax)
    (hs : s.spos.toNat + 6 ≤ s.extlen.toNat) :
    stepDRetmsg s = .next (finish .none 0 { s with
      out := s.out.writeList 0 ((s.bytes .ext 0 s.extlen.toNat).drop (s.spos.toNat + 6))
      outlen := s.extlen - s.spos - 6 }) := by
  simp only [stepDRetmsg, exec_uNone, andThen_next]
  rw [readFirst_of_le (show _ ≤ s.depth .ext from he),
    storeFirst_of_le (show _ ≤ s.depth .out by simp only [List.length_drop, bytes_length, State.depth]; omega), andThen_next]
  simp only [setMessageLength, setMem_spos, setMem_extlen, if_pos hs]
  rfl

end Sys2Proof.Machine
end

