-- ==== Sys2Proof/Laws/Operation.lean ====
section
/-! SUPPORT. The operation level case by case, so that no proof has to unfold `readFrame` or `unwrap` of a whole
buffer: cite these with the outcome as a hypothesis. -/

namespace Sys2Proof.Machine

/-- An operation fails or answers. Use this and not a case split on the term: the elaborator would try to compute
a frame read from a whole buffer. -/
theorem except_cases {α : Type} (r : Except Ending α) : (∃ e sub, r = .error (e, sub)) ∨ ∃ x, r = .ok x := by
  cases r with
  | error e => exact .inl ⟨e.1, e.2, rfl⟩
  | ok x => exact .inr ⟨x, rfl⟩

theorem capacity_pixels (s : State) : capacity s.pixels = s.cap := by
  unfold capacity State.cap State.pixels; rw [bytes_length]

theorem message_length (s : State) : s.message.length = s.msglen.toNat := bytes_length _ _ _ _

/-! ### `readFrame` (R188) -/

theorem readFrame_small {b : List Byte} (h : capacity b < HDRW) : readFrame b = .error (.formatError, subLenRange) := by
  rw [readFrame, if_pos h]

theorem readFrame_zero {b : List Byte} (h : HDRW ≤ capacity b) (h0 : readHeader b = 0) :
    readFrame b = .error (.formatError, subLenZero) := by
  rw [readFrame, if_neg (Nat.not_lt.2 h), if_pos h0]

theorem readFrame_range {b : List Byte} (h : HDRW ≤ capacity b) (h0 : readHeader b ≠ 0)
    (h1 : capacity b < HDRW + readHeader b) : readFrame b = .error (.formatError, subLenRange) := by
  rw [readFrame, if_neg (Nat.not_lt.2 h), if_neg h0, if_pos h1]

theorem readFrame_align {b : List Byte} (h0 : readHeader b ≠ 0) (h1 : HDRW + readHeader b ≤ capacity b)
    (h2 : readHeader b % 8 ≠ 0) : readFrame b = .error (.formatError, subLenAlign) := by
  rw [readFrame, if_neg (Nat.not_lt.2 (by omega)), if_neg h0, if_neg (Nat.not_lt.2 h1), if_pos h2]

theorem readFrame_ok {b : List Byte} (h0 : readHeader b ≠ 0) (h1 : HDRW + readHeader b ≤ capacity b)
    (h2 : readHeader b % 8 = 0) : readFrame b = .ok (readPayload b (readHeader b)) := by
  rw [readFrame, if_neg (Nat.not_lt.2 (by omega)), if_neg h0, if_neg (Nat.not_lt.2 h1), if_neg (by omega)]

/-! ### `unwrap` (R212) -/

theorem unwrap_plain {x : List Byte} {q : Option (List Byte)} (h : startsWith x MARK = false) : unwrap x q = .ok x := by
  rw [unwrap, if_neg (by rw [h]; exact Bool.false_ne_true)]

theorem unwrap_count {x : List Byte} {q : Option (List Byte)} (h : startsWith x MARK = true) (h1 : occ x SEP ≠ 1) :
    unwrap x q = .error (.formatError, subSepCount) := by
  rw [unwrap, if_pos h]
  rw [occ] at h1
  split
  · next p hp => rw [hp] at h1; exact absurd rfl h1
  · rfl

theorem unwrap_missing {x : List Byte} {p : Nat} (h : startsWith x MARK = true) (h1 : occurrences x SEP = [p]) :
    unwrap x none = .error (.authError, subPwdRequired) := by
  rw [unwrap, if_pos h, h1]

theorem unwrap_given {x q : List Byte} {p : Nat} (h : startsWith x MARK = true) (h1 : occurrences x SEP = [p]) :
    unwrap x (some q) =
      if q = (x.take p).drop 11 then .ok (x.drop (p + 6)) else .error (.authError, subPwdIncorrect) := by
  rw [unwrap, if_pos h, h1]

/-! ### `ENCODE` and `DECODE` -/

theorem encodeOp_error {s : State} {e : ErrKind} {sub : BitVec 3}
    (h : sourceEncode s.pixels s.message s.password = .error (e, sub)) :
    encodeOp s = finish e sub { acceptStatus s with prot := s.protectedVariant } := by
  rw [encodeOp, h]

theorem encodeOp_ok {s : State} {pixels : List Byte} (h : sourceEncode s.pixels s.message s.password = .ok pixels) :
    encodeOp s = finish .none 0 { acceptStatus s with
      prot := s.protectedVariant, pixo := s.pixo.writeList 0 pixels, n := BitVec.ofNat 32 s.payloadBits } := by
  rw [encodeOp, h]; rfl

theorem decodeOp_frameError {s : State} {e : ErrKind} {sub : BitVec 3} (h : readFrame s.pixels = .error (e, sub)) :
    decodeOp s = finish e sub { acceptStatus s with outlen := 0, n := s.decodedN } := by
  rw [decodeOp, h]

theorem decodeOp_unwrapError {s : State} {x : List Byte} {e : ErrKind} {sub : BitVec 3}
    (h : readFrame s.pixels = .ok x) (hw : unwrap x s.password = .error (e, sub)) :
    decodeOp s = finish e sub { acceptStatus s with outlen := 0, n := s.decodedN, prot := startsWith x MARK } := by
  rw [decodeOp, h]
  simp only [hw]

theorem decodeOp_ok {s : State} {x m : List Byte} (h : readFrame s.pixels = .ok x) (hw : unwrap x s.password = .ok m) :
    decodeOp s = finish .none 0 { acceptStatus s with
      n := s.decodedN, prot := startsWith x MARK
      out := s.out.writeList 0 m, outlen := BitVec.ofNat 32 m.length } := by
  rw [decodeOp, h]
  simp only [hw]
  rfl

end Sys2Proof.Machine
end

