-- ==== Sys2Proof/Laws/Invariant.lean ====
section
/-! SUPPORT. How the invariant is carried over a step: the memories (every operation keeps the canonical form
and the address space), then one lemma per step rule. -/

namespace Sys2Proof.Machine

/-! ### The memories -/

theorem MemOk_congr {s t : State} (h : s.MemOk) (hm : ∀ m, t.mem m = s.mem m) (hp : t.params = s.params) : t.MemOk := by
  intro m
  have hd : t.depth m = s.depth m := by cases m <;> simp [State.depth, hp]
  rw [hm, hd]
  exact h m

theorem MemOk_setMem {s : State} {k : MemName} {x : Memory} (h : s.MemOk) (hx : x.wf)
    (hd : ∀ c ∈ x.cells, c.1 < s.depth k) : (s.setMem k x).MemOk := by
  intro m
  rw [setMem_mem, setMem_depth]
  split
  · next hm => exact hm ▸ ⟨hx, hd⟩
  · exact h m

/-- A byte store in the address space keeps every memory in order. -/
theorem MemOk_write {s : State} {k : MemName} {a : Nat} {v : Byte} (h : s.MemOk) (ha : a < s.depth k) :
    (s.setMem k ((s.mem k).write a v)).MemOk := by
  refine MemOk_setMem h (Memory.write_wf a v (h k).1) fun c hc => ?_
  rcases mem_insertCell hc with rfl | hc
  · exact ha
  · exact (h k).2 c hc

/-- So does the store of a run of bytes. -/
theorem MemOk_writeList {s : State} {k : MemName} {vs : List Byte} (h : s.MemOk) (ha : vs.length ≤ s.depth k) :
    (s.setMem k ((s.mem k).writeList 0 vs)).MemOk := by
  refine MemOk_setMem h (Memory.writeList_wf 0 vs (h k).1) fun c hc => ?_
  rcases mem_insertCells hc with hc | hc
  · omega
  · exact (h k).2 c hc

/-! ### The two ways a step of a running command ends -/

/-- The command goes on. -/
theorem Inv_goOn {s t : State} (h : s.Inv) (hb : s.st ≠ .idle) (hm : t.MemOk) (hp : t.params = s.params)
    (hu : t.uops = s.uops) (hd : t.done = s.done) (he : t.err = s.err) (hs : t.sub = s.sub) (hph : t.PhaseOk) : t.Inv where
  memOk := hm
  paramsOk := by rw [hp]; exact h.paramsOk
  uopsDone := by rw [hu]; exact h.uopsDone
  notBoth := fun _ => by rw [hd]; exact h.notBoth (by simp [State.busy, hb])
  noErrorYet := fun hd' => by rw [he]; exact h.noErrorYet (hd ▸ hd')
  endingOk := by rw [he, hs]; exact h.endingOk
  phaseOk := hph

/-- The command ends. -/
theorem Inv_finish {s u : State} {e : ErrKind} {sub : BitVec 3} (h : s.Inv) (hm : u.MemOk) (hp : u.params = s.params)
    (hu : u.uops = s.uops) (he : legalEnding e sub = true) : (finish e sub u).Inv where
  memOk := MemOk_congr hm (fun m => finish_mem e sub u m) rfl
  paramsOk := by rw [finish_params, hp]; exact h.paramsOk
  uopsDone := by rw [finish_uops, hu]; exact h.uopsDone
  notBoth := by simp [State.busy]
  noErrorYet := by simp
  endingOk := by simpa using he
  phaseOk := by simp [State.PhaseOk]

/-! ### The step rules -/

theorem stepEBuild_inv {s : State} (h : s.Inv) (hst : s.st = .eBuild) : ∃ t, stepEBuild s = .next t ∧ t.Inv := by
  have hph := h.phaseOk
  simp only [State.PhaseOk, hst] at hph
  refine ⟨_, stepEBuild_eq s, Inv_goOn h (by simp [hst]) (MemOk_congr h.memOk (fun m => by cases m <;> rfl) rfl) rfl rfl rfl rfl rfl ?_⟩
  refine ⟨hph, rfl, ?_⟩
  exact toNat_ofNat_of_lt (payloadLength_lt s _)

theorem stepEChkcap_inv {s : State} (h : s.Inv) (hst : s.st = .eChkcap) : ∃ t, stepEChkcap s = .next t ∧ t.Inv := by
  have hph := h.phaseOk
  simp only [State.PhaseOk, hst] at hph
  obtain ⟨hc, hb⟩ := hph
  rw [stepEChkcap_eq]
  split
  · next hf =>
    refine ⟨_, rfl, Inv_goOn h (by simp [hst]) (MemOk_congr h.memOk (fun m => by cases m <;> rfl) rfl) rfl rfl rfl rfl rfl ?_⟩
    have := cap_lt s
    have hn : (BitVec.ofNat 32 (8 * s.paylen.toNat)).toNat = 8 * s.paylen.toNat :=
      toNat_ofNat_of_lt (by unfold HDRW at hf; omega)
    exact ⟨hc, hb, hn, by show HDRW + (BitVec.ofNat 32 (8 * s.paylen.toNat)).toNat ≤ s.cap; rw [hn]; exact hf⟩
  · exact ⟨_, rfl, Inv_finish h h.memOk rfl rfl rfl⟩

theorem stepEClone_inv {s : State} (h : s.Inv) (hst : s.st = .eClone) : ∃ t, stepEClone s = .next t ∧ t.Inv := by
  have hph := h.phaseOk
  simp only [State.PhaseOk, hst] at hph
  obtain ⟨hc, hb, hf⟩ := hph
  have hp := ((configCheck_eq_none _ _).1 hc).1
  refine ⟨_, stepEClone_eq s hp, Inv_goOn h (by simp [hst]) ?_ rfl rfl rfl rfl rfl ⟨hc, hb, hf, by show (0 : Word).toNat < HDRW; decide⟩⟩
  refine MemOk_congr (MemOk_writeList (k := .pixo) (vs := s.bytes .pixi 0 s.pixlen.toNat) h.memOk ?_)
    (fun m => by cases m <;> rfl) rfl
  rw [bytes_length]; exact hp

/-- The store of one frame bit keeps the memories in order. -/
theorem embedBit_memOk {s : State} {v : Bool} (h : s.MemOk) (ha : EA s.idx.toNat < s.params.pixMax) :
    (embedBit v s).MemOk :=
  MemOk_congr (MemOk_write (k := .pixo) (v := setLSB (s.byteAt .pixo (EA s.idx.toNat)) v) h ha)
    (fun m => by cases m <;> rfl) rfl

theorem stepEWrhdr_inv {s : State} (h : s.Inv) (hst : s.st = .eWrhdr) : ∃ t, stepEWrhdr s = .next t ∧ t.Inv := by
  have hph := h.phaseOk
  simp only [State.PhaseOk, hst] at hph
  obtain ⟨hc, hb, hf, hi⟩ := hph
  have hp := ((configCheck_eq_none _ _).1 hc).1
  have hea : EA s.idx.toNat < s.params.pixMax := EA_lt_pixMax hp (by unfold State.FitsOk at hf; omega)
  have hi1 : s.idx.toNat + 1 < 2 ^ 32 := by unfold HDRW at hi; omega
  have hidx := toNat_succ_of_lt s.idx hi1
  have hm := embedBit_memOk (v := s.hsr.getLsbD 31) h.memOk hea
  rw [stepEWrhdr_eq s hea hi1]
  simp only []
  split
  · next h32 =>
    split
    · exact ⟨_, rfl, Inv_finish h (MemOk_congr hm (fun m => by cases m <;> rfl) rfl) rfl rfl rfl⟩
    · next hn =>
      refine ⟨_, rfl, Inv_goOn h (by simp [hst]) (MemOk_congr hm (fun m => by cases m <;> rfl) rfl) rfl rfl rfl rfl rfl ?_⟩
      have hn : 0 < s.n.toNat := Nat.pos_of_ne_zero fun h0 => hn (BitVec.eq_of_toNat_eq h0)
      have hidx' : (s.idx + 1).toNat = HDRW := by omega
      refine ⟨hc, hb, hf, ?_, ?_, ?_, ?_⟩
      · show HDRW ≤ (s.idx + 1).toNat; omega
      · show (s.idx + 1).toNat < HDRW + s.n.toNat; omega
      · show 0 = ((s.idx + 1).toNat - HDRW) % 8; omega
      · show 0 = ((s.idx + 1).toNat - HDRW + 7) / 8; omega
  · next h32 =>
    refine ⟨_, rfl, Inv_goOn h (by simp [hst]) (MemOk_congr hm (fun m => by cases m <;> rfl) rfl) rfl rfl rfl rfl rfl ?_⟩
    exact ⟨hc, hb, hf, by show (s.idx + 1).toNat < HDRW; omega⟩

/-- What the first line of `E_WRPAY` leaves (R245): the byte to shift from, and `BP`. -/
theorem stepEWrpay_load {s : State} (h : s.Inv) (hst : s.st = .eWrpay) :
    ∃ x p, (if s.bc = 0 then exec .uLdb s else .next s) = .next { s with shr := x, bp := p } ∧
      p.toNat = (s.idx.toNat - HDRW) / 8 + 1 ∧
      x = (if s.bc = 0 then s.muxPayload.getD ((s.idx.toNat - HDRW) / 8) 0 else s.shr) := by
  have hph := h.phaseOk
  simp only [State.PhaseOk, hst] at hph
  obtain ⟨hc, hb, hf, hi1, hi2, hbc, hbp⟩ := hph
  by_cases h0 : s.bc = 0
  · have hz : (s.idx.toNat - HDRW) % 8 = 0 := by rw [← hbc, h0]; rfl
    have hk : s.bp.toNat = (s.idx.toNat - HDRW) / 8 := by omega
    have hlt : s.bp.toNat < s.payloadLength s.prot := by
      have := hb.2; have := hf.1; rw [hb.2] at this; omega
    have hcap := cap_lt s
    have hbp1 : s.bp.toNat + 1 < 2 ^ 32 := by have := hf.2; omega
    rw [if_pos h0, exec_uLdb_of_lt s hlt (((configCheck_eq_none _ _).1 hc).2.1 rfl) (prot_pwd_le hc hb.1), if_pos h0,
      bumpBp_of_lt _ (by exact hbp1)]
    exact ⟨_, _, rfl, by rw [toNat_succ_of_lt _ hbp1]; omega, by rw [hk]⟩
  · have hz : (s.idx.toNat - HDRW) % 8 ≠ 0 := by
      rw [← hbc]; intro h1; exact h0 (BitVec.eq_of_toNat_eq h1)
    rw [if_neg h0, if_neg h0]
    exact ⟨s.shr, s.bp, rfl, by omega, rfl⟩

theorem toNat_bc_succ (x : BitVec 3) : (x + 1).toNat = (x.toNat + 1) % 8 := by
  rw [BitVec.toNat_add]; rfl

theorem stepEWrpay_inv {s : State} (h : s.Inv) (hst : s.st = .eWrpay) : ∃ t, stepEWrpay s = .next t ∧ t.Inv := by
  obtain ⟨x, p, hu, hpn, -⟩ := stepEWrpay_load h hst
  have hph := h.phaseOk
  simp only [State.PhaseOk, hst] at hph
  obtain ⟨hc, hb, hf, hi1, hi2, hbc, hbp⟩ := hph
  have hp := ((configCheck_eq_none _ _).1 hc).1
  have hcap := cap_lt s
  have hea : EA s.idx.toNat < s.params.pixMax := EA_lt_pixMax hp (by have := hf.2; omega)
  have hi3 : s.idx.toNat + 1 < 2 ^ 32 := by have := hf.2; omega
  have hidx := toNat_succ_of_lt s.idx hi3
  have hm : (embedBit (x.getLsbD 7) { s with shr := x, bp := p }).MemOk :=
    embedBit_memOk (MemOk_congr h.memOk (fun m => by cases m <;> rfl) rfl) hea
  rw [stepEWrpay_eq s { s with shr := x, bp := p } hu hea hi3]
  simp only []
  split
  · exact ⟨_, rfl, Inv_finish h (MemOk_congr hm (fun m => by cases m <;> rfl) rfl) rfl rfl rfl⟩
  · next hne =>
    refine ⟨_, rfl, Inv_goOn h (by simp [hst]) (MemOk_congr hm (fun m => by cases m <;> rfl) rfl) rfl rfl rfl rfl rfl ?_⟩
    refine ⟨hc, hb, hf, ?_, ?_, ?_, ?_⟩
    · show HDRW ≤ (s.idx + 1).toNat; omega
    · show (s.idx + 1).toNat < HDRW + s.n.toNat; omega
    · show (s.bc + 1).toNat = ((s.idx + 1).toNat - HDRW) % 8
      rw [toNat_bc_succ, hbc]; omega
    · show p.toNat = ((s.idx + 1).toNat - HDRW + 7) / 8
      omega

theorem stepDRdhdr_inv {s : State} (h : s.Inv) (hst : s.st = .dRdhdr) : ∃ t, stepDRdhdr s = .next t ∧ t.Inv := by
  have hph := h.phaseOk
  simp only [State.PhaseOk, hst] at hph
  obtain ⟨hc, ho, hpr, hi⟩ := hph
  have hp := ((configCheck_eq_none _ _).1 hc).1
  by_cases hcap : s.cap < HDRW
  · rw [stepDRdhdr_small s hcap]
    exact ⟨_, rfl, Inv_finish h h.memOk rfl rfl rfl⟩
  · have hea : EA s.idx.toNat < s.params.pixMax := EA_lt_pixMax hp (by omega)
    have hi1 : s.idx.toNat + 1 < 2 ^ 32 := by unfold HDRW at hi; omega
    have hidx := toNat_succ_of_lt s.idx hi1
    rw [stepDRdhdr_eq s (by omega) hea hi1]
    simp only []
    split
    · refine ⟨_, rfl, Inv_goOn h (by simp [hst]) (MemOk_congr h.memOk (fun m => by cases m <;> rfl) rfl) rfl rfl rfl rfl rfl ?_⟩
      exact ⟨hc, ho, hpr, by show HDRW ≤ s.cap; omega, by show (s.idx + 1).toNat = HDRW; omega⟩
    · refine ⟨_, rfl, Inv_goOn h (by simp [hst]) (MemOk_congr h.memOk (fun m => by cases m <;> rfl) rfl) rfl rfl rfl rfl rfl ?_⟩
      exact ⟨hc, ho, hpr, by show (s.idx + 1).toNat < HDRW; omega⟩

theorem stepDValhdr_inv {s : State} (h : s.Inv) (hst : s.st = .dValhdr) : ∃ t, stepDValhdr s = .next t ∧ t.Inv := by
  have hph := h.phaseOk
  simp only [State.PhaseOk, hst] at hph
  obtain ⟨hc, ho, hpr, hcap, hi⟩ := hph
  have hm : ({ s with n := s.hsr } : State).MemOk := MemOk_congr h.memOk (fun m => by cases m <;> rfl) rfl
  rw [stepDValhdr_eq]
  simp only []
  split
  · exact ⟨_, rfl, Inv_finish h hm rfl rfl rfl⟩
  · split
    · exact ⟨_, rfl, Inv_finish h hm rfl rfl rfl⟩
    · split
      · exact ⟨_, rfl, Inv_finish h hm rfl rfl rfl⟩
      · next h1 h2 h3 =>
        refine ⟨_, rfl, Inv_goOn h (by simp [hst]) (MemOk_congr h.memOk (fun m => by cases m <;> rfl) rfl) rfl rfl rfl rfl rfl ?_⟩
        have h1 : 0 < s.hsr.toNat := Nat.pos_of_ne_zero fun h0 => h1 (BitVec.eq_of_toNat_eq h0)
        refine ⟨hc, ho, hpr, ?_, ?_, ?_, ?_, ?_, ?_⟩
        · show HDRW + s.hsr.toNat ≤ s.cap; omega
        · show s.hsr.toNat % 8 = 0; omega
        · show HDRW ≤ s.idx.toNat; omega
        · show s.idx.toNat < HDRW + s.hsr.toNat; omega
        · show 0 = (s.idx.toNat - HDRW) % 8; omega
        · show 0 = (s.idx.toNat - HDRW) / 8; omega

theorem bc_succ_eq_zero (x : BitVec 3) : x + 1 = 0 ↔ x.toNat = 7 := by
  revert x; decide

theorem stepDRdpay_inv {s : State} (h : s.Inv) (hst : s.st = .dRdpay) : ∃ t, stepDRdpay s = .next t ∧ t.Inv := by
  have hph := h.phaseOk
  simp only [State.PhaseOk, hst] at hph
  obtain ⟨hc, ho, hpr, hcap, hn8, hi1, hi2, hbc, hbp⟩ := hph
  have hp := ((configCheck_eq_none _ _).1 hc).1
  have hcl := cap_lt s
  have hea : EA s.idx.toNat < s.params.pixMax := EA_lt_pixMax hp (by omega)
  have hi3 : s.idx.toNat + 1 < 2 ^ 32 := by omega
  have hidx := toNat_succ_of_lt s.idx hi3
  by_cases hb : s.bc + 1 = 0
  · have hbc7 := (bc_succ_eq_zero s.bc).1 hb
    have hle : s.n.toNat / 8 ≤ s.params.extMax :=
      Params.le_extMax h.paramsOk hp (by unfold State.cap BPP at hcap; omega)
    have hlt : s.bp.toNat < s.params.extMax := by omega
    have hbp1 : s.bp.toNat + 1 < 2 ^ 32 := by omega
    have hbps := toNat_succ_of_lt s.bp hbp1
    rw [stepDRdpay_eq_of_eq s hea hi3 hb hlt hbp1]
    simp only []
    have hm := MemOk_write (k := .ext) (v := (s.shr <<< 1) ||| bitByte (lsb (s.byteAt .pixi (EA s.idx.toNat)))) h.memOk
      (show s.bp.toNat < s.depth .ext from hlt)
    split
    · refine ⟨_, rfl, Inv_goOn h (by simp [hst]) (MemOk_congr hm (fun m => by cases m <;> rfl) rfl) rfl rfl rfl rfl rfl ?_⟩
      refine ⟨hc, ho, hpr, ?_, hcap⟩
      show s.n.toNat = 8 * (s.bp + 1).toNat; omega
    · refine ⟨_, rfl, Inv_goOn h (by simp [hst]) (MemOk_congr hm (fun m => by cases m <;> rfl) rfl) rfl rfl rfl rfl rfl ?_⟩
      refine ⟨hc, ho, hpr, hcap, hn8, ?_, ?_, ?_, ?_⟩
      · show HDRW ≤ (s.idx + 1).toNat; omega
      · show (s.idx + 1).toNat < HDRW + s.n.toNat; omega
      · show 0 = ((s.idx + 1).toNat - HDRW) % 8; omega
      · show (s.bp + 1).toNat = ((s.idx + 1).toNat - HDRW) / 8; omega
  · have hbc7 : s.bc.toNat ≠ 7 := fun h7 => hb ((bc_succ_eq_zero s.bc).2 h7)
    rw [stepDRdpay_eq_of_ne s hea hi3 hb]
    simp only []
    split
    · omega
    · refine ⟨_, rfl, Inv_goOn h (by simp [hst]) (MemOk_congr h.memOk (fun m => by cases m <;> rfl) rfl) rfl rfl rfl rfl rfl ?_⟩
      refine ⟨hc, ho, hpr, hcap, hn8, ?_, ?_, ?_, ?_⟩
      · show HDRW ≤ (s.idx + 1).toNat; omega
      · show (s.idx + 1).toNat < HDRW + s.n.toNat; omega
      · show (s.bc + 1).toNat = ((s.idx + 1).toNat - HDRW) % 8
        rw [toNat_bc_succ, hbc]; omega
      · show s.bp.toNat = ((s.idx + 1).toNat - HDRW) / 8; omega

/-- The extracted payload fits `EXT` and `OUT` (R8, R69). -/
theorem extlen_le {s : State} (h : s.Inv) (hp : s.pixlen.toNat ≤ s.params.pixMax) (he : s.ExtractedOk) :
    s.extlen.toNat ≤ s.params.extMax := by
  have h1 := he.1
  have h2 := he.2
  exact Params.le_extMax h.paramsOk hp (by unfold State.cap BPP at h2; omega)

theorem stepDDetprot_inv {s : State} (h : s.Inv) (hst : s.st = .dDetprot) : ∃ t, stepDDetprot s = .next t ∧ t.Inv := by
  have hph := h.phaseOk
  simp only [State.PhaseOk, hst] at hph
  obtain ⟨hc, ho, hpr, he⟩ := hph
  have hle := extlen_le h ((configCheck_eq_none _ _).1 hc).1 he
  rw [stepDDetprot_eq s (fun h11 => by omega)]
  split
  · next h11 =>
    refine ⟨_, rfl, Inv_goOn h (by simp [hst]) (MemOk_congr h.memOk (fun m => by cases m <;> rfl) rfl) rfl rfl rfl rfl rfl ?_⟩
    exact ⟨hc, ho, rfl, he, h11.1⟩
  · refine ⟨_, rfl, Inv_goOn h (by simp [hst]) (MemOk_congr h.memOk (fun m => by cases m <;> rfl) rfl) rfl rfl rfl rfl rfl ?_⟩
    exact ⟨hc, ho, hpr, he⟩

theorem stepDRetplain_inv {s : State} (h : s.Inv) (hst : s.st = .dRetplain) : ∃ t, stepDRetplain s = .next t ∧ t.Inv := by
  have hph := h.phaseOk
  simp only [State.PhaseOk, hst] at hph
  obtain ⟨hc, ho, hpr, he⟩ := hph
  have hle := extlen_le h ((configCheck_eq_none _ _).1 hc).1 he
  refine ⟨_, stepDRetplain_eq s hle, Inv_finish h ?_ rfl rfl rfl⟩
  refine MemOk_congr (MemOk_writeList (k := .out) (vs := s.bytes .ext 0 s.extlen.toNat) h.memOk ?_)
    (fun m => by cases m <;> rfl) rfl
  rw [bytes_length]; exact hle

/-- An occurrence of `W` in `X` ends inside `X`. -/
theorem occurrences_le {xs ws : List Byte} {p : Nat} (h : p ∈ occurrences xs ws) : p + ws.length ≤ xs.length := by
  have := List.mem_range.1 (List.mem_filter.1 h).1
  omega

theorem stepDValpwd_inv {s : State} (h : s.Inv) (hst : s.st = .dValpwd) : ∃ t, stepDValpwd s = .next t ∧ t.Inv := by
  have hph := h.phaseOk
  simp only [State.PhaseOk, hst] at hph
  obtain ⟨hc, ho, hpr, he, h11⟩ := hph
  have hcc := (configCheck_eq_none _ _).1 hc
  have hle := extlen_le h hcc.1 he
  rw [stepDValpwd_eq s hle hcc.2.2]
  have hocc : ∀ p ∈ occurrences (s.bytes .ext 0 s.extlen.toNat) SEP, p + 6 ≤ s.extlen.toNat := by
    intro p hp
    have := occurrences_le hp
    rwa [SEP_length, bytes_length] at this
  revert hocc
  generalize occurrences (s.bytes .ext 0 s.extlen.toNat) SEP = places
  intro hocc
  rcases places with _ | ⟨p, _ | ⟨q, rest⟩⟩
  · exact ⟨_, rfl, Inv_finish h h.memOk rfl rfl rfl⟩
  · simp only []
    split
    · exact ⟨_, rfl, Inv_finish h h.memOk rfl rfl rfl⟩
    · split
      · exact ⟨_, rfl, Inv_finish h h.memOk rfl rfl rfl⟩
      · refine ⟨_, rfl, Inv_goOn h (by simp [hst]) (MemOk_congr h.memOk (fun m => by cases m <;> rfl) rfl) rfl rfl rfl rfl rfl ?_⟩
        have hp := hocc p (by simp)
        have hx := s.extlen.isLt
        refine ⟨hc, ho, hpr, he, ?_⟩
        show (BitVec.ofNat 32 p).toNat + 6 ≤ s.extlen.toNat
        rw [toNat_ofNat_of_lt (by omega)]
        exact hp
  · exact ⟨_, rfl, Inv_finish h h.memOk rfl rfl rfl⟩

theorem stepDRetmsg_inv {s : State} (h : s.Inv) (hst : s.st = .dRetmsg) : ∃ t, stepDRetmsg s = .next t ∧ t.Inv := by
  have hph := h.phaseOk
  simp only [State.PhaseOk, hst] at hph
  obtain ⟨hc, ho, hpr, he, hs⟩ := hph
  have hle := extlen_le h ((configCheck_eq_none _ _).1 hc).1 he
  refine ⟨_, stepDRetmsg_eq s hle hs, Inv_finish h ?_ rfl rfl rfl⟩
  refine MemOk_congr (MemOk_writeList (k := .out)
    (vs := (s.bytes .ext 0 s.extlen.toNat).drop (s.spos.toNat + 6)) h.memOk ?_) (fun m => by cases m <;> rfl) rfl
  simp only [List.length_drop, bytes_length, State.depth]; omega

/-! ### The beginning of a command -/

/-- A refusal of the configuration check is an ending R101 lists. -/
theorem configCheck_some {e : Bool} {s : State} {x : BitVec 3} (h : configCheck e s = some x) : legalEnding .cfgError x = true := by
  unfold configCheck at h
  split at h
  · cases h; rfl
  · split at h
    · cases h; rfl
    · split at h <;> cases h; rfl

/-- Acceptance of `ENCODE` keeps the invariant. -/
theorem acceptEncode_inv {s : State} (h : s.Inv) (hc : configCheck true s = none) : (acceptEncode s).Inv where
  memOk := MemOk_congr h.memOk (fun m => by cases m <;> rfl) rfl
  paramsOk := h.paramsOk
  uopsDone := h.uopsDone
  notBoth := fun _ => rfl
  noErrorYet := fun _ => rfl
  endingOk := rfl
  phaseOk := hc

/-- Acceptance of `DECODE` keeps the invariant. -/
theorem acceptDecode_inv {s : State} (h : s.Inv) (hc : configCheck false s = none) : (acceptDecode s).Inv where
  memOk := MemOk_congr h.memOk (fun m => by cases m <;> rfl) rfl
  paramsOk := h.paramsOk
  uopsDone := h.uopsDone
  notBoth := fun _ => rfl
  noErrorYet := fun _ => rfl
  endingOk := rfl
  phaseOk := ⟨hc, rfl, rfl, by show (0 : Word).toNat < HDRW; decide⟩

end Sys2Proof.Machine
end

