-- ==== Sys2Proof/Laws/Run.lean ====
section
/-! SUPPORT. Runs of the machine: how a run splits, what a step of the engine keeps whatever state it is in, and how
the step rules are reached from `step`. -/

namespace Sys2Proof.Machine

/-! ### Splitting a run -/

@[simp] theorem run_zero (s : State) : run 0 s = .next s := rfl
theorem run_succ (k : Nat) (s : State) : run (k + 1) s = andThen (step s) (run k) := rfl

/-- The same run as the host's interface makes. -/
theorem core_run_eq (k : Nat) : ∀ s : State, Sys2Proof.core.run k s = run k s := by
  induction k with
  | zero => intro s; rfl
  | succ k ih =>
    intro s
    have hr : ∀ (M : Host.Core) (x : M.State), M.run (k + 1) x =
        match M.step x with
        | .next y => M.run k y
        | .fault r => .fault r
        | .refused r => .refused r := fun _ _ => rfl
    refine (hr Sys2Proof.core s).trans ?_
    rw [run]
    cases h : Sys2Proof.core.step s with
    | next t =>
      have h' : step s = .next t := h
      rw [h']; exact ih t
    | fault e =>
      have h' : step s = .fault e := h
      rw [h']; rfl
    | refused e =>
      have h' : step s = .refused e := h
      rw [h']; rfl

theorem run_add (j k : Nat) (s : State) : run (j + k) s = andThen (run j s) (run k) := by
  induction j generalizing s with
  | zero => rw [Nat.zero_add]; rfl
  | succ j ih =>
    rw [Nat.succ_add, run_succ, run_succ]
    cases step s with
    | next t => exact ih t
    | fault e => rfl
    | refused e => rfl

/-- One more step at the end of a run. -/
theorem run_snoc {k : Nat} {s t : State} (h : run k s = .next t) : run (k + 1) s = step t := by
  rw [run_add, h, andThen_next, run_succ]
  cases step t <;> rfl

/-- A run after a run. -/
theorem run_trans {j k : Nat} {s t : State} {r : Result} (h : run j s = .next t) (h' : run k t = r) :
    run (j + k) s = r := by
  rw [run_add, h, andThen_next, h']

/-- With nothing pending the step is the engine's. -/
theorem step_of_quiet {s : State} (hu : s.uops = []) (hh : s.host = []) : step s = engineStep s := by
  unfold step; rw [hu, hh]

/-! ### The engine's step by sequencer state -/

/-- With a move of the outside pending, a step makes it. -/
theorem step_of_move {s : State} {mv : HostMove} {rest : List HostMove} (hu : s.uops = []) (hh : s.host = mv :: rest) :
    step s = hostStep mv rest s := by
  simp only [step, hu, hh]

theorem busy_of_idle {s : State} (h : s.st = .idle) : s.busy = false := by simp [State.busy, h]
theorem busy_of_ne {s : State} (h : s.st ≠ .idle) : s.busy = true := by simp [State.busy, h]

theorem engineStep_idle {s : State} (h : s.st = .idle) : engineStep s = .next s := by rw [engineStep, h]
theorem engineStep_eBuild {s : State} (h : s.st = .eBuild) : engineStep s = stepEBuild s := by rw [engineStep, h]
theorem engineStep_eChkcap {s : State} (h : s.st = .eChkcap) : engineStep s = stepEChkcap s := by rw [engineStep, h]
theorem engineStep_eClone {s : State} (h : s.st = .eClone) : engineStep s = stepEClone s := by rw [engineStep, h]
theorem engineStep_eWrhdr {s : State} (h : s.st = .eWrhdr) : engineStep s = stepEWrhdr s := by rw [engineStep, h]
theorem engineStep_eWrpay {s : State} (h : s.st = .eWrpay) : engineStep s = stepEWrpay s := by rw [engineStep, h]
theorem engineStep_dRdhdr {s : State} (h : s.st = .dRdhdr) : engineStep s = stepDRdhdr s := by rw [engineStep, h]
theorem engineStep_dValhdr {s : State} (h : s.st = .dValhdr) : engineStep s = stepDValhdr s := by rw [engineStep, h]
theorem engineStep_dRdpay {s : State} (h : s.st = .dRdpay) : engineStep s = stepDRdpay s := by rw [engineStep, h]
theorem engineStep_dDetprot {s : State} (h : s.st = .dDetprot) : engineStep s = stepDDetprot s := by rw [engineStep, h]
theorem engineStep_dRetplain {s : State} (h : s.st = .dRetplain) : engineStep s = stepDRetplain s := by rw [engineStep, h]
theorem engineStep_dValpwd {s : State} (h : s.st = .dValpwd) : engineStep s = stepDValpwd s := by rw [engineStep, h]
theorem engineStep_dRetmsg {s : State} (h : s.st = .dRetmsg) : engineStep s = stepDRetmsg s := by rw [engineStep, h]

/-! ### What no step of the engine touches -/

/-- The operands, the parameters and the model's own lists are the same in both states. -/
structure Kept (s t : State) : Prop where
  pixlen : t.pixlen = s.pixlen
  msglen : t.msglen = s.msglen
  pwdlen : t.pwdlen = s.pwdlen
  present : t.present = s.present
  params : t.params = s.params
  host : t.host = s.host
  reads : t.reads = s.reads
  uops : t.uops = s.uops
  pixi : t.pixi = s.pixi
  msg : t.msg = s.msg
  pwd : t.pwd = s.pwd

theorem Kept.refl (s : State) : Kept s s := by constructor <;> rfl
theorem Kept.trans {s t u : State} (h : Kept s t) (k : Kept t u) : Kept s u := by
  constructor
  · rw [k.pixlen, h.pixlen]
  · rw [k.msglen, h.msglen]
  · rw [k.pwdlen, h.pwdlen]
  · rw [k.present, h.present]
  · rw [k.params, h.params]
  · rw [k.host, h.host]
  · rw [k.reads, h.reads]
  · rw [k.uops, h.uops]
  · rw [k.pixi, h.pixi]
  · rw [k.msg, h.msg]
  · rw [k.pwd, h.pwd]

theorem bumpIdx_kept (s : State) : Kept s (bumpIdx s) := by
  unfold bumpIdx; split <;> constructor <;> rfl
theorem bumpBp_kept (s : State) : Kept s (bumpBp s) := by
  unfold bumpBp; split <;> constructor <;> rfl

/-- A step of the engine keeps them, in every state. -/
theorem engineStep_kept {s t : State} (h : engineStep s = .next t) : Kept s t := by
  unfold engineStep at h
  split at h
  · cases h; exact .refl s
  · rw [stepEBuild_eq] at h; cases h; constructor <;> rfl
  · rw [stepEChkcap_eq] at h; split at h <;> cases h <;> constructor <;> rfl
  · simp only [stepEClone, andThen_eq_next, exec_uCln_eq_next, exec_uHld] at h
    obtain ⟨u, ⟨-, rfl⟩, v, h1, h2⟩ := h
    cases h1; cases h2; constructor <;> rfl
  · simp only [stepEWrhdr, andThen_eq_next, exec_uEmb_eq_next, exec_uHso] at h
    obtain ⟨u, hu, v, ⟨-, rfl⟩, h⟩ := h
    cases hu
    generalize hw : bumpIdx _ = w at h
    have hk : Kept s w := hw ▸ Kept.trans (by constructor <;> rfl) (bumpIdx_kept _)
    refine hk.trans ?_
    split at h
    · split at h <;> cases h <;> constructor <;> rfl
    · cases h; constructor <;> rfl
  · simp only [stepEWrpay, andThen_eq_next, exec_uEmb_eq_next, exec_uSho] at h
    obtain ⟨u, hu, v, hv, w, ⟨-, rfl⟩, h⟩ := h
    cases hv
    have hsu : Kept s u := by
      split at hu
      · simp only [exec, execULdb] at hu
        split at hu
        · rw [readByte_eq_next] at hu
          obtain ⟨-, hu⟩ := hu; cases hu
          exact Kept.trans (by constructor <;> rfl) (bumpBp_kept _)
        · cases hu; exact Kept.trans (by constructor <;> rfl) (bumpBp_kept _)
        · cases hu; exact Kept.trans (by constructor <;> rfl) (bumpBp_kept _)
      · cases hu; exact .refl s
    generalize hw : bumpIdx _ = w at h
    have hk : Kept u w := hw ▸ Kept.trans (by constructor <;> rfl) (bumpIdx_kept _)
    refine hsu.trans (hk.trans ?_)
    split at h <;> cases h <;> constructor <;> rfl
  · simp only [stepDRdhdr] at h
    split at h
    · cases h; constructor <;> rfl
    · simp only [andThen_eq_next, exec_uExt_eq_next, exec_uHsi] at h
      obtain ⟨u, ⟨-, rfl⟩, v, hv, h⟩ := h
      cases hv
      generalize hw : bumpIdx _ = w at h
      have hk : Kept s w := hw ▸ Kept.trans (by constructor <;> rfl) (bumpIdx_kept _)
      refine hk.trans ?_
      split at h <;> split at h <;> cases h <;> constructor <;> rfl
  · rw [stepDValhdr_eq] at h; simp only [] at h
    split at h
    · cases h; constructor <;> rfl
    · split at h
      · cases h; constructor <;> rfl
      · split at h <;> cases h <;> constructor <;> rfl
  · simp only [stepDRdpay, andThen_eq_next, exec_uExt_eq_next, exec_uShi] at h
    obtain ⟨u, ⟨-, rfl⟩, v, hv, w, hw, h⟩ := h
    cases hv
    generalize hx : bumpIdx _ = x at hw h
    have hk : Kept s x := hx ▸ Kept.trans (by constructor <;> rfl) (bumpIdx_kept _)
    have : Kept x w := by
      split at hw
      · rw [exec_uStb_eq_next] at hw
        obtain ⟨-, rfl⟩ := hw
        exact Kept.trans (by constructor <;> rfl) (bumpBp_kept _)
      · cases hw; constructor <;> rfl
    refine hk.trans (this.trans ?_)
    split at h <;> cases h <;> constructor <;> rfl
  · simp only [stepDDetprot, exec_uNone, andThen_next] at h
    split at h
    · rw [readFirst_eq_next] at h
      obtain ⟨-, h⟩ := h
      split at h <;> cases h <;> constructor <;> rfl
    · cases h; constructor <;> rfl
  · simp only [stepDRetplain, exec_uNone, andThen_next, readFirst_eq_next, andThen_eq_next, storeFirst_eq_next] at h
    obtain ⟨-, u, ⟨-, rfl⟩, h⟩ := h
    cases h; constructor <;> rfl
  · simp only [stepDValpwd, exec_uNone, andThen_next, readFirst_eq_next] at h
    obtain ⟨-, h⟩ := h
    split at h
    · split at h
      · cases h; constructor <;> rfl
      · split at h
        · cases h; constructor <;> rfl
        · rw [readFirst_eq_next] at h
          obtain ⟨-, h⟩ := h
          split at h <;> cases h <;> constructor <;> rfl
    · cases h; constructor <;> rfl
  · simp only [stepDRetmsg, exec_uNone, andThen_next, readFirst_eq_next, andThen_eq_next, storeFirst_eq_next] at h
    obtain ⟨-, u, ⟨-, rfl⟩, h⟩ := h
    cases h
    refine Kept.trans (t := setMessageLength (s.setMem .out _)) ?_ (by constructor <;> rfl)
    unfold setMessageLength
    split <;> constructor <;> rfl

/-! ### The engine does not look at the host's list of moves -/

/-- A result with the host's list replaced. -/
def putHost (h : List HostMove) : Result → Result
  | .next s => .next { s with host := h }
  | .fault e => .fault e
  | .refused e => .refused e

theorem andThen_putHost {h : List HostMove} {r : Result} {f : State → Result}
    (hf : ∀ u, f { u with host := h } = putHost h (f u)) : andThen (putHost h r) f = putHost h (andThen r f) := by
  cases r with
  | next u => exact hf u
  | fault e => rfl
  | refused e => rfl

theorem byteAt_host (s : State) (h : List HostMove) (m : MemName) (a : Nat) :
    ({ s with host := h } : State).byteAt m a = s.byteAt m a := by cases m <;> rfl

theorem bytes_host (s : State) (h : List HostMove) (m : MemName) (a len : Nat) :
    ({ s with host := h } : State).bytes m a len = s.bytes m a len :=
  bytes_congr fun i _ => byteAt_host s h m (a + i)

theorem readByte_putHost {h : List HostMove} {s : State} {m : MemName} {a : Nat} {k k' : Byte → Result}
    (hk : ∀ v, k v = putHost h (k' v)) : readByte m a { s with host := h } k = putHost h (readByte m a s k') := by
  unfold readByte
  rw [byteAt_host, show ({ s with host := h } : State).depth m = s.depth m by cases m <;> rfl]
  split
  · exact hk _
  · rfl

theorem readFirst_putHost {h : List HostMove} {s : State} {m : MemName} {len : Nat} {k k' : List Byte → Result}
    (hk : ∀ v, k v = putHost h (k' v)) : readFirst m len { s with host := h } k = putHost h (readFirst m len s k') := by
  unfold readFirst
  rw [bytes_host, show ({ s with host := h } : State).depth m = s.depth m by cases m <;> rfl]
  split
  · exact hk _
  · rfl

theorem storeByte_putHost (h : List HostMove) (s : State) (m : MemName) (a : Nat) (v : Byte) :
    storeByte m a v { s with host := h } = putHost h (storeByte m a v s) := by
  unfold storeByte
  rw [show ({ s with host := h } : State).depth m = s.depth m by cases m <;> rfl]
  split
  · cases m <;> rfl
  · rfl

theorem storeFirst_putHost (h : List HostMove) (s : State) (m : MemName) (vs : List Byte) :
    storeFirst m vs { s with host := h } = putHost h (storeFirst m vs s) := by
  unfold storeFirst
  rw [show ({ s with host := h } : State).depth m = s.depth m by cases m <;> rfl]
  split
  · cases m <;> rfl
  · rfl

theorem bumpIdx_putHost (s : State) (h : List HostMove) :
    bumpIdx { s with host := h } = { bumpIdx s with host := h } := by
  unfold bumpIdx; dsimp only; split <;> rfl

theorem bumpBp_putHost (s : State) (h : List HostMove) :
    bumpBp { s with host := h } = { bumpBp s with host := h } := by
  unfold bumpBp; dsimp only; split <;> rfl

/-- No micro-operation looks at it. -/
theorem exec_putHost (i : Instr) (hi : i.isCommand = false) (s : State) (h : List HostMove) :
    exec i { s with host := h } = putHost h (exec i s) := by
  cases i with
  | nop => cases hi
  | encode => cases hi
  | decode => cases hi
  | uNone => rfl
  | uSho => rfl
  | uShi => rfl
  | uHld => rfl
  | uHso => rfl
  | uHsi => rfl
  | uLdb =>
    simp only [exec, execULdb]
    rw [show ({ s with host := h } : State).paySource s.bp.toNat = s.paySource s.bp.toNat from rfl]
    split
    · exact readByte_putHost fun v => congrArg _ (bumpBp_putHost { s with shr := v } h)
    · next v _ => exact congrArg _ (bumpBp_putHost { s with shr := v } h)
    · exact congrArg _ (bumpBp_putHost { s with shr := Config.freeByte s.free, free := s.free + 1 } h)
  | uStb =>
    simp only [exec, execUStb]
    rw [storeByte_putHost]
    exact andThen_putHost fun u => congrArg _ (bumpBp_putHost u h)
  | uEmb =>
    simp only [exec, execUEmb]
    refine readByte_putHost fun v => ?_
    rw [storeByte_putHost]
    exact andThen_putHost fun u => congrArg _ (bumpIdx_putHost u h)
  | uExt =>
    simp only [exec, execUExt]
    exact readByte_putHost fun v => congrArg _ (bumpIdx_putHost { s with b := lsb v } h)
  | uCln =>
    simp only [exec, execUCln]
    exact readFirst_putHost fun v => storeFirst_putHost h s .pixo v

/-- The engine's step goes the same way whatever moves the host has still to make. -/
theorem engineStep_putHost (s : State) (h : List HostMove) :
    engineStep { s with host := h } = putHost h (engineStep s) := by
  unfold engineStep
  dsimp only
  split
  · rfl
  · rfl
  · simp only [stepEChkcap, exec_uNone, andThen_next]
    rw [show ({ s with host := h } : State).cap = s.cap from rfl]
    split <;> rfl
  · unfold stepEClone
    rw [exec_putHost _ rfl]
    refine andThen_putHost fun u => ?_
    rfl
  · unfold stepEWrhdr
    rw [exec_putHost _ rfl]
    refine andThen_putHost fun u => ?_
    rw [exec_putHost _ rfl]
    refine andThen_putHost fun u => ?_
    dsimp only
    split
    · split <;> rfl
    · rfl
  · unfold stepEWrpay
    dsimp only
    rw [show (if s.bc = 0 then exec .uLdb { s with host := h } else .next { s with host := h }) =
      putHost h (if s.bc = 0 then exec .uLdb s else .next s) by split; exact exec_putHost _ rfl _ _; rfl]
    refine andThen_putHost fun u => ?_
    rw [exec_putHost _ rfl]
    refine andThen_putHost fun u => ?_
    rw [exec_putHost _ rfl]
    refine andThen_putHost fun u => ?_
    dsimp only
    split <;> rfl
  · unfold stepDRdhdr
    rw [show ({ s with host := h } : State).cap = s.cap from rfl]
    split
    · rfl
    · rw [exec_putHost _ rfl]
      refine andThen_putHost fun u => ?_
      rw [exec_putHost _ rfl]
      refine andThen_putHost fun u => ?_
      dsimp only
      split <;> rfl
  · simp only [stepDValhdr, exec_uNone, andThen_next]
    rw [show ({ s with n := s.hsr, host := h } : State).cap = ({ s with n := s.hsr } : State).cap from rfl]
    split
    · rfl
    · split
      · rfl
      · split <;> rfl
  · unfold stepDRdpay
    rw [exec_putHost _ rfl]
    refine andThen_putHost fun u => ?_
    rw [exec_putHost _ rfl]
    refine andThen_putHost fun u => ?_
    dsimp only
    rw [show (if u.bc = 0 then exec .uStb { u with host := h } else .next { u with host := h }) =
      putHost h (if u.bc = 0 then exec .uStb u else .next u) by split; exact exec_putHost _ rfl _ _; rfl]
    refine andThen_putHost fun u => ?_
    dsimp only
    split <;> rfl
  · simp only [stepDDetprot, exec_uNone, andThen_next]
    split
    · exact readFirst_putHost fun v => by split <;> rfl
    · rfl
  · simp only [stepDRetplain, exec_uNone, andThen_next]
    refine readFirst_putHost fun v => ?_
    rw [storeFirst_putHost]
    exact andThen_putHost fun u => rfl
  · simp only [stepDValpwd, exec_uNone, andThen_next]
    refine readFirst_putHost fun v => ?_
    split
    · split
      · rfl
      · split
        · rfl
        · exact readFirst_putHost fun w => by split <;> rfl
    · rfl
  · simp only [stepDRetmsg, exec_uNone, andThen_next]
    refine readFirst_putHost fun v => ?_
    rw [storeFirst_putHost]
    refine andThen_putHost fun u => ?_
    unfold setMessageLength
    dsimp only
    split <;> rfl

end Sys2Proof.Machine
end

