-- ==== Sys2Proof/Laws/Frame.lean ====
section
/-! SUPPORT. Small lemmas on the frame and the payload. -/

namespace Sys2Proof.Machine

theorem getD_set (l : List Byte) (i a : Nat) (v : Byte) (h : a < l.length) :
    (l.set i v).getD a 0 = if i = a then v else l.getD a 0 := by
  rw [List.getD_eq_getElem?_getD, List.getElem?_set, List.getD_eq_getElem?_getD]
  by_cases hi : i = a
  · subst hi; simp [h]
  · simp [hi]

theorem embedFrom_length (k : Nat) (fs : List Bool) (out : List Byte) : (embedFrom k fs out).length = out.length := by
  induction fs generalizing k out with
  | nil => rfl
  | cons f fs ih => rw [embedFrom, ih, List.length_set]

/-- What the loop of `writeFrame` leaves at an address. -/
theorem embedFrom_getD (k : Nat) (fs : List Bool) (out : List Byte) (a : Nat) (ha : a < out.length) :
    (embedFrom k fs out).getD a 0 =
      if a % 4 = 0 ∧ k ≤ a / 4 ∧ a / 4 < k + fs.length then setLSB (out.getD a 0) (fs.getD (a / 4 - k) false) else out.getD a 0 := by
  induction fs generalizing k out with
  | nil => rw [if_neg (by simp)]; rfl
  | cons f fs ih =>
    rw [embedFrom, ih _ _ (by rw [List.length_set]; exact ha)]
    simp only [List.length_cons, EA, BPP]
    rw [getD_set _ _ _ _ ha]
    by_cases h1 : a % 4 = 0 ∧ k + 1 ≤ a / 4 ∧ a / 4 < k + 1 + fs.length
    · rw [if_pos h1, if_neg (by omega), if_pos (by omega), show a / 4 - k = (a / 4 - (k + 1)) + 1 by omega, List.getD_cons_succ]
    · rw [if_neg h1]
      by_cases h2 : 4 * k = a
      · subst h2
        rw [if_pos rfl, if_pos (by omega), show 4 * k / 4 - k = 0 by omega]; rfl
      · rw [if_neg h2, if_neg (by omega)]

theorem channelBits_length (b : List Byte) (k l : Nat) : (channelBits b k l).length = l := by simp [channelBits]

theorem channelBits_get (b : List Byte) (k l j : Nat) (h : j < l) :
    (channelBits b k l)[j]? = some (lsb (b.getD (EA (k + j)) 0)) := by
  simp [channelBits, h]

/-- One more pixel read. -/
theorem channelBits_snoc (b : List Byte) (k l : Nat) :
    channelBits b k (l + 1) = channelBits b k l ++ [lsb (b.getD (EA (k + l)) 0)] := by
  simp [channelBits, List.range_succ]

theorem readHeader_lt (b : List Byte) : readHeader b < 2 ^ 32 := by
  have := bitsToUint_lt (channelBits b 0 HDRW)
  rw [channelBits_length] at this; exact this

/-- `readPayload` byte by byte. -/
theorem readPayload_spec (b : List Byte) (n : Nat) (h : n % 8 = 0) :
    (readPayload b n).length = n / 8 ∧
      ∀ q < n / 8, (readPayload b n).getD q 0 = BitVec.ofNat 8 (bitsToUint (channelBits b (32 + 8 * q) 8)) := by
  obtain ⟨xs, h1, h2, h3⟩ := bitsToBytes_some (channelBits b HDRW n) (by rw [channelBits_length]; exact h)
  rw [channelBits_length] at h2 h3
  unfold readPayload
  rw [h1]
  refine ⟨h2, fun q hq => ?_⟩
  simp only [Option.getD_some]
  rw [List.getD_eq_getElem?_getD, h3 q hq]
  simp only [Option.getD_some]
  congr 2
  apply List.ext_getElem?
  intro r
  rw [List.getElem?_take]
  split
  · next hr => rw [List.getElem?_drop, channelBits_get _ _ _ _ (by omega), channelBits_get _ _ _ _ hr]; unfold HDRW; congr 4; omega
  · next hr => rw [List.getElem?_eq_none (by rw [channelBits_length]; omega)]

/-- A frame that is read back fitted. -/
theorem readFrame_length {b x : List Byte} (h : readFrame b = .ok x) : 32 + 8 * x.length ≤ capacity b := by
  unfold readFrame at h
  split at h
  · cases h
  split at h
  · cases h
  split at h
  · cases h
  split at h
  · cases h
  next h1 h2 h3 h4 =>
  have h := Except.ok.inj h
  rw [← h, (readPayload_spec b _ (by omega)).1]; unfold HDRW at h3; omega

/-- Where `W` stands in `X`, byte by byte. -/
theorem mem_occurrences {xs ws : List Byte} {p : Nat} (hw : 0 < ws.length) :
    p ∈ occurrences xs ws ↔ p + ws.length ≤ xs.length ∧ ∀ i < ws.length, xs.getD (p + i) 0 = ws.getD i 0 := by
  simp only [occurrences, List.mem_filter, List.mem_range, decide_eq_true_eq]
  constructor
  · rintro ⟨h1, h2⟩
    refine ⟨by omega, fun i hi => ?_⟩
    rw [← h2] 
    simp only [List.getD_eq_getElem?_getD, List.getElem?_take, List.getElem?_drop]
    rw [if_pos hi]
  · rintro ⟨h1, h2⟩
    refine ⟨by omega, List.ext_getElem (by simp; omega) fun i h3 h4 => ?_⟩
    have := h2 i h4
    simp only [List.getD_eq_getElem?_getD] at this
    rw [List.getElem?_eq_getElem (by omega), List.getElem?_eq_getElem h4] at this
    simpa using this

theorem startsWith_iff (xs ws : List Byte) :
    startsWith xs ws = true ↔ ws.length ≤ xs.length ∧ ∀ i < ws.length, xs.getD i 0 = ws.getD i 0 := by
  rw [startsWith, List.isPrefixOf_iff_prefix]
  constructor
  · rintro ⟨t, rfl⟩
    exact ⟨by simp, fun i hi => List.getD_append _ _ _ _ hi⟩
  · rintro ⟨h1, h2⟩
    rw [List.prefix_iff_eq_take]
    refine List.ext_getElem (by simp; omega) fun i h3 h4 => ?_
    have := h2 i h3
    simp only [List.getD_eq_getElem?_getD] at this
    rw [List.getElem?_eq_getElem (by omega), List.getElem?_eq_getElem h3] at this
    simpa using this.symm

theorem occurrences_nodup (xs ws : List Byte) : (occurrences xs ws).Nodup := List.Nodup.filter _ List.nodup_range

/-- The message is no longer than the payload. -/
theorem unwrap_length_le {s : State} {x m : List Byte} (h : unwrap x s.password = .ok m) : m.length ≤ x.length := by
  unfold unwrap at h
  split at h
  · split at h
    · split at h
      · cases h
      · split at h
        · cases h; simp
        · cases h
    · cases h
  · cases h; exact le_rfl

theorem bytes_take (s : State) (k : MemName) (n m : Nat) (h : m ≤ n) : (s.bytes k 0 n).take m = s.bytes k 0 m := by
  refine List.ext_getElem (by simp; omega) fun i h1 h2 => ?_
  rw [List.getElem_take, bytes_getElem, bytes_getElem]

/-- A byte sequence from its bytes. -/
theorem bytes_eq_of {s : State} {k : MemName} {x : List Byte} {len : Nat} (hl : x.length = len)
    (h : ∀ a < len, s.byteAt k a = x.getD a 0) : s.bytes k 0 len = x := by
  refine List.ext_getElem (by rw [bytes_length, hl]) fun i h1 h2 => ?_
  rw [bytes_getElem, Nat.zero_add, h i (by omega), List.getD_eq_getElem?_getD, List.getElem?_eq_getElem h2]; rfl

/-- The test of `D_DETPROT` is that of R212. -/
theorem detect_iff (t : State) :
    (11 ≤ t.extlen.toNat ∧ t.bytes .ext 0 11 = MARK) ↔
      startsWith (t.bytes .ext 0 t.extlen.toNat) MARK = true := by
  rw [startsWith, List.isPrefixOf_iff_prefix, List.prefix_iff_eq_take, MARK_length]
  constructor
  · rintro ⟨h1, h2⟩; rw [bytes_take _ _ _ _ h1, h2]
  · intro h
    have : 11 ≤ t.extlen.toNat := by
      have := congrArg List.length h; simp [MARK_length] at this; omega
    exact ⟨this, by rw [h, bytes_take _ _ _ _ this]⟩

/-- The multiplexer presents the payload of R201 (R200, R202). -/
theorem muxPayload_eq_buildPayload {s t : State} (hk : Kept s t) (hp : t.prot = t.protectedVariant) :
    t.muxPayload = buildPayload s.message s.password := by
  have e1 : ∀ a l, t.bytes .pwd a l = s.bytes .pwd a l := fun a l => bytes_congr fun i _ => by
    show t.pwd.read _ _ = s.pwd.read _ _; rw [hk.pwd]
  have e2 : ∀ a l, t.bytes .msg a l = s.bytes .msg a l := fun a l => bytes_congr fun i _ => by
    show t.msg.read _ _ = s.msg.read _ _; rw [hk.msg]
  unfold State.muxPayload State.message
  rw [hp, hk.pwdlen, hk.msglen, e1, e2]
  unfold State.protectedVariant State.password
  rw [hk.present, hk.pwdlen]
  cases s.present
  · simp [buildPayload]
  · simp only [Bool.true_and, if_true]
    by_cases h0 : 0 < s.pwdlen.toNat
    · have hl := bytes_length s .pwd 0 s.pwdlen.toNat
      rw [decide_eq_true h0, if_pos rfl]
      cases hb : s.bytes .pwd 0 s.pwdlen.toNat with
      | nil => rw [hb] at hl; simp at hl; omega
      | cons x xs => rfl
    · rw [decide_eq_false h0, if_neg (by simp)]
      rw [show s.pwdlen.toNat = 0 by omega]
      rfl

end Sys2Proof.Machine
end

