-- ==== Sys2Proof/Laws/PerInstr.lean ====
section
/-! SUPPORT. What holds of every instruction as syntax: its format. One lemma per constructor. -/

/-- An instruction of the `CMD` format is encoded as a command word whose field `zero` is 0 and whose field
`op` is at most 2 (30_encoding R91); one of the `UOP` format as a code of at most 0xA (R95). -/
def Sys2Proof.Laws.Format.Statement (i : Sys2Proof.Instr) : Prop :=
  (i.isCommand = true →
    ∃ w, Sys2Proof.encode i = .cmd w ∧ Sys2Proof.cmdZeroField w = 0 ∧ (Sys2Proof.cmdOpField w).toNat ≤ 2) ∧
  (i.isCommand = false → ∃ c, Sys2Proof.encode i = .uop c ∧ c.toNat ≤ 10)

namespace Sys2Proof.Laws.Format

open Sys2Proof

theorem nop : Statement .nop :=
  ⟨fun _ => ⟨0x00000000#32, rfl, by decide, by decide⟩, fun h => by simp [Instr.isCommand] at h⟩
theorem encode : Statement .encode :=
  ⟨fun _ => ⟨0x00000001#32, rfl, by decide, by decide⟩, fun h => by simp [Instr.isCommand] at h⟩
theorem decode : Statement .decode :=
  ⟨fun _ => ⟨0x00000002#32, rfl, by decide, by decide⟩, fun h => by simp [Instr.isCommand] at h⟩
theorem uNone : Statement .uNone :=
  ⟨fun h => by simp [Instr.isCommand] at h, fun _ => ⟨0x0#4, rfl, by decide⟩⟩
theorem uLdb : Statement .uLdb :=
  ⟨fun h => by simp [Instr.isCommand] at h, fun _ => ⟨0x1#4, rfl, by decide⟩⟩
theorem uSho : Statement .uSho :=
  ⟨fun h => by simp [Instr.isCommand] at h, fun _ => ⟨0x2#4, rfl, by decide⟩⟩
theorem uShi : Statement .uShi :=
  ⟨fun h => by simp [Instr.isCommand] at h, fun _ => ⟨0x3#4, rfl, by decide⟩⟩
theorem uStb : Statement .uStb :=
  ⟨fun h => by simp [Instr.isCommand] at h, fun _ => ⟨0x4#4, rfl, by decide⟩⟩
theorem uHld : Statement .uHld :=
  ⟨fun h => by simp [Instr.isCommand] at h, fun _ => ⟨0x5#4, rfl, by decide⟩⟩
theorem uHso : Statement .uHso :=
  ⟨fun h => by simp [Instr.isCommand] at h, fun _ => ⟨0x6#4, rfl, by decide⟩⟩
theorem uHsi : Statement .uHsi :=
  ⟨fun h => by simp [Instr.isCommand] at h, fun _ => ⟨0x7#4, rfl, by decide⟩⟩
theorem uEmb : Statement .uEmb :=
  ⟨fun h => by simp [Instr.isCommand] at h, fun _ => ⟨0x8#4, rfl, by decide⟩⟩
theorem uExt : Statement .uExt :=
  ⟨fun h => by simp [Instr.isCommand] at h, fun _ => ⟨0x9#4, rfl, by decide⟩⟩
theorem uCln : Statement .uCln :=
  ⟨fun h => by simp [Instr.isCommand] at h, fun _ => ⟨0xA#4, rfl, by decide⟩⟩

end Sys2Proof.Laws.Format
end

