-- ==== Sys2Proof/Tests/Slice0.lean ====
section
/-! SUPPORT. The model's own tests: well-formedness refuses what it should, words decode as the encoding
tables say, single steps give the values of spec/95_test_vectors.md, and every obligation with hypotheses
has a state and operands that meet them. -/

namespace Sys2Proof.Tests

open Sys2Proof Sys2Proof.Machine Sys2Proof.Claims

/-- The instance of 95_test_vectors section 3.6. -/
def small : Params where
  pixMax    := 1024
  msgMax    := 64
  pwdMax    := 16
  extMax    := 28
  busBase   := 0
  busStride := 4

/-- A memory that lists bytes from an address on. -/
def at_ (a : Nat) (vs : List Byte) : Memory := Memory.powerUp.writeList a vs

/-- The state after reset, on the small instance. -/
def base : State := { State.reset with params := small }

/-- The next state, if there is one. -/
def after : Result → Option State
  | .next t => some t
  | .fault _ => none
  | .refused _ => none

/-! ### Well-formedness: an ill-formed term for each check -/

theorem test_refuses_zero_field : (RawWord.cmd 0x00000011#32).wellFormed = false := by decide
theorem test_refuses_op : (RawWord.cmd 0x00000003#32).wellFormed = false := by decide
theorem test_refuses_uop : (RawWord.uop 0xB#4).wellFormed = false := by decide
theorem test_accepts_words :
    (RawWord.cmd 0x00000002#32).wellFormed = true ∧ (RawWord.uop 0xA#4).wellFormed = true := by decide
theorem test_refuses_pixMax : ({ small with pixMax := 2 ^ 32, extMax := 2 ^ 32 } : Params).wellFormed = false := by decide
theorem test_refuses_msgMax : ({ small with msgMax := 2 ^ 32 } : Params).wellFormed = false := by decide
theorem test_refuses_pwdMax : ({ small with pwdMax := 2 ^ 32 } : Params).wellFormed = false := by decide
theorem test_refuses_extMax : ({ small with extMax := 27 } : Params).wellFormed = false := by decide
theorem test_accepts_params : small.wellFormed = true ∧ Params.default.wellFormed = true := by decide

/-! ### Decoding, words written out from 30_encoding R91 and R95 -/

theorem test_decode_commands :
    decodeCmd 0b00000000000000000000000000000000#32 = .ok .nop ∧
    decodeCmd 0b00000000000000000000000000000001#32 = .ok .encode ∧
    decodeCmd 0b00000000000000000000000000000010#32 = .ok .decode := by decide
theorem test_decode_reserved_commands :
    decodeCmd 0x00000010#32 = .error .reservedCommand ∧ decodeCmd 0x80000002#32 = .error .reservedCommand ∧
    decodeCmd 0x0000000F#32 = .error .reservedCommand ∧ decodeCmd 0x00000102#32 = .error .reservedCommand := by decide
theorem test_decode_codec :
    decodeUop 0b0001#4 = .ok .uLdb ∧ decodeUop 0b0010#4 = .ok .uSho ∧ decodeUop 0b0011#4 = .ok .uShi ∧
    decodeUop 0b0100#4 = .ok .uStb ∧ decodeUop 0b0101#4 = .ok .uHld ∧ decodeUop 0b0110#4 = .ok .uHso ∧
    decodeUop 0b0111#4 = .ok .uHsi := by decide
theorem test_decode_cell :
    decodeUop 0b0000#4 = .ok .uNone ∧ decodeUop 0b1000#4 = .ok .uEmb ∧ decodeUop 0b1001#4 = .ok .uExt ∧
    decodeUop 0b1010#4 = .ok .uCln := by decide
theorem test_decode_reserved_uops :
    decodeUop 0b1011#4 = .error .reservedUop ∧ decodeUop 0b1111#4 = .error .reservedUop := by decide

/-! ### `STATUS` words (95_test_vectors section 1) -/

theorem test_status_words :
    (refuseCommand .illCmd 0 base).status = 0x016#32 ∧ (finish .authError 2 { base with prot := true }).status = 0x14E#32 ∧
    (finish .formatError 5 base).status = 0x0AA#32 ∧ (finish .capacityError 1 { base with prot := true }).status = 0x126#32 ∧
    base.status = 0 := by decide
theorem test_status_running :
    (acceptEncode base).status = 0x1001#32 ∧ (acceptDecode base).status = 0x8001#32 ∧
    ({ base with st := .dRetmsg, prot := true } : State).status = 0xE101#32 := by decide

/-! ### Commands (95_test_vectors sections 3.6, 3.10) -/

/-- `PIXLEN = 1024`, `MSGLEN = 65`. -/
def longMessage : State := { base with pixlen := 1024, msglen := 65 }

theorem test_nop : exec .nop longMessage = .next longMessage := rfl
theorem test_encode_accepted : exec .encode base = .next { base with st := .eBuild } := rfl
theorem test_encode_msg_depth :
    exec .encode longMessage = .next { longMessage with done := true, err := .cfgError, sub := 2 } := rfl
theorem test_decode_ignores_msglen :
    (after (exec .decode longMessage)).map (fun t => (t.status, t.outlen, t.idx)) = some (0x8001#32, 0, 0) := by decide
theorem test_decode_pix_depth :
    exec .decode { base with pixlen := 1025 } =
      .next { base with pixlen := 1025, done := true, err := .cfgError, sub := 1 } := rfl
theorem test_illcmd : (after (writeCmd 0x00000003#32 base)).map State.status = some 0x016#32 := by decide

/-! ### Shifter and packer (95_test_vectors section 3.2) -/

/-- Message `hi`, password `pw`. -/
def hi : State :=
  { base with
    msglen := 2, msg := at_ 0 [0x68, 0x69], pwdlen := 2, pwd := at_ 0 [0x70, 0x77], present := true }

theorem test_ldb_plain :
    (after (exec .uLdb { hi with bp := 1 })).map (fun t => (t.shr, t.bp)) = some (0x69#8, 2#32) := by decide
theorem test_ldb_protected :
    [0, 11, 13, 19].map (fun k => (after (exec .uLdb { hi with prot := true, bp := k })).map (fun t => (t.shr, t.bp))) =
      [some (0x5B#8, 1#32), some (0x70#8, 12#32), some (0x5B#8, 14#32), some (0x68#8, 20#32)] := by decide
theorem test_sho : exec .uSho { base with shr := 0xD0, bc := 1 } = .next { base with shr := 0xA0, bc := 2, b := true } := rfl
theorem test_sho_wraps : exec .uSho { base with shr := 0x80, bc := 7 } = .next { base with shr := 0, bc := 0, b := true } := rfl
theorem test_shi : exec .uShi { base with shr := 0x34, b := true, bc := 7 } = .next { base with shr := 0x69, b := true, bc := 0 } := rfl
theorem test_shi_loses_bit7 : exec .uShi { base with shr := 0x80, b := true, bc := 5 } = .next { base with shr := 0x01, b := true, bc := 6 } := rfl
theorem test_stb :
    (after (exec .uStb { base with shr := 0x69, bp := 1 })).map (fun t => (t.ext.cells, t.bp)) = some ([(1, 0x69#8)], 2#32) := by decide
theorem test_hld : exec .uHld { base with n := 168 } = .next { base with n := 168, hsr := 0xA8 } := rfl
theorem test_hso : exec .uHso { base with hsr := 0xFFFFFFFF } = .next { base with hsr := 0xFFFFFFFE, b := true } := rfl
theorem test_hsi : exec .uHsi { base with hsr := 0x80000001, b := true } = .next { base with hsr := 0x00000003, b := true } := rfl

/-! ### The LSB cell (95_test_vectors section 3.3) -/

theorem test_emb :
    (after (exec .uEmb { base with idx := 27, b := true, pixo := at_ 108 [0x7E] })).map (fun t => (t.pixo.cells, t.idx)) =
      some ([(108, 0x7F#8)], 28#32) := by decide
theorem test_emb_clears :
    (after (exec .uEmb { base with idx := 1, pixo := at_ 4 [0x05] })).map (fun t => (t.pixo.cells, t.idx)) =
      some ([(4, 0x04#8)], 2#32) := by decide
theorem test_ext :
    (after (exec .uExt { base with idx := 27, pixi := at_ 108 [0x87] })).map (fun t => (t.b, t.idx)) = some (true, 28#32) := by decide
theorem test_cln :
    (after (exec .uCln { base with
        pixlen := 4, pixi := at_ 0 [0x10, 0x20, 0x30, 0x40], pixo := at_ 0 [0xAA, 0xAA, 0xAA, 0xAA, 0xAA] })).map
        (fun t => t.pixo.cells) =
      some [(0, 0x10#8), (1, 0x20#8), (2, 0x30#8), (3, 0x40#8), (4, 0xAA#8)] := by decide
theorem test_none : exec .uNone hi = .next hi := rfl

/-! ### The codec, the frame and the payload (95_test_vectors sections 3.1, 3.4, 3.5) -/

theorem test_bits :
    bytesToBits [0x5B, 0x44] =
      [false, true, false, true, true, false, true, true, false, true, false, false, false, true, false, false] := by decide
theorem test_uint :
    bitsToUint (uintToBits 0x12345678#32) = 305419896 ∧ bitsToBytes (bytesToBits [0x00, 0xFF, 0x80]) = some [0x00, 0xFF, 0x80] ∧
    bitsToBytes [false, true, true, false, true, false, false] = none := by decide
theorem test_payload :
    buildPayload [0x68, 0x69] (some [0x70, 0x77]) =
      [0x5B, 0x50, 0x52, 0x4F, 0x54, 0x45, 0x43, 0x54, 0x45, 0x44, 0x5D, 0x70, 0x77, 0x5B, 0x44, 0x41, 0x54, 0x41, 0x5D, 0x68, 0x69] ∧
    buildPayload [0x68, 0x69] (some []) = [0x68, 0x69] := by decide
theorem test_split :
    occurrences (MARK ++ [0x61, 0x62, 0x5B, 0x44, 0x41] ++ SEP ++ [0x6D]) SEP = [16] ∧
    unwrap (MARK ++ SEP ++ [0x6F, 0x6B]) (some []) = .ok [0x6F, 0x6B] ∧
    unwrap (MARK ++ SEP ++ [0x6F, 0x6B]) none = .error (.authError, 1) ∧
    unwrap MARK none = .error (.formatError, 4) := by decide

/-! ### Steps of the sequencer (95_test_vectors sections 3.8, 3.10) -/

/-- Row 36 of the trace: `41` is loaded and its top bit embedded in pixel 32. -/
theorem test_wrpay_step :
    (after (stepEWrpay { base with
        st := .eWrpay, n := 8, idx := 32, pixlen := 160, msglen := 1, msg := at_ 0 [0x41], pixo := at_ 128 [0xA0] })).map
        (fun t => ((t.shr, t.bc, t.bp), t.idx, t.pixo.cells)) =
      some ((0x82#8, 1#3, 1#32), 33#32, [(128, 0xA0#8)]) := by decide
/-- Row 41: the eighth payload bit completes the byte `41` in `EXT`. -/
theorem test_rdpay_step :
    (after (stepDRdpay { base with
        st := .dRdpay, n := 8, idx := 39, pixlen := 160, shr := 0x20, bc := 7, pixi := at_ 156 [0xC3] })).map
        (fun t => ((t.shr, t.bc, t.bp), t.extlen, t.ext.cells)) =
      some ((0x41#8, 0#3, 1#32), 1#32, [(0, 0x41#8)]) := by decide
/-- The range test must not wrap: `N = 2^32 - 32`. -/
theorem test_valhdr_no_wrap :
    (after (stepDValhdr { base with st := .dValhdr, hsr := 0xFFFFFFE0, pixlen := 400 })).map State.status =
      some 0x06A#32 := by decide
/-- Range before alignment: `N = 69` and `N = 68` with `CAP = 100`. -/
theorem test_valhdr_order :
    (after (stepDValhdr { base with st := .dValhdr, hsr := 69, pixlen := 400 })).map State.status = some 0x06A#32 ∧
    (after (stepDValhdr { base with st := .dValhdr, hsr := 68, pixlen := 400 })).map State.status = some 0x0AA#32 := by decide

/-! ### Witnesses: every hypothesis of an obligation is met somewhere

`witness_<obligation>`, a clause after the other. -/

theorem witness_DecodeAndEncodeAgree :
    Instr.uEmb.wellFormed = true ∧ decode (.uop 0x8#4) = .ok .uEmb ∧ (RawWord.cmd 2).wellFormed = true := by decide

theorem witness_StepRunsTheDecodedInstruction :
    (∃ s : State, s.uops = [] ∧ s.host = .wr 0 1 :: [] ∧ decodeCmd 1 = .ok .encode) ∧
    (∃ s : State, s.uops = 0xA#4 :: [] ∧ decodeUop 0xA#4 = .ok .uCln) ∧
    (∃ s : State, s.uops = 0xB#4 :: [] ∧ 0xB ≤ (0xB#4).toNat) ∧
    (base.uops = [] ∧ decodeTableWord 8 8 = some .uEmb) :=
  ⟨⟨{ base with host := [.wr 0 1] }, rfl, rfl, by decide⟩, ⟨{ base with uops := [0xA] }, rfl, by decide⟩,
    ⟨{ base with uops := [0xB] }, rfl, by decide⟩, by decide⟩

theorem witness_EngineStepsBetweenHostMoves :
    (base.uops = [] ∧ base.host = [] ∧ base.st = .idle) ∧
    (∃ s : State, s.uops = [] ∧ s.host = .idle :: []) ∧
    (∃ s : State, s.uops = [] ∧ s.host = .wait :: [] ∧ s.done = true) ∧
    (∃ s : State, s.uops = [] ∧ s.host = .wait :: [] ∧ s.done = false) :=
  ⟨by decide, ⟨{ base with host := [.idle] }, by decide⟩, ⟨{ base with host := [.wait], done := true }, by decide⟩,
    ⟨{ base with host := [.wait] }, by decide⟩⟩

theorem witness_ReservedCommandIsRefused :
    (base.st = .idle ∧ (3#32) ≠ 0x00000000#32 ∧ (3#32) ≠ 0x00000001#32 ∧ (3#32) ≠ 0x00000002#32) ∧
    ∃ s : State, s.st = .idle ∧ s.uops = [] ∧ s.host = .wr 0 3 :: [] :=
  ⟨by decide, { base with host := [.wr 0 3] }, by decide⟩

/-- An engine in the middle of an `ENCODE`, the host writing and reading. -/
def busyWith (mv : HostMove) : State := { base with st := .eWrhdr, host := [mv] }

theorem witness_CommandWhileBusyIsIgnored :
    (busyWith (.wr 0 3)).st ≠ .idle ∧ (busyWith (.wr 0 3)).uops = [] ∧ (busyWith (.wr 0 3)).host = .wr 0 3 :: [] := by decide

theorem witness_ConfigurationCheck :
    (base.st = .idle ∧ small.pixMax < (1025#32).toNat) ∧
    ((1024#32).toNat ≤ small.pixMax ∧ small.msgMax < (65#32).toNat) ∧
    ((64#32).toNat ≤ small.msgMax ∧ small.pwdMax < (17#32).toNat) ∧
    ∃ s : State, s.st = .idle ∧ s.pixlen.toNat ≤ s.params.pixMax ∧ s.msglen.toNat ≤ s.params.msgMax ∧
      s.present = true ∧ s.params.pwdMax < s.pwdlen.toNat :=
  ⟨by decide, by decide, by decide, { base with pixlen := 1024, msglen := 64, present := true, pwdlen := 17 }, by decide⟩

theorem witness_ConfigurationCheck_depths :
    (∃ s : State, s.st = .idle ∧ s.params.pixMax < s.pixlen.toNat) ∧
    (∃ s : State, s.st = .idle ∧ s.pixlen.toNat ≤ s.params.pixMax ∧ s.params.msgMax < s.msglen.toNat) ∧
    (∃ s : State, s.st = .idle ∧ s.params = .default) :=
  ⟨⟨{ base with pixlen := 1025 }, by decide⟩, ⟨{ base with pixlen := 1024, msglen := 65 }, by decide⟩,
    ⟨State.reset, by decide⟩⟩

/-- Every operand as long as its memory is deep. -/
def full : State := { base with pixlen := 1024, msglen := 64, present := true, pwdlen := 16 }

theorem witness_EncodeIsAccepted :
    full.st = .idle ∧ full.pixlen.toNat ≤ full.params.pixMax ∧ full.msglen.toNat ≤ full.params.msgMax ∧
    (full.present = true → full.pwdlen.toNat ≤ full.params.pwdMax) := by decide
theorem witness_DecodeIsAccepted :
    full.st = .idle ∧ full.pixlen.toNat ≤ full.params.pixMax ∧
    (full.present = true → full.pwdlen.toNat ≤ full.params.pwdMax) := by decide

theorem witness_RegisterReads :
    (busyWith (.rd 9)).uops = [] ∧ (busyWith (.rd 9)).host = .rd 9 :: [] ∧ 9 ≤ 9 := by decide

theorem witness_RegisterWrites :
    ∀ r ∈ [1, 2, 3, 4, 5, 6, 9], ({ base with host := [.wr r 7] } : State).st = .idle ∧
      ({ base with host := [.wr r 7] } : State).uops = [] ∧
      ({ base with host := [.wr r 7] } : State).host = .wr r 7 :: [] := by decide

theorem witness_RegistersWhileBusy :
    (busyWith (.wr 2 800)).st ≠ .idle ∧ (busyWith (.wr 2 800)).uops = [] ∧
    (busyWith (.wr 2 800)).host = .wr 2 800 :: [] ∧ (busyWith (.rd 7)).host = .rd 7 :: [] := by decide

theorem witness_MemoryAccessWhileBusyIsRefused :
    (busyWith (.poke .msg 0 1)).st ≠ .idle ∧ (busyWith (.poke .msg 0 1)).uops = [] ∧
    (busyWith (.poke .msg 0 1)).host = .poke .msg 0 1 :: [] ∧ (busyWith (.peek .out 0)).host = .peek .out 0 :: [] := by decide

/-- The engine idle, the host accessing. -/
def idleWith (mv : HostMove) : State := { base with outlen := 2, host := [mv] }

theorem witness_HostMemoryAccess :
    ((idleWith (.poke .msg 63 1)).st = .idle ∧ (idleWith (.poke .msg 63 1)).uops = [] ∧
      (idleWith (.poke .msg 63 1)).host = .poke .msg 63 1 :: [] ∧ 63 < (idleWith (.poke .msg 63 1)).depth .msg) ∧
    ((idleWith (.peek .out 1)).host = .peek .out 1 :: [] ∧ 1 < (idleWith (.peek .out 1)).depth .out ∧
      1 < (idleWith (.peek .out 1)).outlen.toNat) ∧
    ((idleWith (.peek .pwd 15)).host = .peek .pwd 15 :: [] ∧ 15 < (idleWith (.peek .pwd 15)).depth .pwd) ∧
    ((idleWith (.poke .pixi 1024 1)).host = .poke .pixi 1024 1 :: [] ∧
      (idleWith (.poke .pixi 1024 1)).depth .pixi ≤ 1024) ∧
    ((idleWith (.peek .out 28)).host = .peek .out 28 :: [] ∧ (idleWith (.peek .out 28)).depth .out ≤ 28) := by decide

theorem witness_LoadScriptMakesBytesResident :
    ∃ s : State, s.st = .idle ∧ s.uops = [] ∧ s.host = scriptLoad .msg 62 [0x68, 0x69] ∧
      62 + [0x68#8, 0x69#8].length ≤ s.depth (HostWritable.name .msg) :=
  ⟨{ base with host := scriptLoad .msg 62 [0x68, 0x69] }, by decide⟩

theorem witness_EightShifts :
    ({ base with shr := 0x68, uops := List.replicate 8 0x2#4 } : State).uops = List.replicate 8 0x2#4 ∧ 7 < 8 ∧
    [false, true, true, false, true, false, false, true].length = 8 := by decide

theorem witness_HeaderShiftsConvertTheNumber :
    ({ base with hsr := 16, uops := List.replicate 32 0x6#4 } : State).uops = List.replicate 32 0x6#4 ∧ 31 < 32 ∧
    (uintToBits 16#32).length = 32 := by decide

theorem witness_LoadByteReadsThePayload :
    (∃ s : State, s.bp.toNat < s.payloadLength s.prot ∧ (∀ m, ¬ ByteMissing s m) ∧ s.prot = true ∧
      s.bp.toNat + 1 = s.payloadLength s.prot ∧ s.bp.toNat + 1 < 2 ^ 32) ∧
    (∃ s : State, s.bp.toNat < s.payloadLength s.prot ∧ (∀ m, ¬ ByteMissing s m) ∧ s.prot = false) ∧
    (∃ s : State, s.payloadLength s.prot ≤ s.bp.toNat ∧ s.bp.toNat + 1 < 2 ^ 32) ∧
    (∃ s : State, s.bp.toNat < s.payloadLength s.prot ∧ ByteMissing s .msg ∧ s.prot = false) ∧
    (∃ s : State, s.bp.toNat < s.payloadLength s.prot ∧ ByteMissing s .msg ∧ s.prot = true) ∧
    (∃ s : State, s.bp.toNat < s.payloadLength s.prot ∧ ByteMissing s .pwd ∧ s.prot = true) :=
  ⟨⟨{ hi with prot := true, bp := 20 }, by decide, fun m => by cases m <;> decide, by decide⟩,
    ⟨{ hi with bp := 1 }, by decide, fun m => by cases m <;> decide, by decide⟩,
    ⟨{ hi with bp := 2 }, by decide⟩,
    ⟨{ base with msglen := 65, bp := 64 }, by decide, by decide, by decide⟩,
    ⟨{ base with prot := true, msglen := 65, pwdlen := 0, bp := 81 }, by decide, by decide, by decide⟩,
    ⟨{ base with prot := true, pwdlen := 65, bp := 75 }, by decide, by decide, by decide⟩⟩

theorem witness_StoreByteWritesExt :
    (∃ s : State, s.bp.toNat < s.params.extMax ∧ s.bp.toNat + 1 = s.params.extMax ∧ s.bp.toNat + 1 < 2 ^ 32) ∧
    (∃ s : State, s.params.extMax ≤ s.bp.toNat) :=
  ⟨⟨{ base with bp := 27 }, by decide⟩, ⟨{ base with bp := 28 }, by decide⟩⟩

theorem witness_EmbedAndExtract :
    (∃ s : State, 4 * s.idx.toNat < s.params.pixMax ∧ s.idx.toNat = 255 ∧ s.idx.toNat + 1 < 2 ^ 32) ∧
    (∃ s : State, s.params.pixMax ≤ 4 * s.idx.toNat ∧ s.idx.toNat = 256) :=
  ⟨⟨{ base with idx := 255 }, by decide⟩, ⟨{ base with idx := 256 }, by decide⟩⟩

theorem witness_CloneCopiesTheBuffer :
    (∃ s : State, s.pixlen.toNat ≤ s.params.pixMax ∧ s.pixlen.toNat = 1024) ∧
    (∃ s : State, s.params.pixMax < s.pixlen.toNat) :=
  ⟨⟨{ base with pixlen := 1024 }, by decide⟩, ⟨{ base with pixlen := 1025 }, by decide⟩⟩

theorem witness_CodecLaws :
    1 ≤ 7 ∧ 1 < [0x68#8, 0x69#8].length ∧ (bytesToBits [0x68#8, 0x69#8]).length % 8 = 0 ∧ (uintToBits 8#32).length = 32 := by decide

theorem witness_WriteFrameFootprint :
    HDRW + 8 * [0x41#8].length ≤ capacity (List.replicate 160 0x7F#8) ∧ 128 < (List.replicate 160 0x7F#8).length := by
  simp [HDRW, BPP, capacity]

theorem witness_FrameRoundTrip :
    ((List.replicate 160 0x7F#8).length < 2 ^ 32 ∧ HDRW + 8 * [0x41#8].length ≤ capacity (List.replicate 160 0x7F#8) ∧
      1 ≤ [0x41#8].length) ∧
    (HDRW + 8 * ([] : List Byte).length ≤ capacity (List.replicate 128 0x7F#8) ∧ ([] : List Byte).length = 0) := by
  simp [HDRW, BPP, capacity]

theorem witness_SeparatorsStandApart :
    11 ∈ occurrences (MARK ++ SEP ++ SEP) SEP ∧ 17 ∈ occurrences (MARK ++ SEP ++ SEP) SEP ∧ 11 < 17 ∧
    startsWith (MARK ++ SEP ++ SEP) MARK = true := by decide

theorem witness_ProtectedPayloadUnwraps :
    ([0x70#8, 0x77#8] ≠ [] ∧ occ [0x70#8, 0x77#8] SEP = 0 ∧ occ [0x68#8] SEP = 0 ∧ [0x50#8, 0x57#8] ≠ [0x70#8, 0x77#8]) ∧
    (occ (0x70#8 :: SEP) SEP ≠ 0 ∨ occ [0x68#8] SEP ≠ 0) ∧ (occ [0x70#8] SEP ≠ 0 ∨ occ (0x61#8 :: SEP) SEP ≠ 0) := by decide

theorem witness_CapacityBoundary :
    HDRW ≤ capacity (List.replicate 128 0#8) ∧ capacity (List.replicate 127 0#8) < HDRW ∧
    (capacity (List.replicate 128 0#8) - 32) / 8 < (buildPayload [0x41] none).length := by
  simp [HDRW, BPP, capacity, buildPayload]

/-! ### Witnesses with the invariant -/

/-- The memory part of the invariant, from a finite check. -/
theorem memOk_of {s : State}
    (h : ∀ m ∈ [MemName.pixi, .pixo, .msg, .pwd, .ext, .out], (s.mem m).wf ∧ ∀ c ∈ (s.mem m).cells, c.1 < s.depth m) :
    s.MemOk := fun m => h m (by cases m <;> decide)

/-- An `ENCODE` of the one byte `A` into 160 bytes. -/
def enc : State := { base with pixlen := 160, msglen := 1, msg := at_ 0 [0x41], pixo := at_ 0 [0x00, 0x01], paylen := 1, n := 8 }

theorem witness_EncoderDecidingSteps :
    ({ enc with st := .eBuild } : State).st = .eBuild ∧
    (∃ s : State, s.st = .eChkcap ∧ s.pixlen.toNat / 4 < 32 + 8 * s.paylen.toNat ∧ s.pixlen.toNat = 159) ∧
    (∃ s : State, s.st = .eChkcap ∧ 32 + 8 * s.paylen.toNat ≤ s.pixlen.toNat / 4 ∧ s.pixlen.toNat = 160) :=
  ⟨rfl, ⟨{ enc with st := .eChkcap, pixlen := 159 }, by decide⟩, ⟨{ enc with st := .eChkcap }, by decide⟩⟩

/-- The invariant, from a finite check and the sequencer state's own clause. -/
theorem inv_of {s : State}
    (h : (∀ m ∈ [MemName.pixi, .pixo, .msg, .pwd, .ext, .out], (s.mem m).wf ∧ ∀ c ∈ (s.mem m).cells, c.1 < s.depth m) ∧
      s.params.wellFormed = true ∧ s.uops = [] ∧ (s.busy = true → s.done = false) ∧ (s.done = false → s.err = .none) ∧
      legalEnding s.err s.sub = true) (hp : s.PhaseOk) : s.Inv :=
  ⟨memOk_of h.1, h.2.1, h.2.2.1, h.2.2.2.1, h.2.2.2.2.1, h.2.2.2.2.2, hp⟩

theorem witness_CloneStep : ∃ s : State, s.Inv ∧ s.st = .eClone :=
  ⟨{ enc with st := .eClone }, inv_of (by decide) (by simp only [State.PhaseOk, State.BuiltOk, State.FitsOk]; decide), rfl⟩

/-- The header is being written; what is left of it is in `HSR`. -/
def wrhdr (n idx : Word) (len : Word) : State :=
  { enc with st := .eWrhdr, n := n, idx := idx, msglen := len, paylen := len.setWidth 34, hsr := 0x80000000 }

theorem witness_WriteHeaderStep :
    (∃ s : State, s.Inv ∧ s.st = .eWrhdr ∧ s.idx.toNat + 1 ≠ 32) ∧
    (∃ s : State, s.Inv ∧ s.st = .eWrhdr ∧ s.idx.toNat + 1 = 32 ∧ s.n = 0) ∧
    (∃ s : State, s.Inv ∧ s.st = .eWrhdr ∧ s.idx.toNat + 1 = 32 ∧ s.n ≠ 0) :=
  ⟨⟨wrhdr 8 30 1, inv_of (by decide) (by simp only [State.PhaseOk, wrhdr, State.BuiltOk, State.FitsOk]; decide), by decide⟩,
    ⟨wrhdr 0 31 0, inv_of (by decide) (by simp only [State.PhaseOk, wrhdr, State.BuiltOk, State.FitsOk]; decide), by decide⟩,
    ⟨wrhdr 8 31 1, inv_of (by decide) (by simp only [State.PhaseOk, wrhdr, State.BuiltOk, State.FitsOk]; decide), by decide⟩⟩

theorem witness_WritePayloadStep :
    (∃ s : State, s.Inv ∧ s.st = .eWrpay ∧ s.bc = 0 ∧ s.idx.toNat + 1 ≠ 32 + s.n.toNat) ∧
    (∃ s : State, s.Inv ∧ s.st = .eWrpay ∧ s.bc ≠ 0 ∧ s.idx.toNat + 1 = 32 + s.n.toNat) :=
  ⟨⟨{ enc with st := .eWrpay, idx := 32 },
      inv_of (by decide) (by simp only [State.PhaseOk, State.BuiltOk, State.FitsOk]; decide), by decide⟩,
    ⟨{ enc with st := .eWrpay, idx := 39, bc := 7, bp := 1, shr := 0x80 },
      inv_of (by decide) (by simp only [State.PhaseOk, State.BuiltOk, State.FitsOk]; decide), by decide⟩⟩

/-- A `DECODE` of a buffer with 40 pixels. -/
def dec : State := { base with pixlen := 160, n := 8 }

theorem witness_DecoderReadingSteps_header :
    (∃ s : State, s.Inv ∧ s.st = .dRdhdr ∧ s.cap < 32 ∧ s.cap = 31) ∧
    (∃ s : State, s.Inv ∧ s.st = .dRdhdr ∧ 32 ≤ s.cap ∧ s.cap = 32 ∧ s.idx.toNat + 1 = 32) :=
  ⟨⟨{ dec with st := .dRdhdr, pixlen := 127 }, inv_of (by decide) (by simp only [State.PhaseOk]; decide), by decide⟩,
    ⟨{ dec with st := .dRdhdr, pixlen := 128, idx := 31 }, inv_of (by decide) (by simp only [State.PhaseOk]; decide), by decide⟩⟩

theorem witness_DecoderReadingSteps_payload :
    (∃ s : State, s.Inv ∧ s.st = .dRdpay ∧ s.bc ≠ 7 ∧ s.idx.toNat + 1 ≠ 32 + s.n.toNat) ∧
    (∃ s : State, s.Inv ∧ s.st = .dRdpay ∧ s.bc = 7 ∧ s.idx.toNat + 1 = 32 + s.n.toNat) :=
  ⟨⟨{ dec with st := .dRdpay, idx := 32 }, inv_of (by decide) (by simp only [State.PhaseOk]; decide), by decide⟩,
    ⟨{ dec with st := .dRdpay, idx := 39, bc := 7, shr := 0x20 }, inv_of (by decide) (by simp only [State.PhaseOk]; decide), by decide⟩⟩

theorem witness_ValidateHeaderStep :
    (∃ s : State, s.st = .dValhdr ∧ s.hsr.toNat = 0) ∧
    (∃ s : State, s.st = .dValhdr ∧ s.hsr.toNat ≠ 0 ∧ s.pixlen.toNat / 4 < 32 + s.hsr.toNat) ∧
    (∃ s : State, s.st = .dValhdr ∧ s.hsr.toNat ≠ 0 ∧ 32 + s.hsr.toNat ≤ s.pixlen.toNat / 4 ∧ s.hsr.toNat % 8 ≠ 0) ∧
    (∃ s : State, s.st = .dValhdr ∧ s.hsr.toNat ≠ 0 ∧ 32 + s.hsr.toNat ≤ s.pixlen.toNat / 4 ∧ s.hsr.toNat % 8 = 0) :=
  ⟨⟨{ dec with st := .dValhdr }, by decide⟩, ⟨{ dec with st := .dValhdr, hsr := 9 }, by decide⟩,
    ⟨{ dec with st := .dValhdr, hsr := 7 }, by decide⟩, ⟨{ dec with st := .dValhdr, hsr := 8 }, by decide⟩⟩

/-- A `DECODE` of 1000 bytes whose extracted payload is the one given. -/
def got (st : SeqState) (prot : Bool) (x : List Byte) : State :=
  { base with
    st := st, prot := prot, pixlen := 1000, n := BitVec.ofNat 32 (8 * x.length)
    extlen := BitVec.ofNat 32 x.length, ext := at_ 0 x }

/-- The payload of program P2: message `hi`, password `pw`. -/
def p2 : List Byte := MARK ++ [0x70, 0x77] ++ SEP ++ [0x68, 0x69]

theorem witness_DetectAndReturnPlainSteps :
    (∃ s : State, s.Inv ∧ s.st = .dDetprot ∧ (11 ≤ s.extlen.toNat ∧ s.bytes .ext 0 11 = MARK) ∧ s.extlen.toNat = 11) ∧
    (∃ s : State, s.Inv ∧ s.st = .dDetprot ∧ ¬ (11 ≤ s.extlen.toNat ∧ s.bytes .ext 0 11 = MARK) ∧ s.extlen.toNat = 10) ∧
    (∃ s : State, s.Inv ∧ s.st = .dRetplain) :=
  ⟨⟨got .dDetprot false MARK, inv_of (by decide) (by simp only [State.PhaseOk, got, State.ExtractedOk]; decide), by decide⟩,
    ⟨got .dDetprot false (MARK.take 10), inv_of (by decide) (by simp only [State.PhaseOk, got, State.ExtractedOk]; decide), by decide⟩,
    ⟨got .dRetplain false [0x41], inv_of (by decide) (by simp only [State.PhaseOk, got, State.ExtractedOk]; decide), rfl⟩⟩

theorem witness_ValidatePasswordStep_count :
    ∃ s : State, s.Inv ∧ s.st = .dValpwd ∧ occ (s.bytes .ext 0 s.extlen.toNat) SEP ≠ 1 :=
  ⟨got .dValpwd true MARK, inv_of (by decide) (by simp only [State.PhaseOk, got, State.ExtractedOk]; decide), by decide⟩

/-- `p2` extracted, `PWDLEN` and `PWD` as given. -/
def asked (present : Bool) (q : List Byte) : State :=
  { got .dValpwd true p2 with present := present, pwdlen := BitVec.ofNat 32 q.length, pwd := at_ 0 q }

theorem witness_ValidatePasswordStep :
    (∃ s : State, s.Inv ∧ s.st = .dValpwd ∧ occurrences (s.bytes .ext 0 s.extlen.toNat) SEP = [13] ∧ s.present = false) ∧
    (∃ s : State, s.Inv ∧ s.st = .dValpwd ∧ occurrences (s.bytes .ext 0 s.extlen.toNat) SEP = [13] ∧ s.present = true ∧
      (s.pwdlen.toNat : Int) ≠ 13 - 11) ∧
    (∃ s : State, s.Inv ∧ s.st = .dValpwd ∧ occurrences (s.bytes .ext 0 s.extlen.toNat) SEP = [13] ∧ s.present = true ∧
      (s.pwdlen.toNat : Int) = 13 - 11 ∧ ∃ i < s.pwdlen.toNat, s.byteAt .pwd i ≠ s.byteAt .ext (11 + i)) ∧
    (∃ s : State, s.Inv ∧ s.st = .dValpwd ∧ occurrences (s.bytes .ext 0 s.extlen.toNat) SEP = [13] ∧ s.present = true ∧
      (s.pwdlen.toNat : Int) = 13 - 11 ∧ ∀ i < s.pwdlen.toNat, s.byteAt .pwd i = s.byteAt .ext (11 + i)) :=
  ⟨⟨asked false [], inv_of (by decide) (by simp only [State.PhaseOk, asked, got, State.ExtractedOk]; decide), by decide⟩,
    ⟨asked true [0x70], inv_of (by decide) (by simp only [State.PhaseOk, asked, got, State.ExtractedOk]; decide), by decide⟩,
    ⟨asked true [0x50, 0x57], inv_of (by decide) (by simp only [State.PhaseOk, asked, got, State.ExtractedOk]; decide),
      by decide, by decide, by decide, by decide, 0, by decide, by decide⟩,
    ⟨asked true [0x70, 0x77], inv_of (by decide) (by simp only [State.PhaseOk, asked, got, State.ExtractedOk]; decide), by decide⟩⟩

theorem witness_ReturnMessageStep : ∃ s : State, s.Inv ∧ s.st = .dRetmsg ∧ s.spos.toNat + 6 ≤ s.extlen.toNat :=
  ⟨{ got .dRetmsg true p2 with spos := 13 },
    inv_of (by decide) (by simp only [State.PhaseOk, got, State.ExtractedOk]; decide), by decide⟩

theorem witness_ResetMove :
    (idleWith .rst).uops = [] ∧ (idleWith .rst).host = .rst :: [] ∧ (idleWith .rst).st = .idle ∧
    (busyWith .rst).host = .rst :: [] ∧ (busyWith .rst).st.encoding = true ∧
    ({ dec with st := .dRdpay, host := [.rst] } : State).st.decoding = true := by decide

/-! ### Witnesses of the machine as a whole -/

theorem witness_Invariant : ∃ s t : State, s.Inv ∧ s.host = [] ∧ step s = .next t ∧ engineStep s = .next t ∧ s.st ≠ .idle :=
  ⟨{ enc with st := .eChkcap }, { enc with st := .eClone },
    inv_of (by decide) (by simp only [State.PhaseOk, State.BuiltOk]; decide), rfl, rfl, rfl, by decide⟩

theorem witness_EngineFootprint_success :
    ∃ s : State, ∃ t, engineStep s = .next t ∧ s.st = .dRetplain ∧ t.st = .idle ∧ t.done = true ∧ t.err = .none :=
  ⟨got .dRetplain false [0x41], _, rfl, rfl, rfl, rfl, rfl⟩

theorem witness_HostCannotSeeExt :
    (∃ s t : State, s.st = .idle ∧ s.uops = [] ∧ s.host = .rd 1 :: [] ∧ step s = .next t) ∧
    (∃ s : State, ∃ f, s.st = .idle ∧ s.uops = [] ∧ s.host = .peek .pwd 16 :: [] ∧ step s = .fault f) :=
  ⟨⟨idleWith (.rd 1), _, rfl, rfl, rfl, rfl⟩, ⟨idleWith (.peek .pwd 16), _, rfl, rfl, rfl, rfl⟩⟩

/-- A host ready to encode the byte `A` into 160 bytes, without a password or with the password `p`. -/
def ready (protect : Bool) : State :=
  { base with
    pixlen := if protect then 304 else 160, msglen := 1, msg := at_ 0 [0x41], pwdlen := 1, pwd := at_ 0 [0x70], present := protect }

theorem ready_Ready (protect : Bool) : Ready (ready protect) := by
  cases protect <;> exact ⟨rfl, rfl, inv_of (by decide) trivial⟩

theorem witness_AgreesWithTheOperation :
    Ready (ready true) ∧ configCheck true (ready true) = none ∧ configCheck false (ready true) = none :=
  ⟨ready_Ready true, by decide⟩

/-- 160 bytes and one byte of message: the frame fills every pixel. -/
theorem witness_PlainRoundTripOnTheMachine :
    Ready (ready false) ∧ configCheck true (ready false) = none ∧ (ready false).protectedVariant = false ∧
    1 ≤ (ready false).msglen.toNat ∧ startsWith (ready false).message MARK = false ∧
    32 + 8 * (ready false).msglen.toNat ≤ (ready false).cap :=
  ⟨ready_Ready false, by decide⟩

theorem witness_ProtectedRoundTripOnTheMachine :
    ∃ s : State, Ready s ∧ configCheck true s = none ∧ s.protectedVariant = true ∧
      occ (s.bytes .pwd 0 s.pwdlen.toNat) SEP = 0 ∧ occ s.message SEP = 0 ∧
      32 + 8 * (s.msglen.toNat + s.pwdlen.toNat + 17) ≤ s.cap :=
  ⟨{ ready true with pixlen := 736 }, ⟨rfl, rfl, inv_of (by decide) trivial⟩, by decide⟩

/-- A state from which the pixels are carried over, and one that decodes them; with the password `p`, with none,
and with another. -/
theorem witness_Carried :
    ∃ u v w x : State, Carried u v ∧ Carried u w ∧ Carried u x ∧ v.password = (ready true).password ∧
      w.password = none ∧ x.password ≠ none ∧ x.password ≠ (ready true).password :=
  ⟨{ ready true with pixlen := 4, pixo := at_ 0 [1, 2, 3, 4] }, { ready true with pixlen := 4, pixi := at_ 0 [1, 2, 3, 4] },
    { ready false with pixlen := 4, pixi := at_ 0 [1, 2, 3, 4] },
    { ready true with pixlen := 4, pixi := at_ 0 [1, 2, 3, 4], pwd := at_ 0 [0x71] },
    ⟨⟨rfl, rfl, inv_of (by decide) trivial⟩, by decide, by decide, by decide⟩, ⟨⟨rfl, rfl, inv_of (by decide) trivial⟩, by decide, by decide, by decide⟩,
    ⟨⟨rfl, rfl, inv_of (by decide) trivial⟩, by decide, by decide, by decide⟩, by decide⟩

set_option maxRecDepth 20000 in
/-- Two states that differ in a bit 1 of channel 0, and in everything a `DECODE` does not look at; and two
that differ in bit 0 of the first pixel beyond the frame. -/
theorem witness_DecodeDependsOnItsOperandsOnly :
    (∃ s s' : State, Ready s ∧ Ready s' ∧ configCheck false s = none ∧ configCheck false s' = none ∧
      s.pixlen = s'.pixlen ∧ s.password = s'.password ∧ s.cap < HDRW ∧ s ≠ s') ∧
    (∃ s s' : State, Ready s ∧ Ready s' ∧ configCheck false s = none ∧ configCheck false s' = none ∧
      s.pixlen = s'.pixlen ∧ s.password = s'.password ∧ HDRW ≤ s.cap ∧
      (∀ k < s.cap, k < HDRW + readHeader s.pixels →
        (s.byteAt .pixi (4 * k)).getLsbD 0 = (s'.byteAt .pixi (4 * k)).getLsbD 0) ∧
      (s.byteAt .pixi 128).getLsbD 0 ≠ (s'.byteAt .pixi 128).getLsbD 0 ∧ 128 < s.pixlen.toNat) :=
  ⟨⟨{ ready true with pixlen := 4, pixi := at_ 0 [0x01] }, { ready true with pixlen := 4, msglen := 9, pixi := at_ 0 [0xFF] },
      ⟨rfl, rfl, inv_of (by decide) trivial⟩, ⟨rfl, rfl, inv_of (by decide) trivial⟩, by decide⟩,
    ⟨{ ready true with pixlen := 132, pixi := at_ 0 (List.replicate 128 0 ++ [1]) },
      { ready true with pixlen := 132, pixi := at_ 0 (List.replicate 129 0) },
      ⟨rfl, rfl, inv_of (by decide) trivial⟩, ⟨rfl, rfl, inv_of (by decide) trivial⟩, by decide⟩⟩

/-! ### Witnesses of the host scripts -/

theorem witness_HostDecisionsChangeItsMovesOnly :
    (∃ s : State, s.uops = [] ∧ s.host = .ifOk 1 :: [.idle] ∧ s.reads = 0x016 :: []) ∧
    (∃ s : State, s.uops = [] ∧ s.host = .dumpRead .out :: [] ∧ s.reads = 2 :: [0x002]) ∧
    (∃ s : State, s.uops = [] ∧ s.host = .loadRead .pixi [0x68#8, 0x69#8].length :: [] ∧
      s.reads = readBack [0x68, 0x69] ++ [0x002]) :=
  ⟨⟨{ base with host := [.ifOk 1, .idle], reads := [0x016] }, by decide⟩,
    ⟨{ base with host := [.dumpRead .out], reads := [2, 0x002] }, by decide⟩,
    ⟨{ base with host := [.loadRead .pixi 2], reads := [0x69, 0x68, 0x002] }, by decide⟩⟩

/-- The scripts of R107, line by line: the reads of the result stand behind the test of `ERR`. -/
theorem test_decode_script :
    scriptDecode [0x07] none =
      [.poke .pixi 0 0x07, .wr 2 1, .wr 5 0, .wr 0 2, .wait, .rd 1, .ifOk 2, .rd 6, .dumpRead .out] := by decide

theorem test_encode_script :
    scriptEncode [0x07] [0x68] (some [0x70]) =
      [.poke .pixi 0 0x07, .wr 2 1, .poke .msg 0 0x68, .wr 3 1, .poke .pwd 0 0x70, .wr 4 1, .wr 5 1,
        .wr 0 1, .wait, .rd 1, .ifOk 1, .peek .pixo 0] := by decide

/-- A host about to run a script on the small instance. -/
def scripted (moves : List HostMove) : State := { base with host := moves }

theorem scripted_ok (moves : List HostMove) : (scripted moves).Inv ∧ (scripted moves).st = .idle :=
  let ⟨h1, h2, h3, h4, h5, h6, h7⟩ : base.Inv := inv_of (by decide) trivial
  ⟨⟨h1, h2, h3, h4, h5, h6, h7⟩, rfl⟩

/-- 160 bytes whose low bits are all 0. -/
def image : List Byte := List.replicate 160 0x7E

set_option maxRecDepth 20000 in
/-- Both scripts, an operation that fails and one that succeeds. -/
theorem witness_ScriptsReturnTheSourcesResults :
    ((scripted (scriptEncode image [0x41] none)).Inv ∧ (scripted (scriptDecode image (some [0x70]))).Inv) ∧
    (image.length ≤ small.pixMax ∧ [0x41#8].length ≤ small.msgMax ∧ [0x70#8].length ≤ small.pwdMax) ∧
    sourceEncode image [0x41] none = .ok (writeFrame image [0x41]) ∧
    sourceEncode image [0x41] (some [0x70]) = .error (.capacityError, subCapExceeded) ∧
    sourceDecode image none = .error (.formatError, subLenZero) ∧
    sourceDecode (writeFrame image [0x41]) none = .ok [0x41] :=
  ⟨⟨(scripted_ok _).1, (scripted_ok _).1⟩, by decide, by decide, by decide, by decide, by decide⟩

set_option maxRecDepth 20000 in
/-- The composition with an encode that fails, with a decode that fails (the empty message), with one that
succeeds. -/
theorem witness_RoundTripScriptIsTheComposition :
    ((scripted (scriptRoundTrip image [0x41] none none)).Inv ∧ (scripted (scriptRoundTrip image [] none none)).Inv) ∧
    (image.length ≤ small.pixMax ∧ [0x41#8].length ≤ small.msgMax) ∧
    sourceEncode image [0x41] (some [0x70]) = .error (.capacityError, subCapExceeded) ∧
    (sourceEncode image [] none = .ok (writeFrame image []) ∧
      sourceDecode (writeFrame image []) none = .error (.formatError, subLenZero)) ∧
    (sourceEncode image [0x41] none = .ok (writeFrame image [0x41]) ∧
      sourceDecode (writeFrame image [0x41]) none = .ok [0x41]) :=
  ⟨⟨(scripted_ok _).1, (scripted_ok _).1⟩, by decide, by decide, by decide, by decide⟩

end Sys2Proof.Tests
end

section
/-! The BitStream codec (40_bitstream_codec): length and order of the bits of `bytesToBits` (R130). -/

namespace Sys2Proof.Machine

theorem bytesToBits_length (xs : List Byte) : (bytesToBits xs).length = 8 * xs.length := by
  induction xs with
  | nil => rfl
  | cons x xs ih => simp only [bytesToBits_cons, List.length_append, byteBits_length, ih, List.length_cons]; omega

/-- The bits of the first byte come first. -/
theorem bytesToBits_cons_get_lt (x : Byte) (xs : List Byte) (r : Nat) (h : r < 8) :
    (bytesToBits (x :: xs))[r]? = some (x.getLsbD (7 - r)) := by
  rw [bytesToBits_cons, List.getElem?_append_left (by rwa [byteBits_length]), byteBits_get x r h]

/-- From bit 8 on stand the bits of the other bytes. -/
theorem bytesToBits_cons_get_add_eight (x : Byte) (xs : List Byte) (i : Nat) :
    (bytesToBits (x :: xs))[8 + i]? = (bytesToBits xs)[i]? := by
  rw [bytesToBits_cons, ← byteBits_length x, List.getElem?_append_right (Nat.le_add_right _ _), Nat.add_sub_cancel_left]

/-- R130, bit by bit. -/
theorem bytesToBits_get (xs : List Byte) (q : Nat) (h : q < xs.length) (r : Nat) (hr : r < 8) :
    (bytesToBits xs)[8 * q + r]? = some (xs[q].getLsbD (7 - r)) := by
  induction xs generalizing q with
  | nil => cases h
  | cons x xs ih =>
    cases q with
    | zero => simpa using bytesToBits_cons_get_lt x xs r hr
    | succ q =>
      have hq : q < xs.length := Nat.lt_of_succ_lt_succ h
      calc (bytesToBits (x :: xs))[8 * (q + 1) + r]?
          = (bytesToBits (x :: xs))[8 + (8 * q + r)]? := by congr 1; omega
        _ = (bytesToBits xs)[8 * q + r]? := bytesToBits_cons_get_add_eight x xs _
        _ = some (xs[q].getLsbD (7 - r)) := ih q hq

/-- Settles O29: the length and the bit order of `bytesToBits`, each by induction on the bytes. -/
theorem bytesToBitsIsMostSignificantFirst : Obligations.BytesToBitsIsMostSignificantFirst :=
  fun xs => ⟨bytesToBits_length xs, bytesToBits_get xs⟩

end Sys2Proof.Machine
end

section
/-! The engine always gets on: a bound on the steps a running command has still to make, which every step
lowers (45_encode section 3, 46_decode section 3). -/

namespace Sys2Proof.Machine

/-! ### The pixel a running command works on (R163) -/

/-- A command that runs has passed the configuration check: its pixel buffer fits its memory (R224). -/
theorem State.Inv.pixlen_le {s : State} (h : s.Inv) (hst : s.st ≠ .idle) : s.pixlen.toNat ≤ s.params.pixMax := by
  have hph := h.phaseOk
  cases hs : s.st with
  | idle => exact absurd hs hst
  | eBuild =>
    simp only [State.PhaseOk, hs] at hph
    exact ((configCheck_eq_none _ _).1 hph).1
  | eChkcap | eClone | eWrhdr | eWrpay | dRdhdr | dValhdr | dRdpay | dDetprot | dRetplain | dValpwd | dRetmsg =>
    simp only [State.PhaseOk, hs] at hph
    exact ((configCheck_eq_none _ _).1 hph.1).1

/-- A pixel of the buffer exists, and `IDX` can be counted up there (R22). -/
theorem State.Inv.pixel_exists {s : State} (h : s.Inv) (hst : s.st ≠ .idle) (hi : s.idx.toNat < s.cap) :
    EA s.idx.toNat < s.params.pixMax ∧ s.idx.toNat + 1 < 2 ^ 32 := by
  have hcap := cap_lt s
  exact ⟨EA_lt_pixMax (h.pixlen_le hst) hi, by omega⟩

theorem State.Inv.eWrhdr_idx_lt {s : State} (h : s.Inv) (hst : s.st = .eWrhdr) : s.idx.toNat < s.cap := by
  have hph := h.phaseOk
  simp only [State.PhaseOk, hst] at hph
  obtain ⟨-, -, ⟨-, hfit⟩, hi⟩ := hph
  omega

theorem State.Inv.eWrpay_idx_lt {s : State} (h : s.Inv) (hst : s.st = .eWrpay) : s.idx.toNat < s.cap := by
  have hph := h.phaseOk
  simp only [State.PhaseOk, hst] at hph
  obtain ⟨-, -, ⟨-, hfit⟩, -, hi, -⟩ := hph
  omega

theorem State.Inv.dRdhdr_idx_lt {s : State} (h : s.Inv) (hst : s.st = .dRdhdr) : s.idx.toNat < HDRW := by
  have hph := h.phaseOk
  simp only [State.PhaseOk, hst] at hph
  obtain ⟨-, -, -, hi⟩ := hph
  exact hi

/-- While the payload is read, `IDX` is one of its pixels, and they are pixels of the buffer. -/
theorem State.Inv.dRdpay_idx_lt {s : State} (h : s.Inv) (hst : s.st = .dRdpay) :
    s.idx.toNat < HDRW + s.n.toNat ∧ s.idx.toNat < s.cap := by
  have hph := h.phaseOk
  simp only [State.PhaseOk, hst] at hph
  obtain ⟨-, -, -, hfit, -, -, hi, -⟩ := hph
  omega

/-- The store that completes a byte finds its address in `EXT` (R69). -/
theorem State.Inv.dRdpay_store_exists {s : State} (h : s.Inv) (hst : s.st = .dRdpay) (hbc : s.bc + 1 = 0) :
    s.bp.toNat < s.params.extMax ∧ s.bp.toNat + 1 < 2 ^ 32 := by
  have hpix := h.pixlen_le (by simp [hst])
  have hph := h.phaseOk
  simp only [State.PhaseOk, hst] at hph
  obtain ⟨-, -, -, hfit, hn, -, hi, hbc', hbp⟩ := hph
  rw [(bc_succ_eq_zero s.bc).1 hbc] at hbc'
  have hcap := cap_lt s
  have hle : s.n.toNat / 8 ≤ s.params.extMax :=
    Params.le_extMax h.paramsOk hpix (by unfold State.cap BPP at hfit; omega)
  omega

/-! ### The step of the engine under the invariant -/

/-- In every state with the invariant the engine's step answers a next state, which has it again. -/
theorem engineStep_inv {s : State} (h : s.Inv) : ∃ t, engineStep s = .next t ∧ t.Inv := by
  cases hst : s.st with
  | idle => exact ⟨s, engineStep_idle hst, h⟩
  | eBuild => rw [engineStep_eBuild hst]; exact stepEBuild_inv h hst
  | eChkcap => rw [engineStep_eChkcap hst]; exact stepEChkcap_inv h hst
  | eClone => rw [engineStep_eClone hst]; exact stepEClone_inv h hst
  | eWrhdr => rw [engineStep_eWrhdr hst]; exact stepEWrhdr_inv h hst
  | eWrpay => rw [engineStep_eWrpay hst]; exact stepEWrpay_inv h hst
  | dRdhdr => rw [engineStep_dRdhdr hst]; exact stepDRdhdr_inv h hst
  | dValhdr => rw [engineStep_dValhdr hst]; exact stepDValhdr_inv h hst
  | dRdpay => rw [engineStep_dRdpay hst]; exact stepDRdpay_inv h hst
  | dDetprot => rw [engineStep_dDetprot hst]; exact stepDDetprot_inv h hst
  | dRetplain => rw [engineStep_dRetplain hst]; exact stepDRetplain_inv h hst
  | dValpwd => rw [engineStep_dValpwd hst]; exact stepDValpwd_inv h hst
  | dRetmsg => rw [engineStep_dRetmsg hst]; exact stepDRetmsg_inv h hst

/-! ### The variant -/

/-- A bound on the steps until `IDLE`: the pixels still ahead, and the steps that take none. -/
def State.stepsLeft (s : State) : Nat :=
  match s.st with
  | .idle => 0
  | .eBuild => s.cap + 3
  | .eChkcap => s.cap + 2
  | .eClone => s.cap + 1
  | .eWrhdr | .eWrpay => s.cap - s.idx.toNat
  | .dRdhdr | .dValhdr => s.cap - s.idx.toNat + 5
  | .dRdpay => s.cap - s.idx.toNat + 4
  | .dDetprot => 3
  | .dValpwd => 2
  | .dRetplain | .dRetmsg => 1

theorem stepEChkcap_stepsLeft {s t : State} (hst : s.st = .eChkcap) (ht : stepEChkcap s = .next t) :
    t.stepsLeft < s.stepsLeft := by
  have hs : s.stepsLeft = s.cap + 2 := by simp [State.stepsLeft, hst]
  rw [stepEChkcap_eq] at ht
  split at ht <;> cases ht
  · show s.cap + 1 < s.stepsLeft; omega
  · show 0 < s.stepsLeft; omega

theorem stepEClone_stepsLeft {s t : State} (h : s.Inv) (hst : s.st = .eClone) (ht : stepEClone s = .next t) :
    t.stepsLeft < s.stepsLeft := by
  have hs : s.stepsLeft = s.cap + 1 := by simp [State.stepsLeft, hst]
  rw [stepEClone_eq s (h.pixlen_le (by simp [hst]))] at ht
  cases ht
  show s.cap - 0 < s.stepsLeft
  omega

theorem stepEWrhdr_stepsLeft {s t : State} (h : s.Inv) (hst : s.st = .eWrhdr) (ht : stepEWrhdr s = .next t) :
    t.stepsLeft < s.stepsLeft := by
  have hs : s.stepsLeft = s.cap - s.idx.toNat := by simp [State.stepsLeft, hst]
  have hlt := h.eWrhdr_idx_lt hst
  obtain ⟨hea, hi⟩ := h.pixel_exists (by simp [hst]) hlt
  have hidx := toNat_succ_of_lt s.idx hi
  have hpix : s.cap - (s.idx + 1).toNat < s.stepsLeft := by omega
  rw [stepEWrhdr_eq s hea hi] at ht
  dsimp only at ht
  split at ht
  · split at ht <;> cases ht
    · show 0 < s.stepsLeft; omega
    · exact hpix
  · cases ht
    exact hpix

theorem stepEWrpay_stepsLeft {s t : State} (h : s.Inv) (hst : s.st = .eWrpay) (ht : stepEWrpay s = .next t) :
    t.stepsLeft < s.stepsLeft := by
  have hs : s.stepsLeft = s.cap - s.idx.toNat := by simp [State.stepsLeft, hst]
  have hlt := h.eWrpay_idx_lt hst
  obtain ⟨hea, hi⟩ := h.pixel_exists (by simp [hst]) hlt
  have hidx := toNat_succ_of_lt s.idx hi
  obtain ⟨x, p, hload, -⟩ := stepEWrpay_load h hst
  rw [stepEWrpay_eq s { s with shr := x, bp := p } hload hea hi] at ht
  dsimp only at ht
  split at ht <;> cases ht
  · show 0 < s.stepsLeft; omega
  · show s.cap - (s.idx + 1).toNat < s.stepsLeft; omega

theorem stepDRdhdr_stepsLeft {s t : State} (h : s.Inv) (hst : s.st = .dRdhdr) (ht : stepDRdhdr s = .next t) :
    t.stepsLeft < s.stepsLeft := by
  have hs : s.stepsLeft = s.cap - s.idx.toNat + 5 := by simp [State.stepsLeft, hst]
  by_cases hcap : s.cap < HDRW
  · rw [stepDRdhdr_small s hcap] at ht
    cases ht
    show 0 < s.stepsLeft; omega
  · have hlt := h.dRdhdr_idx_lt hst
    obtain ⟨hea, hi⟩ := h.pixel_exists (by simp [hst]) (by omega)
    have hidx := toNat_succ_of_lt s.idx hi
    have hpix : s.cap - (s.idx + 1).toNat + 5 < s.stepsLeft := by omega
    rw [stepDRdhdr_eq s (by omega) hea hi] at ht
    dsimp only at ht
    split at ht <;> cases ht <;> exact hpix

theorem stepDValhdr_stepsLeft {s t : State} (hst : s.st = .dValhdr) (ht : stepDValhdr s = .next t) :
    t.stepsLeft < s.stepsLeft := by
  have hs : s.stepsLeft = s.cap - s.idx.toNat + 5 := by simp [State.stepsLeft, hst]
  have hend : 0 < s.stepsLeft := by omega
  rw [stepDValhdr_eq] at ht
  dsimp only at ht
  split at ht
  · cases ht; exact hend
  · split at ht
    · cases ht; exact hend
    · split at ht <;> cases ht
      · exact hend
      · show s.cap - s.idx.toNat + 4 < s.stepsLeft; omega

theorem stepDRdpay_stepsLeft {s t : State} (h : s.Inv) (hst : s.st = .dRdpay) (ht : stepDRdpay s = .next t) :
    t.stepsLeft < s.stepsLeft := by
  have hs : s.stepsLeft = s.cap - s.idx.toNat + 4 := by simp [State.stepsLeft, hst]
  obtain ⟨-, hlt⟩ := h.dRdpay_idx_lt hst
  obtain ⟨hea, hi⟩ := h.pixel_exists (by simp [hst]) hlt
  have hidx := toNat_succ_of_lt s.idx hi
  have hpix : s.cap - (s.idx + 1).toNat + 4 < s.stepsLeft := by omega
  have hdone : 3 < s.stepsLeft := by omega
  by_cases hbc : s.bc + 1 = 0
  · obtain ⟨he, hp⟩ := h.dRdpay_store_exists hst hbc
    rw [stepDRdpay_eq_of_eq s hea hi hbc he hp] at ht
    dsimp only at ht
    split at ht <;> cases ht
    · exact hdone
    · exact hpix
  · rw [stepDRdpay_eq_of_ne s hea hi hbc] at ht
    dsimp only at ht
    split at ht <;> cases ht
    · exact hdone
    · exact hpix

theorem stepDDetprot_stepsLeft {s t : State} (hst : s.st = .dDetprot) (ht : stepDDetprot s = .next t) :
    t.stepsLeft < s.stepsLeft := by
  have hs : s.stepsLeft = 3 := by simp [State.stepsLeft, hst]
  have hplain : 1 < s.stepsLeft := by omega
  simp only [stepDDetprot, exec_uNone, andThen_next] at ht
  split at ht
  · obtain ⟨-, ht⟩ := readFirst_eq_next.1 ht
    split at ht <;> cases ht
    · show 2 < s.stepsLeft; omega
    · exact hplain
  · cases ht; exact hplain

theorem stepDRetplain_stepsLeft {s t : State} (hst : s.st = .dRetplain) (ht : stepDRetplain s = .next t) :
    t.stepsLeft < s.stepsLeft := by
  have hs : s.stepsLeft = 1 := by simp [State.stepsLeft, hst]
  simp only [stepDRetplain, exec_uNone, andThen_next, readFirst_eq_next, andThen_eq_next] at ht
  obtain ⟨-, u, -, hu⟩ := ht
  cases hu
  show 0 < s.stepsLeft; omega

theorem stepDValpwd_stepsLeft {s t : State} (hst : s.st = .dValpwd) (ht : stepDValpwd s = .next t) :
    t.stepsLeft < s.stepsLeft := by
  have hs : s.stepsLeft = 2 := by simp [State.stepsLeft, hst]
  have hend : 0 < s.stepsLeft := by omega
  simp only [stepDValpwd, exec_uNone, andThen_next, readFirst_eq_next] at ht
  obtain ⟨-, ht⟩ := ht
  split at ht
  · split at ht
    · cases ht; exact hend
    · split at ht
      · cases ht; exact hend
      · obtain ⟨-, ht⟩ := readFirst_eq_next.1 ht
        split at ht <;> cases ht
        · exact hend
        · show 1 < s.stepsLeft; omega
  · cases ht; exact hend

theorem stepDRetmsg_stepsLeft {s t : State} (hst : s.st = .dRetmsg) (ht : stepDRetmsg s = .next t) :
    t.stepsLeft < s.stepsLeft := by
  have hs : s.stepsLeft = 1 := by simp [State.stepsLeft, hst]
  simp only [stepDRetmsg, exec_uNone, andThen_next, readFirst_eq_next, andThen_eq_next] at ht
  obtain ⟨-, u, -, hu⟩ := ht
  cases hu
  show 0 < s.stepsLeft; omega

/-- Every step of a running command lowers the bound. -/
theorem engineStep_stepsLeft {s t : State} (h : s.Inv) (hst : s.st ≠ .idle) (ht : engineStep s = .next t) :
    t.stepsLeft < s.stepsLeft := by
  cases hs : s.st with
  | idle => exact absurd hs hst
  | eBuild =>
    rw [engineStep_eBuild hs, stepEBuild_eq] at ht
    cases ht
    show s.cap + 2 < s.stepsLeft
    simp [State.stepsLeft, hs]
  | eChkcap => rw [engineStep_eChkcap hs] at ht; exact stepEChkcap_stepsLeft hs ht
  | eClone => rw [engineStep_eClone hs] at ht; exact stepEClone_stepsLeft h hs ht
  | eWrhdr => rw [engineStep_eWrhdr hs] at ht; exact stepEWrhdr_stepsLeft h hs ht
  | eWrpay => rw [engineStep_eWrpay hs] at ht; exact stepEWrpay_stepsLeft h hs ht
  | dRdhdr => rw [engineStep_dRdhdr hs] at ht; exact stepDRdhdr_stepsLeft h hs ht
  | dValhdr => rw [engineStep_dValhdr hs] at ht; exact stepDValhdr_stepsLeft hs ht
  | dRdpay => rw [engineStep_dRdpay hs] at ht; exact stepDRdpay_stepsLeft h hs ht
  | dDetprot => rw [engineStep_dDetprot hs] at ht; exact stepDDetprot_stepsLeft hs ht
  | dRetplain => rw [engineStep_dRetplain hs] at ht; exact stepDRetplain_stepsLeft hs ht
  | dValpwd => rw [engineStep_dValpwd hs] at ht; exact stepDValpwd_stepsLeft hs ht
  | dRetmsg => rw [engineStep_dRetmsg hs] at ht; exact stepDRetmsg_stepsLeft hs ht

/-- A run prefixed by one step of the engine. -/
theorem run_succ_of_quiet {s t : State} (h : s.Inv) (hh : s.host = []) (ht : engineStep s = .next t) (k : Nat) :
    run (k + 1) s = run k t := by
  rw [run_succ, step_of_quiet h.uopsDone hh, ht, andThen_next]

/-- With no move pending the engine reaches `IDLE`, by induction on the bound. -/
theorem run_reaches_idle {s : State} (h : s.Inv) (hh : s.host = []) : ∃ k t, run k s = .next t ∧ t.st = .idle := by
  induction hm : s.stepsLeft using Nat.strong_induction_on generalizing s with
  | _ m ih =>
    by_cases hst : s.st = .idle
    · exact ⟨0, s, rfl, hst⟩
    · obtain ⟨t, ht, hinv⟩ := engineStep_inv h
      have hlt : t.stepsLeft < m := hm ▸ engineStep_stepsLeft h hst ht
      obtain ⟨k, u, hrun, hidle⟩ := ih _ hlt hinv ((engineStep_kept ht).host.trans hh) rfl
      exact ⟨k + 1, u, (run_succ_of_quiet h hh ht k).trans hrun, hidle⟩

/-- Settles O50: every step of a running command lowers the bound `State.stepsLeft`. -/
theorem everyCommandEnds : Obligations.EveryCommandEnds :=
  fun _ h hh => run_reaches_idle h hh

end Sys2Proof.Machine
end

section
/-! Dispatch of a written command word (44_commands R220 to R224): which instruction it is, the reserved words,
and the refusals of the configuration check. -/

namespace Sys2Proof.Machine

open Sys2Proof Sys2Proof.Claims

/-! ### A word and its instruction -/

theorem writeCmd_of_decode {w : Word} {i : Instr} (h : decodeCmd w = .ok i) (s : State) : writeCmd w s = exec i s := by
  rw [writeCmd, h]

theorem writeCmd_of_reserved {w : Word} {r : Reject} (h : decodeCmd w = .error r) {s : State} (hst : s.st = .idle) :
    writeCmd w s = .next (refuseCommand .illCmd 0 s) := by
  rw [writeCmd, h]
  simp only [busy_of_idle hst, Bool.false_eq_true, ↓reduceIte]

/-- The move that writes `CMD` is the write of the word. -/
theorem step_of_wr_cmd {s : State} {w : Word} {rest : List HostMove} (hu : s.uops = []) (hh : s.host = .wr 0 w :: rest) :
    step s = writeCmd w { s with host := rest } := by
  rw [step_of_move hu hh]
  rfl

theorem step_of_wr_cmd_decode {s : State} {w : Word} {rest : List HostMove} {i : Instr} (hu : s.uops = [])
    (hh : s.host = .wr 0 w :: rest) (hi : decodeCmd w = .ok i) : step s = exec i { s with host := rest } :=
  (step_of_wr_cmd hu hh).trans (writeCmd_of_decode hi _)

/-- A micro-operation code that waits goes to the datapath ahead of everything else (R95). -/
theorem step_of_uop {s : State} {c : BitVec 4} {rest : List (BitVec 4)} (hu : s.uops = c :: rest) :
    step s = datapath c { s with uops := rest } := by
  rw [step, hu]

theorem datapath_of_decode {c : BitVec 4} {i : Instr} (h : decodeUop c = .ok i) (s : State) :
    datapath c s = exec i s := by
  rw [datapath, h]

theorem datapath_of_reserved {c : BitVec 4} {r : Reject} (h : decodeUop c = .error r) (s : State) :
    datapath c s = .next s := by
  rw [datapath, h]

/-- The codes 0xB to 0xF are reserved (R95). -/
theorem decodeUop_reserved : ∀ c : BitVec 4, 0xB ≤ c.toNat → decodeUop c = .error .reservedUop := by
  decide

/-- A table word that is an instruction is a command word or a code that decodes to it. -/
theorem decodeTableWord_eq_some {nbits w : Nat} {i : Instr} (h : decodeTableWord nbits w = some i) :
    ∃ r, rawOfTableWord nbits w = some r ∧ decode r = .ok i := by
  unfold decodeTableWord at h
  split at h
  · cases h
  · next r hr =>
    split at h
    · next j hj => cases h; exact ⟨r, hr, hj⟩
    · cases h

theorem withFetchWord_cmd {nbits w : Nat} {c : Word} (h : rawOfTableWord nbits w = some (.cmd c)) (s : State) :
    s.withFetchWord nbits w = { s with uops := [], host := .wr 0 c :: s.host } := by
  rw [State.withFetchWord, h]

theorem withFetchWord_uop {nbits w : Nat} {c : BitVec 4} (h : rawOfTableWord nbits w = some (.uop c)) (s : State) :
    s.withFetchWord nbits w = { s with uops := c :: s.uops } := by
  rw [State.withFetchWord, h]

/-- The step after `withFetchWord` runs the instruction of the word. -/
theorem step_withFetchWord {s : State} {nbits w : Nat} {i : Instr} (hu : s.uops = [])
    (hi : decodeTableWord nbits w = some i) : step (s.withFetchWord nbits w) = exec i s := by
  obtain ⟨r, hr, hdec⟩ := decodeTableWord_eq_some hi
  cases r with
  | cmd c =>
    have hs : ({ s with uops := [] } : State) = s := by rw [← hu]
    rw [withFetchWord_cmd hr, step_of_wr_cmd_decode rfl rfl hdec]
    exact congrArg (exec i) hs
  | uop c => rw [withFetchWord_uop hr, step_of_uop rfl, datapath_of_decode hdec]

/-- Settles O4: the step with a written word, with a code that waits, with a reserved code, and after
`withFetchWord`. -/
theorem stepRunsTheDecodedInstruction : Obligations.StepRunsTheDecodedInstruction := by
  refine ⟨fun s w rest i hu hh hi => step_of_wr_cmd_decode hu hh hi, fun s c rest i hu hi => ?_,
    fun s c rest hu hc => ?_, fun s nbits w i hu hi => step_withFetchWord hu hi⟩
  · rw [step_of_uop hu, datapath_of_decode hi]
  · rw [step_of_uop hu, datapath_of_reserved (decodeUop_reserved c hc)]

/-! ### Reserved command words (R92, R223) -/

/-- With the field `zero` at 0 the field `op` is the whole word. -/
theorem cmdOpField_toNat {w : Word} (h : cmdZeroField w = 0) : (cmdOpField w).toNat = w.toNat := by
  have hz : (cmdZeroField w).toNat = 0 := by rw [h]; rfl
  simp only [cmdZeroField, BitVec.extractLsb'_toNat, Nat.shiftRight_eq_div_pow] at hz
  simp only [cmdOpField, BitVec.extractLsb'_toNat, Nat.shiftRight_eq_div_pow]
  have := w.isLt
  omega

/-- A word that is none of the three opcodes is reserved. -/
theorem decodeCmd_reserved {w : Word} (h0 : w ≠ 0x00000000#32) (h1 : w ≠ 0x00000001#32) (h2 : w ≠ 0x00000002#32) :
    decodeCmd w = .error .reservedCommand := by
  unfold decodeCmd
  split
  · next hz =>
    have hop := cmdOpField_toNat hz
    split
    · next h => exact absurd (BitVec.eq_of_toNat_eq (y := 0#32) (hop.symm.trans h)) h0
    · next h => exact absurd (BitVec.eq_of_toNat_eq (y := 1#32) (hop.symm.trans h)) h1
    · next h => exact absurd (BitVec.eq_of_toNat_eq (y := 2#32) (hop.symm.trans h)) h2
    · rfl
  · rfl

/-- What `STATUS` reads after the refusal of a reserved word. -/
theorem refuseCommand_illCmd_status {s : State} (hst : s.st = .idle) :
    (refuseCommand .illCmd 0 s).status = 0x00000016#32 := by
  simp [State.status, State.busy, hst, ErrKind.code, SeqState.code]

/-- Settles O6: the write of a reserved word is the refusal with `IllCmd`, and so is the step that makes it. -/
theorem reservedCommandIsRefused : Obligations.ReservedCommandIsRefused := by
  intro s w hst h0 h1 h2
  have hres := decodeCmd_reserved h0 h1 h2
  refine ⟨⟨_, writeCmd_of_reserved hres hst, rfl, refuseCommand_illCmd_status hst⟩, fun rest hu hh => ?_⟩
  have hst' : ({ s with host := rest } : State).st = .idle := hst
  exact ⟨_, (step_of_wr_cmd hu hh).trans (writeCmd_of_reserved hres hst'), rfl, refuseCommand_illCmd_status hst'⟩

/-- Settles O8: the meaning of `NOP` is the state itself (R222). -/
theorem nopChangesNothing : Obligations.NopChangesNothing := fun _ => rfl

/-! ### The configuration check (R224) -/

theorem exec_encode_refused {s : State} {sub : BitVec 3} (hst : s.st = .idle) (h : configCheck true s = some sub) :
    exec .encode s = .next (refuseCommand .cfgError sub s) := by
  simp only [exec, execEncode, busy_of_idle hst, h, Bool.false_eq_true, ↓reduceIte]

theorem exec_decode_refused {s : State} {sub : BitVec 3} (hst : s.st = .idle) (h : configCheck false s = some sub) :
    exec .decode s = .next (refuseCommand .cfgError sub s) := by
  simp only [exec, execDecode, busy_of_idle hst, h, Bool.false_eq_true, ↓reduceIte]

theorem exec_encode_accepted {s : State} (hst : s.st = .idle) (h : configCheck true s = none) :
    exec .encode s = .next (acceptEncode s) := by
  simp only [exec, execEncode, busy_of_idle hst, h, Bool.false_eq_true, ↓reduceIte]

theorem exec_decode_accepted {s : State} (hst : s.st = .idle) (h : configCheck false s = none) :
    exec .decode s = .next (acceptDecode s) := by
  simp only [exec, execDecode, busy_of_idle hst, h, Bool.false_eq_true, ↓reduceIte]

theorem configCheck_pixDepth {s : State} (e : Bool) (h : s.params.pixMax < s.pixlen.toNat) :
    configCheck e s = some subPixDepth := if_pos h

theorem configCheck_msgDepth {s : State} (h : s.pixlen.toNat ≤ s.params.pixMax)
    (hm : s.params.msgMax < s.msglen.toNat) : configCheck true s = some subMsgDepth := by
  rw [configCheck, if_neg (Nat.not_lt.2 h), if_pos (by simpa using hm)]

theorem configCheck_pwdDepth {s : State} {e : Bool} (h : s.pixlen.toNat ≤ s.params.pixMax)
    (hm : e = true → s.msglen.toNat ≤ s.params.msgMax) (hpr : s.present = true)
    (hp : s.params.pwdMax < s.pwdlen.toNat) : configCheck e s = some subPwdDepth := by
  rw [configCheck, if_neg (Nat.not_lt.2 h), if_neg (by simpa using hm), if_pos (by simpa [hpr] using hp)]

/-- The default depths hold whatever the registers can say (R8, R9). -/
theorem configCheck_default {s : State} (e : Bool) (h : s.params = .default) : configCheck e s = none := by
  have hpix := s.pixlen.isLt
  have hmsg := s.msglen.isLt
  have hpwd := s.pwdlen.isLt
  rw [configCheck_eq_none, h]
  simp only [Params.default]
  omega

/-- Settles O9: the outcome of the check in each case, and the refusal it leads to. -/
theorem configurationCheck : Obligations.ConfigurationCheck := fun _ hst =>
  ⟨fun h => ⟨exec_encode_refused hst (configCheck_pixDepth true h),
      exec_decode_refused hst (configCheck_pixDepth false h)⟩,
    fun h hm => exec_encode_refused hst (configCheck_msgDepth h hm),
    fun h hm hpr hp => exec_encode_refused hst (configCheck_pwdDepth h (fun _ => hm) hpr hp),
    fun h hpr hp => exec_decode_refused hst (configCheck_pwdDepth h (fun he => by cases he) hpr hp),
    fun h => ⟨configCheck_default true h, configCheck_default false h⟩⟩

end Sys2Proof.Machine
end

section
/-! Two runs of `DECODE` side by side (46_decode section 1, R227, R267): two states that agree on the operands
of the command go through the same sequencer states and keep agreeing on what the command has made so far. -/

namespace Sys2Proof.Machine

open Sys2Proof Sys2Proof.Claims

/-! ### Agreement -/

/-- The two states agree on the operands of `DECODE`: `PIXLEN`, the password, and the bits 0 of the channel-0
bytes of the frame's pixels. -/
structure SameOperands (s s' : State) : Prop where
  pixlen : s'.pixlen = s.pixlen
  password : s'.password = s.password
  frame : HDRW ≤ s.cap → ∀ k < s.cap, k < HDRW + readHeader s.pixels →
    lsb (s'.byteAt .pixi (EA k)) = lsb (s.byteAt .pixi (EA k))

/-- The two states agree on the first `len` bytes of a memory. -/
def SameFirst (m : MemName) (len : Nat) (s s' : State) : Prop := ∀ a < len, s'.byteAt m a = s.byteAt m a

/-- `HSR` holds the header bits of the pixels before `IDX` (R271). -/
def State.HeaderSoFar (s : State) : Prop := s.hsr.toNat = bitsToUint (channelBits s.pixels 0 s.idx.toNat)

/-- What a `DECODE` has made so far, by sequencer state, is the same in the two states. -/
def SamePhase (s s' : State) : Prop :=
  match s.st with
  | .dRdhdr | .dValhdr => s'.hsr = s.hsr ∧ s.HeaderSoFar
  | .dRdpay =>
    s'.n = s.n ∧ s.n.toNat = readHeader s.pixels ∧ s'.shr = s.shr ∧ s'.bc = s.bc ∧ s'.bp = s.bp ∧
      SameFirst .ext s.bp.toNat s s'
  | .dDetprot | .dRetplain | .dValpwd => s'.extlen = s.extlen ∧ SameFirst .ext s.extlen.toNat s s'
  | .dRetmsg => s'.extlen = s.extlen ∧ s'.spos = s.spos ∧ SameFirst .ext s.extlen.toNat s s'
  | .idle => SameFirst .out s.outlen.toNat s s'
  | .eBuild | .eChkcap | .eClone | .eWrhdr | .eWrpay => False

/-- The two states are at the same point of a `DECODE`. -/
structure SameProgress (s s' : State) : Prop where
  st : s'.st = s.st
  idx : s'.idx = s.idx
  prot : s'.prot = s.prot
  outlen : s'.outlen = s.outlen
  err : s'.err = s.err
  sub : s'.sub = s.sub
  phase : SamePhase s s'

/-! ### The operands -/

theorem password_of_kept {s t : State} (h : Kept s t) : t.password = s.password := by
  unfold State.password
  rw [h.present, h.pwdlen, bytes_congr (s := t) (t := s) (k := .pwd) (b := 0) fun i _ => by
    simp only [State.byteAt, State.mem, h.pwd]]

theorem pixi_byteAt_of_kept {s t : State} (h : Kept s t) (a : Nat) : t.byteAt .pixi a = s.byteAt .pixi a := by
  simp only [State.byteAt, State.mem, h.pixi]

theorem pixels_of_kept {s t : State} (h : Kept s t) : t.pixels = s.pixels := by
  unfold State.pixels
  rw [h.pixlen]
  exact bytes_congr fun i _ => pixi_byteAt_of_kept h _

theorem cap_of_pixlen_eq {s t : State} (h : t.pixlen = s.pixlen) : t.cap = s.cap := by
  unfold State.cap
  rw [h]

/-- The engine's steps keep the agreement on the operands. -/
theorem SameOperands.kept {s s' t t' : State} (h : SameOperands s s') (hk : Kept s t) (hk' : Kept s' t') :
    SameOperands t t' where
  pixlen := by rw [hk'.pixlen, hk.pixlen, h.pixlen]
  password := by rw [password_of_kept hk', password_of_kept hk, h.password]
  frame := by
    rw [cap_of_pixlen_eq hk.pixlen, pixels_of_kept hk]
    simpa only [pixi_byteAt_of_kept hk, pixi_byteAt_of_kept hk'] using h.frame

/-- Equal password operands: both absent, or both present with the same bytes (R36). -/
theorem password_eq {s s' : State} (h : s'.password = s.password) :
    s'.present = s.present ∧ (s.present = true → s'.pwdlen = s.pwdlen ∧
      s'.bytes .pwd 0 s'.pwdlen.toNat = s.bytes .pwd 0 s.pwdlen.toNat) := by
  unfold State.password at h
  cases hp : s.present <;> cases hp' : s'.present <;> simp only [hp, hp', Bool.false_eq_true, ↓reduceIte] at h
  · exact ⟨rfl, fun h => by cases h⟩
  · cases h
  · cases h
  · have hb := Option.some.inj h
    have hl := congrArg List.length hb
    rw [bytes_length, bytes_length] at hl
    exact ⟨rfl, fun _ => ⟨BitVec.eq_of_toNat_eq hl, hb⟩⟩

theorem pixels_getD {s : State} {k : Nat} (h : k < s.cap) : s.pixels.getD (EA k) 0 = s.byteAt .pixi (EA k) := by
  have hcap := cap_le s
  unfold State.pixels
  rw [bytes_getD _ _ _ _ _ (by unfold EA BPP; omega), Nat.zero_add]

/-! ### The memories -/

theorem SameFirst.bytes_eq {m : MemName} {len : Nat} {s s' : State} (h : SameFirst m len s s') :
    s'.bytes m 0 len = s.bytes m 0 len :=
  bytes_congr fun i hi => by rw [Nat.zero_add]; exact h i hi

/-- The same byte stored behind the bytes the two states agree on. -/
theorem SameFirst.write {m : MemName} {len : Nat} {s s' : State} (h : SameFirst m len s s') (v : Byte) :
    SameFirst m (len + 1) (s.setMem m ((s.mem m).write len v)) (s'.setMem m ((s'.mem m).write len v)) := by
  intro a ha
  rw [write_byteAt, write_byteAt]
  by_cases hlast : a = len
  · rw [if_pos ⟨rfl, hlast⟩, if_pos ⟨rfl, hlast⟩]
  · rw [if_neg (by tauto), if_neg (by tauto)]
    exact h a (by omega)

/-- The same bytes stored from address 0 on. -/
theorem sameFirst_writeList (m : MemName) (s s' : State) (vs : List Byte) :
    SameFirst m vs.length (s.setMem m ((s.mem m).writeList 0 vs)) (s'.setMem m ((s'.mem m).writeList 0 vs)) := by
  intro a ha
  rw [writeList_byteAt, writeList_byteAt, if_pos ⟨rfl, ha⟩, if_pos ⟨rfl, ha⟩]

/-! ### Facts of the invariant -/

/-- A running `DECODE` has passed the configuration check (R224), and `OUTLEN` is 0 until it ends (R270). -/
theorem State.Inv.decoding_start {s : State} (h : s.Inv) (hst : s.st.decoding = true) :
    configCheck false s = none ∧ s.outlen = 0 := by
  have hph := h.phaseOk
  cases hs : s.st with
  | idle | eBuild | eChkcap | eClone | eWrhdr | eWrpay =>
    rw [hs] at hst
    cases hst
  | dRdhdr | dValhdr | dRdpay | dDetprot | dRetplain | dValpwd | dRetmsg =>
    simp only [State.PhaseOk, hs] at hph
    exact ⟨hph.1, hph.2.1⟩

/-- The password of a running `DECODE` lies within its memory. -/
theorem State.Inv.decoding_pwdlen_le {s : State} (h : s.Inv) (hst : s.st.decoding = true) :
    s.present = true → s.pwdlen.toNat ≤ s.params.pwdMax :=
  ((configCheck_eq_none _ _).1 (h.decoding_start hst).1).2.2

/-- Once extracted, the payload lies within `EXT` (R69). -/
theorem State.Inv.extracted_le {s : State} (h : s.Inv)
    (hst : s.st = .dDetprot ∨ s.st = .dRetplain ∨ s.st = .dValpwd ∨ s.st = .dRetmsg) :
    s.extlen.toNat ≤ s.params.extMax := by
  have hpix : s.pixlen.toNat ≤ s.params.pixMax := h.pixlen_le (by intro hs; simp [hs] at hst)
  have hph := h.phaseOk
  refine extlen_le h hpix ?_
  rcases hst with hst | hst | hst | hst <;> simp only [State.PhaseOk, hst] at hph <;> obtain ⟨-, -, -, hext⟩ := hph
  · exact hext
  · exact hext
  · exact hext.1
  · exact hext.1

/-- The buffer a payload is read from holds a header. -/
theorem State.Inv.dRdpay_header_le {s : State} (h : s.Inv) (hst : s.st = .dRdpay) : HDRW ≤ s.cap := by
  have hph := h.phaseOk
  simp only [State.PhaseOk, hst] at hph
  obtain ⟨-, -, -, hfit, -⟩ := hph
  omega

/-! ### The header -/

/-- One more bit shifted into `HSR`, as a number (R142). -/
theorem hsr_shift_toNat (x : Word) (v : Bool) (h : x.toNat < 2 ^ 31) :
    ((x <<< 1) ||| (if v then 1 else 0)).toNat = 2 * x.toNat + v.toNat := by
  have hs : x.toNat <<< 1 % 2 ^ 32 = x.toNat <<< 1 := by rw [Nat.shiftLeft_eq]; omega
  have ho := Nat.shiftLeft_add_eq_or_of_lt (i := 1) (b := v.toNat) (by cases v <;> decide) x.toNat
  rw [BitVec.toNat_or, BitVec.toNat_shiftLeft, hs, show ((if v then 1 else 0 : Word)).toNat = v.toNat by cases v <;> rfl,
    ← ho, Nat.shiftLeft_eq]
  omega

/-- The step of `D_RDHDR` puts the bit of pixel `IDX` behind those before it (R271). -/
theorem State.HeaderSoFar.next {s : State} (h : s.HeaderSoFar) (hi : s.idx.toNat < HDRW) (hc : HDRW ≤ s.cap) :
    ((s.hsr <<< 1) ||| (if lsb (s.byteAt .pixi (EA s.idx.toNat)) then 1 else 0)).toNat =
      bitsToUint (channelBits s.pixels 0 (s.idx.toNat + 1)) := by
  have hlt : s.hsr.toNat < 2 ^ 31 := by
    have hb := bitsToUint_lt (channelBits s.pixels 0 s.idx.toNat)
    rw [channelBits_length] at hb
    rw [h]
    exact lt_of_lt_of_le hb (Nat.pow_le_pow_right (by decide) (by unfold HDRW at hi; omega))
  rw [hsr_shift_toNat _ _ hlt, channelBits_snoc, bitsToUint_snoc, Nat.zero_add, pixels_getD (by omega), ← h]

/-! ### One step of the two runs -/

/-- Where both steps answer a next state, the two states are at the same point of the `DECODE`. -/
def SameOutcome (r r' : Result) : Prop := ∀ t t', r = .next t → r' = .next t' → SameProgress t t'

theorem SameOutcome.next {t t' : State} (h : SameProgress t t') : SameOutcome (.next t) (.next t') := by
  intro u u' hu hu'
  cases hu; cases hu'
  exact h

/-- A test with the same answer in both runs. -/
theorem SameOutcome.ite {c : Prop} [Decidable c] {a a' b b' : Result} (hpos : c → SameOutcome a a')
    (hneg : ¬ c → SameOutcome b b') : SameOutcome (if c then a else b) (if c then a' else b') := by
  by_cases h : c
  · simpa only [if_pos h] using hpos h
  · simpa only [if_neg h] using hneg h

/-- Two runs that fail the same test. A `DECODE` that ends with an error returns nothing: there is no byte to
agree on. -/
theorem sameOutcome_failed {s s' : State} (e : ErrKind) (sub : BitVec 3) (hi : s'.idx = s.idx) (hp : s'.prot = s.prot)
    (ho : s'.outlen = s.outlen) (h0 : s.outlen = 0) :
    SameOutcome (.next (finish e sub s)) (.next (finish e sub s')) := by
  refine .next ⟨rfl, hi, hp, ho, rfl, rfl, ?_⟩
  show SameFirst .out s.outlen.toNat _ _
  rw [h0]
  exact fun a ha => absurd ha (Nat.not_lt_zero a)

theorem stepDRdhdr_sameOutcome {s s' : State} (h : s.Inv) (h' : s'.Inv) (ho : SameOperands s s')
    (hp : SameProgress s s') (hst : s.st = .dRdhdr) : SameOutcome (stepDRdhdr s) (stepDRdhdr s') := by
  have hst' : s'.st = .dRdhdr := hp.st.trans hst
  obtain ⟨hhsr, hso⟩ : s'.hsr = s.hsr ∧ s.HeaderSoFar := by simpa [SamePhase, hst] using hp.phase
  have hcap := cap_of_pixlen_eq ho.pixlen
  by_cases hc : s.cap < HDRW
  · rw [stepDRdhdr_small s hc, stepDRdhdr_small s' (by omega)]
    exact sameOutcome_failed _ _ hp.idx hp.prot hp.outlen (h.decoding_start (by rw [hst]; rfl)).2
  · have hlt := h.dRdhdr_idx_lt hst
    obtain ⟨hea, hi⟩ := h.pixel_exists (by simp [hst]) (by omega)
    obtain ⟨hea', hi'⟩ := h'.pixel_exists (by simp [hst']) (by rw [hcap, hp.idx]; omega)
    have hbit := ho.frame (by omega) s.idx.toNat (by omega) (by omega)
    have hidx : s'.idx + 1 = s.idx + 1 := congrArg (· + 1) hp.idx
    have hnext := hso.next hlt (by omega)
    rw [← toNat_succ_of_lt s.idx hi] at hnext
    rw [stepDRdhdr_eq s (by omega) hea hi, stepDRdhdr_eq s' (by omega) hea' hi', hp.idx, hbit, hhsr]
    exact .ite (fun _ => .next ⟨rfl, hidx, hp.prot, hp.outlen, hp.err, hp.sub, rfl, hnext⟩)
      (fun _ => .next ⟨rfl, hidx, hp.prot, hp.outlen, hp.err, hp.sub, rfl, hnext⟩)

/-- After 32 pixels `HSR` is the header's number. -/
theorem State.HeaderSoFar.complete {s : State} (h : s.HeaderSoFar) (hinv : s.Inv) (hst : s.st = .dValhdr) :
    s.hsr.toNat = readHeader s.pixels := by
  have hph := hinv.phaseOk
  simp only [State.PhaseOk, hst] at hph
  obtain ⟨-, -, -, -, hidx⟩ := hph
  rw [h, hidx, readHeader]

theorem stepDValhdr_sameOutcome {s s' : State} (h : s.Inv) (ho : SameOperands s s') (hp : SameProgress s s')
    (hst : s.st = .dValhdr) : SameOutcome (stepDValhdr s) (stepDValhdr s') := by
  obtain ⟨hhsr, hso⟩ : s'.hsr = s.hsr ∧ s.HeaderSoFar := by simpa [SamePhase, hst] using hp.phase
  have h0 := (h.decoding_start (by rw [hst]; rfl)).2
  rw [stepDValhdr_eq, stepDValhdr_eq, hhsr, cap_of_pixlen_eq ho.pixlen]
  refine .ite (fun _ => ?_) fun _ => .ite (fun _ => ?_) fun _ => .ite (fun _ => ?_) fun _ => .next ?_
  · exact sameOutcome_failed _ _ hp.idx hp.prot hp.outlen h0
  · exact sameOutcome_failed _ _ hp.idx hp.prot hp.outlen h0
  · exact sameOutcome_failed _ _ hp.idx hp.prot hp.outlen h0
  · exact ⟨rfl, hp.idx, hp.prot, hp.outlen, hp.err, hp.sub, rfl, hso.complete h hst, rfl, rfl, rfl,
      fun a ha => absurd ha (Nat.not_lt_zero a)⟩

theorem stepDRdpay_sameOutcome {s s' : State} (h : s.Inv) (h' : s'.Inv) (ho : SameOperands s s')
    (hp : SameProgress s s') (hst : s.st = .dRdpay) : SameOutcome (stepDRdpay s) (stepDRdpay s') := by
  have hst' : s'.st = .dRdpay := hp.st.trans hst
  obtain ⟨hn, hheader, hshr, hbc, hbp, hext⟩ : s'.n = s.n ∧ s.n.toNat = readHeader s.pixels ∧ s'.shr = s.shr ∧
    s'.bc = s.bc ∧ s'.bp = s.bp ∧ SameFirst .ext s.bp.toNat s s' := by simpa [SamePhase, hst] using hp.phase
  obtain ⟨hpay, hlt⟩ := h.dRdpay_idx_lt hst
  obtain ⟨hea, hi⟩ := h.pixel_exists (by simp [hst]) hlt
  obtain ⟨hea', hi'⟩ := h'.pixel_exists (by simp [hst']) (h'.dRdpay_idx_lt hst').2
  have hbit := ho.frame (h.dRdpay_header_le hst) s.idx.toNat hlt (by omega)
  have hidx : s'.idx + 1 = s.idx + 1 := congrArg (· + 1) hp.idx
  by_cases hb : s.bc + 1 = 0
  · have hb' : s'.bc + 1 = 0 := by rw [hbc]; exact hb
    obtain ⟨he, hp1⟩ := h.dRdpay_store_exists hst hb
    obtain ⟨he', hp1'⟩ := h'.dRdpay_store_exists hst' hb'
    have hstore := hext.write ((s.shr <<< 1) ||| bitByte (lsb (s.byteAt .pixi (EA s.idx.toNat))))
    rw [← toNat_succ_of_lt s.bp hp1] at hstore
    rw [stepDRdpay_eq_of_eq s hea hi hb he hp1, stepDRdpay_eq_of_eq s' hea' hi' hb' he' hp1', hp.idx, hbit, hshr, hbp, hn]
    exact .ite (fun _ => .next ⟨rfl, hidx, hp.prot, hp.outlen, hp.err, hp.sub, rfl, hstore⟩)
      (fun _ => .next ⟨rfl, hidx, hp.prot, hp.outlen, hp.err, hp.sub, hn, hheader, rfl, rfl, rfl, hstore⟩)
  · have hb' : s'.bc + 1 ≠ 0 := by rw [hbc]; exact hb
    rw [stepDRdpay_eq_of_ne s hea hi hb, stepDRdpay_eq_of_ne s' hea' hi' hb', hp.idx, hbit, hshr, hbp, hn, hbc]
    exact .ite (fun _ => .next ⟨rfl, hidx, hp.prot, hp.outlen, hp.err, hp.sub, rfl, hext⟩)
      (fun _ => .next ⟨rfl, hidx, hp.prot, hp.outlen, hp.err, hp.sub, hn, hheader, rfl, rfl, hbp, hext⟩)

/-- Once the payload is extracted the two states agree on it as a byte sequence. -/
theorem SameFirst.extracted_eq {s s' : State} (hx : SameFirst .ext s.extlen.toNat s s') (hl : s'.extlen = s.extlen) :
    s'.bytes .ext 0 s'.extlen.toNat = s.bytes .ext 0 s.extlen.toNat := by
  rw [hl, hx.bytes_eq]

theorem stepDDetprot_sameOutcome {s s' : State} (h : s.Inv) (h' : s'.Inv) (hp : SameProgress s s')
    (hst : s.st = .dDetprot) : SameOutcome (stepDDetprot s) (stepDDetprot s') := by
  have hst' : s'.st = .dDetprot := hp.st.trans hst
  obtain ⟨hl, hx⟩ : s'.extlen = s.extlen ∧ SameFirst .ext s.extlen.toNat s s' := by
    simpa [SamePhase, hst] using hp.phase
  rw [stepDDetprot_eq s (fun h11 => h11.trans (h.extracted_le (by simp [hst]))),
    stepDDetprot_eq s' (fun h11 => h11.trans (h'.extracted_le (by simp [hst'])))]
  simp only [detect_iff, hx.extracted_eq hl]
  exact .ite (fun _ => .next ⟨rfl, hp.idx, rfl, hp.outlen, hp.err, hp.sub, hl, hx⟩)
    (fun _ => .next ⟨rfl, hp.idx, hp.prot, hp.outlen, hp.err, hp.sub, hl, hx⟩)

theorem stepDRetplain_sameOutcome {s s' : State} (h : s.Inv) (h' : s'.Inv) (hp : SameProgress s s')
    (hst : s.st = .dRetplain) : SameOutcome (stepDRetplain s) (stepDRetplain s') := by
  have hst' : s'.st = .dRetplain := hp.st.trans hst
  obtain ⟨hl, hx⟩ : s'.extlen = s.extlen ∧ SameFirst .ext s.extlen.toNat s s' := by
    simpa [SamePhase, hst] using hp.phase
  have hout := sameFirst_writeList .out s s' (s.bytes .ext 0 s.extlen.toNat)
  rw [bytes_length] at hout
  rw [stepDRetplain_eq s (h.extracted_le (by simp [hst])), stepDRetplain_eq s' (h'.extracted_le (by simp [hst'])),
    hx.extracted_eq hl]
  exact .next ⟨rfl, hp.idx, hp.prot, hl, rfl, rfl, hout⟩

theorem stepDValpwd_sameOutcome {s s' : State} (h : s.Inv) (h' : s'.Inv) (ho : SameOperands s s')
    (hp : SameProgress s s') (hst : s.st = .dValpwd) : SameOutcome (stepDValpwd s) (stepDValpwd s') := by
  have hst' : s'.st = .dValpwd := hp.st.trans hst
  obtain ⟨hl, hx⟩ : s'.extlen = s.extlen ∧ SameFirst .ext s.extlen.toNat s s' := by
    simpa [SamePhase, hst] using hp.phase
  obtain ⟨hpresent, hpwd⟩ := password_eq ho.password
  have hfail (e : ErrKind) (sub : BitVec 3) : SameOutcome (.next (finish e sub s)) (.next (finish e sub s')) :=
    sameOutcome_failed e sub hp.idx hp.prot hp.outlen (h.decoding_start (by rw [hst]; rfl)).2
  rw [stepDValpwd_eq s (h.extracted_le (by simp [hst])) (h.decoding_pwdlen_le (by rw [hst]; rfl)),
    stepDValpwd_eq s' (h'.extracted_le (by simp [hst'])) (h'.decoding_pwdlen_le (by rw [hst']; rfl)),
    hx.extracted_eq hl, hpresent]
  generalize occurrences (s.bytes .ext 0 s.extlen.toNat) SEP = places
  rcases places with _ | ⟨p, _ | ⟨q, rest⟩⟩
  · exact hfail .formatError subSepCount
  · refine .ite (fun _ => hfail .authError subPwdRequired) fun hpr => ?_
    obtain ⟨hlen, hbytes⟩ := hpwd (by simpa using hpr)
    rw [hbytes, hlen]
    exact .ite (fun _ => hfail .authError subPwdIncorrect)
      (fun _ => .next ⟨rfl, hp.idx, hp.prot, hp.outlen, hp.err, hp.sub, hl, rfl, hx⟩)
  · exact hfail .formatError subSepCount

/-- `SPOS` keeps the separator within the payload (R276). -/
theorem State.Inv.dRetmsg_spos_le {s : State} (h : s.Inv) (hst : s.st = .dRetmsg) :
    s.spos.toNat + 6 ≤ s.extlen.toNat := by
  have hph := h.phaseOk
  simp only [State.PhaseOk, hst] at hph
  obtain ⟨-, -, -, -, hspos⟩ := hph
  exact hspos

theorem stepDRetmsg_sameOutcome {s s' : State} (h : s.Inv) (h' : s'.Inv) (hp : SameProgress s s')
    (hst : s.st = .dRetmsg) : SameOutcome (stepDRetmsg s) (stepDRetmsg s') := by
  have hst' : s'.st = .dRetmsg := hp.st.trans hst
  obtain ⟨hl, hspos, hx⟩ : s'.extlen = s.extlen ∧ s'.spos = s.spos ∧ SameFirst .ext s.extlen.toNat s s' := by
    simpa [SamePhase, hst] using hp.phase
  have hle := h.dRetmsg_spos_le hst
  have hout := sameFirst_writeList .out s s' ((s.bytes .ext 0 s.extlen.toNat).drop (s.spos.toNat + 6))
  have hlen : (s.extlen - s.spos - 6).toNat = s.extlen.toNat - (s.spos.toNat + 6) := by bv_omega
  rw [List.length_drop, bytes_length, ← hlen] at hout
  rw [stepDRetmsg_eq s (h.extracted_le (by simp [hst])) hle,
    stepDRetmsg_eq s' (h'.extracted_le (by simp [hst'])) (h'.dRetmsg_spos_le hst'), hx.extracted_eq hl, hl, hspos]
  exact .next ⟨rfl, hp.idx, hp.prot, rfl, rfl, rfl, hout⟩

/-- Each step of the engine takes the two states to the same point of the `DECODE` again. -/
theorem engineStep_sameOutcome {s s' : State} (h : s.Inv) (h' : s'.Inv) (ho : SameOperands s s')
    (hp : SameProgress s s') : SameOutcome (engineStep s) (engineStep s') := by
  cases hst : s.st with
  | idle =>
    rw [engineStep_idle hst, engineStep_idle (hp.st.trans hst)]
    exact .next hp
  | eBuild | eChkcap | eClone | eWrhdr | eWrpay =>
    have hphase := hp.phase
    simp only [SamePhase, hst] at hphase
  | dRdhdr =>
    rw [engineStep_dRdhdr hst, engineStep_dRdhdr (hp.st.trans hst)]
    exact stepDRdhdr_sameOutcome h h' ho hp hst
  | dValhdr =>
    rw [engineStep_dValhdr hst, engineStep_dValhdr (hp.st.trans hst)]
    exact stepDValhdr_sameOutcome h ho hp hst
  | dRdpay =>
    rw [engineStep_dRdpay hst, engineStep_dRdpay (hp.st.trans hst)]
    exact stepDRdpay_sameOutcome h h' ho hp hst
  | dDetprot =>
    rw [engineStep_dDetprot hst, engineStep_dDetprot (hp.st.trans hst)]
    exact stepDDetprot_sameOutcome h h' hp hst
  | dRetplain =>
    rw [engineStep_dRetplain hst, engineStep_dRetplain (hp.st.trans hst)]
    exact stepDRetplain_sameOutcome h h' hp hst
  | dValpwd =>
    rw [engineStep_dValpwd hst, engineStep_dValpwd (hp.st.trans hst)]
    exact stepDValpwd_sameOutcome h h' ho hp hst
  | dRetmsg =>
    rw [engineStep_dRetmsg hst, engineStep_dRetmsg (hp.st.trans hst)]
    exact stepDRetmsg_sameOutcome h h' hp hst

/-! ### The two runs to their end -/

/-- The two runs reach `IDLE` after equally many steps, at the same point, by induction on `State.stepsLeft`. -/
theorem sameProgress_run {s s' : State} (h : s.Inv) (h' : s'.Inv) (hh : s.host = []) (hh' : s'.host = [])
    (ho : SameOperands s s') (hp : SameProgress s s') :
    ∃ k u u', run k s = .next u ∧ run k s' = .next u' ∧ u.st = .idle ∧ SameProgress u u' ∧
      ∀ j < k, ∃ v v', run j s = .next v ∧ run j s' = .next v' ∧ v.st ≠ .idle ∧ v'.st ≠ .idle := by
  induction hm : s.stepsLeft using Nat.strong_induction_on generalizing s s' with
  | _ m ih =>
    by_cases hst : s.st = .idle
    · exact ⟨0, s, s', rfl, rfl, hst, hp, fun j hj => absurd hj (Nat.not_lt_zero j)⟩
    · obtain ⟨t, ht, hinv⟩ := engineStep_inv h
      obtain ⟨t', ht', hinv'⟩ := engineStep_inv h'
      have hk := engineStep_kept ht
      have hk' := engineStep_kept ht'
      obtain ⟨k, u, u', hrun, hrun', hidle, hend, hbefore⟩ :=
        ih t.stepsLeft (hm ▸ engineStep_stepsLeft h hst ht) hinv hinv' (hk.host.trans hh) (hk'.host.trans hh')
          (ho.kept hk hk') (engineStep_sameOutcome h h' ho hp t t' ht ht') rfl
      refine ⟨k + 1, u, u', (run_succ_of_quiet h hh ht k).trans hrun, (run_succ_of_quiet h' hh' ht' k).trans hrun',
        hidle, hend, fun j hj => ?_⟩
      cases j with
      | zero => exact ⟨s, s', rfl, rfl, hst, by rw [hp.st]; exact hst⟩
      | succ j =>
        rw [run_succ_of_quiet h hh ht, run_succ_of_quiet h' hh' ht']
        exact hbefore j (by omega)

/-- Two states that accept `DECODE` start it at the same point. -/
theorem acceptDecode_sameProgress (s s' : State) : SameProgress (acceptDecode s) (acceptDecode s') :=
  ⟨rfl, rfl, rfl, rfl, rfl, rfl, rfl, rfl⟩

theorem acceptDecode_kept (s : State) : Kept s (acceptDecode s) := by constructor <;> rfl

/-- Settles O57: the two runs side by side, from acceptance to `IDLE`. -/
theorem decodeDependsOnItsOperandsOnly : Obligations.DecodeDependsOnItsOperandsOnly := by
  intro s s' hs hs' hc hc' hpixlen hpassword hframe
  have ho : SameOperands s s' := ⟨hpixlen.symm, hpassword.symm, fun hcap k hk hframe' => (hframe hcap k hk hframe').symm⟩
  obtain ⟨k, u, u', hrun, hrun', hidle, hend, hbefore⟩ :=
    sameProgress_run (acceptDecode_inv hs.inv hc) (acceptDecode_inv hs'.inv hc') hs.host hs'.host
      (ho.kept (acceptDecode_kept s) (acceptDecode_kept s')) (acceptDecode_sameProgress s s')
  have hout : SameFirst .out u.outlen.toNat u u' := by simpa [SamePhase, hidle] using hend.phase
  exact ⟨k, acceptDecode s, acceptDecode s', u, u', exec_decode_accepted hs.idle hc, exec_decode_accepted hs'.idle hc',
    hrun, hrun', hidle, hend.st.trans hidle, hbefore, hend.err.symm, hend.sub.symm, hend.prot.symm, hend.outlen.symm,
    fun i hi => (hout i hi).symm⟩

end Sys2Proof.Machine
end

section
/-! The Encoder before its first frame bit (45_encode): acceptance (R240), the two deciding steps (R241, R242),
and the clone (R243). -/

namespace Sys2Proof.Machine

/-! ### Acceptance -/

/-- Settles O10: with the lengths within the depths the configuration check passes. -/
theorem encodeIsAccepted : Obligations.EncodeIsAccepted := fun _ hst hpix hmsg hpwd =>
  exec_encode_accepted hst ((configCheck_eq_none true _).2 ⟨hpix, fun _ => hmsg, hpwd⟩)

/-! ### The deciding steps -/

/-- The Protected variant is the one of a password that is present and not empty (R200). -/
theorem protectedVariant_eq_true (s : State) :
    s.protectedVariant = true ↔ s.present = true ∧ 0 < s.pwdlen.toNat := by
  rw [State.protectedVariant, Bool.and_eq_true, decide_eq_true_iff]

/-- A payload that does not fit ends the command in `E_CHKCAP` (R242). -/
theorem stepEChkcap_of_not_fits {s : State} (h : s.cap < HDRW + 8 * s.paylen.toNat) :
    stepEChkcap s = .next (finish .capacityError subCapExceeded s) := by
  rw [stepEChkcap_eq, if_neg (Nat.not_le.2 h)]

/-- A payload that fits is accepted by `E_CHKCAP` (R242). -/
theorem stepEChkcap_of_fits {s : State} (h : HDRW + 8 * s.paylen.toNat ≤ s.cap) :
    stepEChkcap s = .next { s with n := BitVec.ofNat 32 (8 * s.paylen.toNat), st := .eClone } := by
  rw [stepEChkcap_eq, if_pos h]

/-- The length in bits of a payload that fits is a 32-bit number (R242). -/
theorem paylenBits_lt_of_fits {s : State} (h : HDRW + 8 * s.paylen.toNat ≤ s.cap) : 8 * s.paylen.toNat < 2 ^ 32 := by
  have hcap := cap_lt s
  omega

/-- Settles O36: `PAYLEN` holds any payload's length, and `N` the bit length of any payload that fits. -/
theorem encoderDecidingSteps : Obligations.EncoderDecidingSteps := by
  refine ⟨fun s hst => ?_, fun s hst => ⟨fun h => ?_, fun h => ?_⟩⟩
  · rw [engineStep_eBuild hst, stepEBuild_eq]
    exact ⟨_, rfl, rfl, protectedVariant_eq_true s, toNat_ofNat_of_lt (payloadLength_lt s _)⟩
  · rw [engineStep_eChkcap hst, stepEChkcap_of_not_fits h]
    rfl
  · rw [engineStep_eChkcap hst, stepEChkcap_of_fits h]
    exact ⟨_, rfl, rfl, toNat_ofNat_of_lt (paylenBits_lt_of_fits h)⟩

/-! ### The clone -/

/-- A byte after the first bytes of one memory were copied to another. -/
theorem copyFirst_byteAt (s : State) (k src m : MemName) (len a : Nat) :
    (s.setMem k ((s.mem k).writeList 0 (s.bytes src 0 len))).byteAt m a =
      if m = k ∧ a < len then s.byteAt src a else s.byteAt m a := by
  rw [writeList_byteAt, bytes_length]
  split
  · next h => rw [bytes_getD _ _ _ _ _ h.2, Nat.zero_add]
  · rfl

/-- Settles O37: under the invariant the buffer fits its memory, and the step copies it. -/
theorem cloneStep : Obligations.CloneStep := by
  intro s hinv hst
  rw [engineStep_eClone hst, stepEClone_eq s (hinv.pixlen_le (by simp [hst]))]
  refine ⟨_, rfl, rfl, fun m a => ?_⟩
  rw [← copyFirst_byteAt s .pixo .pixi m s.pixlen.toNat a]
  cases m <;> rfl

end Sys2Proof.Machine
end

section
/-! The Decoder's steps that read no pixel (46_decode): acceptance (R270), the header's tests (R272), detection and
the Plain payload (R274, R275), the password (R276) and the message (R277). -/

namespace Sys2Proof.Machine

/-! ### Acceptance and the header -/

/-- Settles O11: with the lengths within the depths the configuration check passes, whatever `MSGLEN`. -/
theorem decodeIsAccepted : Obligations.DecodeIsAccepted := fun s hst hpix hpwd =>
  ⟨s.free + 1, exec_decode_accepted hst
    ((configCheck_eq_none false s).2 ⟨hpix, fun he => absurd he Bool.false_ne_true, hpwd⟩)⟩

/-- Settles O41: each clause takes one branch of R272's tests, in their order. -/
theorem validateHeaderStep : Obligations.ValidateHeaderStep := by
  intro s hst
  have hzero : s.hsr = 0 ↔ s.hsr.toNat = 0 := BitVec.toNat_eq
  rw [engineStep_dValhdr hst, stepDValhdr_eq]
  simp only [hzero]
  refine ⟨fun h0 => if_pos h0, fun h0 hrange => ?_, fun h0 hfit halign => ?_, fun h0 hfit halign => ?_⟩
  · exact (if_neg h0).trans (if_pos hrange)
  · exact (if_neg h0).trans ((if_neg (Nat.not_lt.2 hfit)).trans (if_pos halign))
  · exact (if_neg h0).trans ((if_neg (Nat.not_lt.2 hfit)).trans (if_neg (not_not.2 halign)))

/-! ### Detection, and the Plain payload -/

/-- Settles O42: under the invariant the payload lies within `EXT` and `OUT`, so both steps answer. -/
theorem detectAndReturnPlainSteps : Obligations.DetectAndReturnPlainSteps := by
  refine ⟨fun s hinv hst => ?_, fun s hinv hst => ?_⟩
  · have hext := hinv.extracted_le (.inl hst)
    rw [engineStep_dDetprot hst, stepDDetprot_eq s fun h => h.trans hext]
    exact ⟨fun h => if_pos h, fun h => if_neg h⟩
  · rw [engineStep_dRetplain hst, stepDRetplain_eq s (hinv.extracted_le (.inr (.inl hst)))]
    refine ⟨_, rfl, rfl, fun m a => ?_⟩
    rw [← copyFirst_byteAt s .out .ext m s.extlen.toNat a]
    cases m <;> rfl

/-! ### Parts of a byte sequence -/

theorem bytes_drop (s : State) (m : MemName) (a len k : Nat) :
    (s.bytes m a len).drop k = s.bytes m (a + k) (len - k) := by
  refine List.ext_getElem (by simp) fun i h1 h2 => ?_
  rw [List.getElem_drop, bytes_getElem, bytes_getElem, Nat.add_assoc]

/-- Two ranges of equal length hold the same bytes exactly when they do so byte by byte. -/
theorem bytes_eq_iff (s : State) (m k : MemName) (a b len : Nat) :
    s.bytes m a len = s.bytes k b len ↔ ∀ i < len, s.byteAt m (a + i) = s.byteAt k (b + i) := by
  refine ⟨fun h i hi => ?_, bytes_congr⟩
  rw [← bytes_getD s m a len i hi 0, h, bytes_getD s k b len i hi 0]

/-- A byte after a range of one memory was copied to the start of another. -/
theorem copyRange_byteAt (s : State) (k src m : MemName) (b len a : Nat) :
    (s.setMem k ((s.mem k).writeList 0 (s.bytes src b len))).byteAt m a =
      if m = k ∧ a < len then s.byteAt src (b + a) else s.byteAt m a := by
  rw [writeList_byteAt, bytes_length]
  split
  · next h => exact bytes_getD _ _ _ _ _ h.2 _
  · rfl

/-! ### The password -/

/-- The separator lies within the payload (R12). -/
theorem separator_le {s : State} {p : Nat} (hp : occurrences (s.bytes .ext 0 s.extlen.toNat) SEP = [p]) :
    p + 6 ≤ s.extlen.toNat := by
  have hmem : p ∈ occurrences (s.bytes .ext 0 s.extlen.toNat) SEP := by rw [hp]; exact List.mem_singleton_self p
  have hle := ((mem_occurrences (by decide)).1 hmem).1
  rwa [SEP_length, bytes_length] at hle

/-- `PWD` holds the password that stands between `MARK` and the separator at index `p` (R276, over the integers). -/
def State.PasswordMatches (s : State) (p : Nat) : Prop :=
  (s.pwdlen.toNat : Int) = p - 11 ∧ ∀ i < s.pwdlen.toNat, s.byteAt .pwd i = s.byteAt .ext (11 + i)

/-- The tests of `D_VALPWD` on the password are those of R276. -/
theorem passwordMatches_iff {s : State} {p : Nat} (hp : p + 6 ≤ s.extlen.toNat) :
    s.PasswordMatches p ↔ ¬ (p < 11 ∨ s.pwdlen.toNat ≠ p - 11 ∨
      s.bytes .pwd 0 s.pwdlen.toNat ≠ ((s.bytes .ext 0 s.extlen.toNat).drop 11).take s.pwdlen.toNat) := by
  have hlen : (s.pwdlen.toNat : Int) = p - 11 ↔ ¬ (p < 11 ∨ s.pwdlen.toNat ≠ p - 11) := by omega
  rw [State.PasswordMatches, hlen, ← or_assoc, not_or (p := p < 11 ∨ _), not_not]
  refine and_congr_right fun h => ?_
  rw [List.take_drop, bytes_take _ _ _ _ (by omega), bytes_drop, Nat.add_sub_cancel_left, bytes_eq_iff]
  simp only [Nat.zero_add]

section
variable {s : State} (hinv : s.Inv) (hst : s.st = .dValpwd)
include hinv hst

/-- No separator, or more than one. -/
theorem engineStep_dValpwd_of_occ_ne_one (h : occ (s.bytes .ext 0 s.extlen.toNat) SEP ≠ 1) :
    engineStep s = .next (finish .formatError subSepCount s) := by
  rw [engineStep_dValpwd hst,
    stepDValpwd_eq s (hinv.extracted_le (by simp [hst])) (hinv.decoding_pwdlen_le (by rw [hst]; rfl))]
  rw [occ] at h
  split
  · next p hp => exact absurd (congrArg List.length hp) h
  · rfl

/-- One separator: the tests on the password, in order. -/
theorem engineStep_dValpwd_of_one_separator {p : Nat} (hp : occurrences (s.bytes .ext 0 s.extlen.toNat) SEP = [p]) :
    (s.present = false → engineStep s = .next (finish .authError subPwdRequired s)) ∧
    (s.present = true → ¬ s.PasswordMatches p → engineStep s = .next (finish .authError subPwdIncorrect s)) ∧
    (s.present = true → s.PasswordMatches p →
      engineStep s = .next { s with spos := BitVec.ofNat 32 p, st := .dRetmsg }) := by
  rw [engineStep_dValpwd hst,
    stepDValpwd_eq s (hinv.extracted_le (by simp [hst])) (hinv.decoding_pwdlen_le (by rw [hst]; rfl)), hp]
  have hmatch := passwordMatches_iff (separator_le hp)
  refine ⟨fun hpr => if_pos hpr, fun hpr h => ?_, fun hpr h => ?_⟩
  · exact (if_neg (by simp [hpr])).trans (if_pos (not_not.1 (mt hmatch.2 h)))
  · exact (if_neg (by simp [hpr])).trans (if_neg (hmatch.1 h))

end

/-- Settles O43: the count, then the password; the one separator's index fits `SPOS`. -/
theorem validatePasswordStep : Obligations.ValidatePasswordStep := by
  intro s hinv hst
  refine ⟨engineStep_dValpwd_of_occ_ne_one hinv hst, fun p hp => ?_⟩
  obtain ⟨hmissing, hincorrect, hright⟩ := engineStep_dValpwd_of_one_separator hinv hst hp
  refine ⟨hmissing, fun hpr h => hincorrect hpr ?_, fun hpr hlen hbytes => ⟨_, hright hpr ⟨hlen, hbytes⟩, rfl, ?_⟩⟩
  · rintro ⟨hlen, hbytes⟩
    rcases h with h | ⟨i, hi, hne⟩
    · exact h hlen
    · exact hne (hbytes i hi)
  · have hle := separator_le hp
    exact toNat_ofNat_of_lt (by omega)

/-! ### The message -/

/-- Settles O44: the bytes behind the separator are copied to the start of `OUT`, and `OUTLEN` counts them. -/
theorem returnMessageStep : Obligations.ReturnMessageStep := by
  intro s hinv hst
  have hspos := hinv.dRetmsg_spos_le hst
  rw [engineStep_dRetmsg hst, stepDRetmsg_eq s (hinv.extracted_le (by simp [hst])) hspos, bytes_drop, Nat.zero_add]
  refine ⟨_, rfl, rfl, ?_, fun m a => ?_⟩
  · show (s.extlen - s.spos - 6).toNat = _
    bv_omega
  · rw [Nat.sub_sub, ← copyRange_byteAt s .out .ext m (s.spos.toNat + 6) _ a]
    cases m <;> rfl

end Sys2Proof.Machine
end

section
/-! The register port while a command runs (44_commands R221, 70_reset_and_hazards R351, R352): nothing the host
writes to a register has an effect, and a read has none on the block. -/

namespace Sys2Proof.Machine

open Sys2Proof

/-- A command word decodes to one of the three commands (R91, R92). -/
theorem decodeCmd_isCommand {w : Word} {i : Instr} (h : decodeCmd w = .ok i) : i.isCommand = true := by
  unfold decodeCmd at h
  split at h
  · split at h <;> cases h <;> rfl
  · cases h

/-- Every command ends at the test of `BUSY`, and `NOP` has no effect anyway (R221, R222). -/
theorem exec_of_isCommand_of_busy {i : Instr} (hi : i.isCommand = true) {s : State} (hst : s.st ≠ .idle) :
    exec i s = .next s := by
  have hbusy := busy_of_ne hst
  cases i with
  | nop => rfl
  | encode => exact if_pos hbusy
  | decode => exact if_pos hbusy
  | _ => cases hi

/-- R221 at the port: an instruction's word is ignored by its meaning, a reserved word ahead of the refusal of R223. -/
theorem writeCmd_of_busy (w : Word) {s : State} (hst : s.st ≠ .idle) : writeCmd w s = .next s := by
  cases h : decodeCmd w with
  | ok i => exact (writeCmd_of_decode h s).trans (exec_of_isCommand_of_busy (decodeCmd_isCommand h) hst)
  | error r => rw [writeCmd, h]; exact congrArg _ (if_pos (busy_of_ne hst))

theorem hostWrite_of_busy (r : Nat) (v : Word) {s : State} (hst : s.st ≠ .idle) : hostWrite r v s = .next s := by
  unfold hostWrite
  split
  · exact writeCmd_of_busy v hst
  · exact congrArg _ (if_pos (busy_of_ne hst))

/-- A read returns what the register holds after the move is taken off the list, which is what it held before. -/
theorem step_of_rd {s : State} {r : Nat} {rest : List HostMove} (hu : s.uops = []) (hh : s.host = .rd r :: rest) :
    step s = .next (observe (s.readReg r) { s with host := rest }) :=
  step_of_move hu hh

/-- Settles O7: the write of any word, an instruction or reserved, is ignored. -/
theorem commandWhileBusyIsIgnored : Obligations.CommandWhileBusyIsIgnored := by
  intro s w rest hst hu hh
  rw [step_of_wr_cmd hu hh]
  exact writeCmd_of_busy w hst

/-- Settles O15: a write to a register is ignored, `CMD` among them; a read is the same whether a command runs
or not. -/
theorem registersWhileBusy : Obligations.RegistersWhileBusy := by
  refine fun s rest r hst hu => ⟨fun v hh => ?_, fun hh => step_of_rd hu hh⟩
  rw [step_of_move hu hh]
  exact hostWrite_of_busy r v hst

end Sys2Proof.Machine
end

section
/-! The encoding (30_encoding R91, R92, R95): decoding and encoding are inverse to each other, and what is left
out is reserved. -/

namespace Sys2Proof.Machine

open Sys2Proof

theorem decode_encode (i : Instr) : decode (encode i) = .ok i := by cases i <;> rfl

/-- A command word that decodes is its instruction's word: the field `op` is then the whole word (R91). -/
theorem encode_of_decodeCmd {w : Word} {i : Instr} (h : decodeCmd w = .ok i) : encode i = .cmd w := by
  unfold decodeCmd at h
  split at h
  · next hz =>
    have hop := cmdOpField_toNat hz
    split at h
    · next h0 => cases h; exact congrArg _ (BitVec.eq_of_toNat_eq (x := 0#32) (h0.symm.trans hop))
    · next h1 => cases h; exact congrArg _ (BitVec.eq_of_toNat_eq (x := 1#32) (h1.symm.trans hop))
    · next h2 => cases h; exact congrArg _ (BitVec.eq_of_toNat_eq (x := 2#32) (h2.symm.trans hop))
    · cases h
  · cases h

/-- The table of the micro-operation codes, read from the code. -/
theorem encode_of_mem_decodeUop : ∀ c : BitVec 4, ∀ i ∈ (decodeUop c).toOption, encode i = .uop c := by decide

theorem encode_of_decodeUop {c : BitVec 4} {i : Instr} (h : decodeUop c = .ok i) : encode i = .uop c :=
  encode_of_mem_decodeUop c i (by rw [h]; rfl)

theorem encode_of_decode {r : RawWord} {i : Instr} (h : decode r = .ok i) : encode i = r := by
  cases r with
  | cmd w => exact encode_of_decodeCmd h
  | uop c => exact encode_of_decodeUop h

/-- The words that are instructions are well-formed. -/
theorem wellFormed_encode (i : Instr) : (encode i).wellFormed = true := by cases i <;> rfl

/-- A well-formed command word has a field `op` the decoder knows. -/
theorem decodeCmd_of_wellFormed {w : Word} (h : (RawWord.cmd w).wellFormed = true) : ∃ i, decodeCmd w = .ok i := by
  simp only [RawWord.wellFormed, Bool.and_eq_true, beq_iff_eq, decide_eq_true_eq] at h
  obtain ⟨hz, hop⟩ := h
  rw [decodeCmd, if_pos hz]
  generalize (cmdOpField w).toNat = op at hop
  interval_cases op
  · exact ⟨.nop, rfl⟩
  · exact ⟨.encode, rfl⟩
  · exact ⟨.decode, rfl⟩

theorem decodeUop_of_wellFormed {c : BitVec 4} (h : (RawWord.uop c).wellFormed = true) : ∃ i, decodeUop c = .ok i := by
  have hsome : ∀ c : BitVec 4, (RawWord.uop c).wellFormed = true → (decodeUop c).isOk = true := by decide
  have hok := hsome c h
  cases hd : decodeUop c with
  | ok i => exact ⟨i, rfl⟩
  | error r => rw [hd] at hok; cases hok

/-- Settles O3: the two directions, and the words that decode. -/
theorem decodeAndEncodeAgree : Obligations.DecodeAndEncodeAgree := by
  refine ⟨fun i _ => decode_encode i, fun r i h => encode_of_decode h, fun r => ⟨fun h => ?_, ?_⟩⟩
  · cases r with
    | cmd w => exact decodeCmd_of_wellFormed h
    | uop c => exact decodeUop_of_wellFormed h
  · rintro ⟨i, hi⟩
    exact encode_of_decode hi ▸ wellFormed_encode i

/-- Settles O2: the three opcodes decode and every other command word is reserved; the codes are reserved from 0xB on. -/
theorem reservedWordsAreRejected : Obligations.ReservedWordsAreRejected := by
  refine ⟨fun w => ⟨fun h => ⟨?_, ?_, ?_⟩, fun ⟨h0, h1, h2⟩ => decodeCmd_reserved h0 h1 h2⟩, by decide⟩
  · rintro rfl; cases h.symm.trans (decode_encode .nop)
  · rintro rfl; cases h.symm.trans (decode_encode .encode)
  · rintro rfl; cases h.symm.trans (decode_encode .decode)

/-- Settles O1: each word is its instruction's, and the table's numbering leads to the same decoder. -/
theorem opcodeWordsDecode : Obligations.OpcodeWordsDecode :=
  ⟨decode_encode .nop, decode_encode .encode, decode_encode .decode, decode_encode .uNone, decode_encode .uLdb,
    decode_encode .uSho, decode_encode .uShi, decode_encode .uStb, decode_encode .uHld, decode_encode .uHso,
    decode_encode .uHsi, decode_encode .uEmb, decode_encode .uExt, decode_encode .uCln, by decide, by decide, by decide⟩

end Sys2Proof.Machine
end

section
/-! The invariant of every run (10_state section 4, 20_memory section 5): it holds after reset, the engine's step
keeps it and never stops, and each move of the outside keeps it. -/

namespace Sys2Proof.Machine

open Sys2Proof

/-- Settles O49: the step rule of each sequencer state answers, and keeps the invariant. -/
theorem engineNeverStops : Obligations.EngineNeverStops := fun _ h => engineStep_inv h

/-! ### What a state needs while no command runs -/

/-- In `IDLE` nothing is asked of the datapath registers. -/
theorem Inv_of_idle {t : State} (hst : t.st = .idle) (hm : t.MemOk) (hp : t.params.wellFormed = true)
    (hu : t.uops = []) (hd : t.done = false → t.err = .none) (he : legalEnding t.err t.sub = true) : t.Inv where
  memOk := hm
  paramsOk := hp
  uopsDone := hu
  notBoth := fun hb => by rw [busy_of_idle hst] at hb; cases hb
  noErrorYet := hd
  endingOk := he
  phaseOk := by rw [State.PhaseOk, hst]; trivial

/-- Settles O47: after reset the memories list nothing and `STATUS` is 0. -/
theorem invariantHoldsAtReset : Obligations.InvariantHoldsAtReset :=
  Inv_of_idle rfl (fun m => by cases m <;> exact ⟨Memory.powerUp_wf, by simp [State.mem, State.reset, Memory.powerUp]⟩)
    (by decide) rfl (fun _ => rfl) rfl

/-! ### The moves of the outside -/

/-- The moves still to make are no matter of the block. -/
theorem State.Inv.withHost {s : State} (h : s.Inv) (rest : List HostMove) : ({ s with host := rest } : State).Inv where
  memOk := MemOk_congr h.memOk (fun m => by cases m <;> rfl) rfl
  paramsOk := h.paramsOk
  uopsDone := h.uopsDone
  notBoth := h.notBoth
  noErrorYet := h.noErrorYet
  endingOk := h.endingOk
  phaseOk := h.phaseOk

/-- Nor are the values read. -/
theorem observe_inv {s : State} (h : s.Inv) (v : Word) : (observe v s).Inv where
  memOk := MemOk_congr h.memOk (fun m => by cases m <;> rfl) rfl
  paramsOk := h.paramsOk
  uopsDone := h.uopsDone
  notBoth := h.notBoth
  noErrorYet := h.noErrorYet
  endingOk := h.endingOk
  phaseOk := h.phaseOk

theorem refuseCommand_inv {s : State} (h : s.Inv) (hst : s.st = .idle) {e : ErrKind} {sub : BitVec 3}
    (he : legalEnding e sub = true) : (refuseCommand e sub s).Inv :=
  Inv_of_idle hst (MemOk_congr h.memOk (refuseCommand_mem e sub s) rfl) h.paramsOk h.uopsDone
    (fun hd => by cases hd) he

theorem writeReg_inv {s : State} (h : s.Inv) (hst : s.st = .idle) (r : Nat) (v : Word) : (s.writeReg r v).Inv := by
  unfold State.writeReg
  split
  case h_5 => exact h
  all_goals
    exact Inv_of_idle hst (MemOk_congr h.memOk (fun m => by cases m <;> rfl) rfl) h.paramsOk h.uopsDone h.noErrorYet h.endingOk

/-- A command word: `NOP`, a refusal of the configuration check, or acceptance (R222, R224, R225). -/
theorem exec_command_inv {s t : State} {i : Instr} (h : s.Inv) (hst : s.st = .idle) (hi : i.isCommand = true)
    (ht : exec i s = .next t) : t.Inv := by
  cases i with
  | nop => cases ht; exact h
  | encode =>
    cases hc : configCheck true s with
    | none => rw [exec_encode_accepted hst hc] at ht; cases ht; exact acceptEncode_inv h hc
    | some sub => rw [exec_encode_refused hst hc] at ht; cases ht; exact refuseCommand_inv h hst (configCheck_some hc)
  | decode =>
    cases hc : configCheck false s with
    | none => rw [exec_decode_accepted hst hc] at ht; cases ht; exact acceptDecode_inv h hc
    | some sub => rw [exec_decode_refused hst hc] at ht; cases ht; exact refuseCommand_inv h hst (configCheck_some hc)
  | _ => cases hi

theorem writeCmd_inv {s t : State} {w : Word} (h : s.Inv) (hst : s.st = .idle) (ht : writeCmd w s = .next t) : t.Inv := by
  cases hw : decodeCmd w with
  | ok i =>
    rw [writeCmd_of_decode hw] at ht
    exact exec_command_inv h hst (decodeCmd_isCommand hw) ht
  | error r =>
    rw [writeCmd_of_reserved hw hst] at ht
    cases ht
    exact refuseCommand_inv h hst rfl

theorem hostWrite_of_ne_zero {r : Nat} (hr : r ≠ 0) {v : Word} {s : State} (hst : s.st = .idle) :
    hostWrite r v s = .next (s.writeReg r v) := by
  rw [hostWrite, if_neg hr, busy_of_idle hst]; rfl

theorem hostWrite_inv {s t : State} {r : Nat} {v : Word} (h : s.Inv) (ht : hostWrite r v s = .next t) : t.Inv := by
  by_cases hst : s.st = .idle
  · by_cases hr : r = 0
    · rw [hostWrite, if_pos hr] at ht
      exact writeCmd_inv h hst ht
    · rw [hostWrite_of_ne_zero hr hst] at ht
      cases ht
      exact writeReg_inv h hst r v
  · rw [hostWrite_of_busy r v hst] at ht
    cases ht
    exact h

theorem hostPoke_of_idle {s : State} (hst : s.st = .idle) (m : HostWritable) (a : Nat) (v : Byte) :
    hostPoke m a v s = storeByte m.name a v s := by
  rw [hostPoke, busy_of_idle hst]; rfl

theorem hostPoke_of_busy {s : State} (hst : s.st ≠ .idle) (m : HostWritable) (a : Nat) (v : Byte) :
    hostPoke m a v s = .refused (.memoryWhileBusy m.name) := by
  rw [hostPoke, busy_of_ne hst]; rfl

theorem hostPeek_of_idle {s : State} (hst : s.st = .idle) (m : HostReadable) (a : Nat) :
    hostPeek m a s = if a < s.depth m.name then .next (observe ((s.hostByte m a).setWidth 32) s)
      else .fault (.noSuchAddress m.name) := by
  rw [hostPeek, busy_of_idle hst]; rfl

theorem hostPeek_of_busy {s : State} (hst : s.st ≠ .idle) (m : HostReadable) (a : Nat) :
    hostPeek m a s = .refused (.memoryWhileBusy m.name) := by
  rw [hostPeek, busy_of_ne hst]; rfl

theorem setMem_inv {s : State} (h : s.Inv) (hst : s.st = .idle) {k : MemName} {x : Memory} (hm : (s.setMem k x).MemOk) :
    (s.setMem k x).Inv :=
  Inv_of_idle (by simpa using hst) hm (by simpa using h.paramsOk) (by simpa using h.uopsDone)
    (by simpa using h.noErrorYet) (by simpa using h.endingOk)

theorem hostPoke_inv {s t : State} {m : HostWritable} {a : Nat} {v : Byte} (h : s.Inv)
    (ht : hostPoke m a v s = .next t) : t.Inv := by
  by_cases hst : s.st = .idle
  · rw [hostPoke_of_idle hst, storeByte_eq_next] at ht
    obtain ⟨ha, rfl⟩ := ht
    exact setMem_inv h hst (MemOk_write h.memOk ha)
  · rw [hostPoke_of_busy hst] at ht; cases ht

theorem hostPeek_inv {s t : State} {m : HostReadable} {a : Nat} (h : s.Inv) (ht : hostPeek m a s = .next t) : t.Inv := by
  by_cases hst : s.st = .idle
  · rw [hostPeek_of_idle hst] at ht
    split at ht <;> cases ht
    exact observe_inv h _
  · rw [hostPeek_of_busy hst] at ht; cases ht

/-! ### Reset -/

theorem memOk_of_emptied {s : State} (h : s.MemOk) (k : MemName) (g : Nat) : (s.setMem k { cells := [], gen := g }).MemOk :=
  MemOk_setMem h List.Pairwise.nil (fun c hc => by cases hc)

/-- What an abandoned command was writing stays in its address space (R341). -/
theorem abandonCommand_memOk {s : State} (h : s.Inv) : (abandonCommand s).MemOk := by
  unfold abandonCommand
  dsimp only
  split
  · next he =>
    have hpix := h.pixlen_le (by intro hst; rw [hst] at he; cases he)
    refine MemOk_congr (MemOk_writeList (k := .pixo)
      (vs := (List.range s.pixlen.toNat).map fun a => Config.unspecifiedByte .pixo (s.free + 1) a) h.memOk ?_)
      (fun m => by cases m <;> rfl) rfl
    simpa [State.depth] using hpix
  · split
    · exact MemOk_congr (memOk_of_emptied (memOk_of_emptied h.memOk .ext (s.free + 1)) .out (s.free + 1))
        (fun m => by cases m <;> rfl) rfl
    · exact h.memOk

/-- Reset keeps the parameters and the model's own lists. -/
theorem abandonCommand_frame (s : State) :
    (abandonCommand s).params = s.params ∧ (abandonCommand s).host = s.host ∧ (abandonCommand s).reads = s.reads ∧
      (abandonCommand s).uops = s.uops ∧ (abandonCommand s).pixi = s.pixi ∧ (abandonCommand s).msg = s.msg ∧
      (abandonCommand s).pwd = s.pwd := by
  unfold abandonCommand
  dsimp only
  split
  · exact ⟨rfl, rfl, rfl, rfl, rfl, rfl, rfl⟩
  · split <;> exact ⟨rfl, rfl, rfl, rfl, rfl, rfl, rfl⟩

theorem resetBlock_inv {s : State} (h : s.Inv) : (resetBlock s).Inv := by
  obtain ⟨hparams, -, -, huops, -⟩ := abandonCommand_frame s
  exact Inv_of_idle rfl (MemOk_congr (abandonCommand_memOk h) (fun m => by cases m <;> rfl) rfl)
    (by show (abandonCommand s).params.wellFormed = true; rw [hparams]; exact h.paramsOk)
    (huops.trans h.uopsDone) (fun _ => rfl) rfl

/-! ### Every step -/

theorem engineStep_keeps_inv {s t : State} (h : s.Inv) (ht : engineStep s = .next t) : t.Inv := by
  obtain ⟨u, hu, hinv⟩ := engineStep_inv h
  cases hu.symm.trans ht
  exact hinv

theorem hostStep_inv {s t : State} {mv : HostMove} {rest : List HostMove} (h : s.Inv)
    (ht : hostStep mv rest s = .next t) : t.Inv := by
  cases mv with
  | wr r v => exact hostWrite_inv (h.withHost rest) ht
  | rd r => cases ht; exact observe_inv (h.withHost rest) _
  | poke m a v => exact hostPoke_inv (h.withHost rest) ht
  | peek m a => exact hostPeek_inv (h.withHost rest) ht
  | wait =>
    simp only [hostStep] at ht
    split at ht
    · cases ht; exact h.withHost rest
    · exact engineStep_keeps_inv h ht
  | idle => exact engineStep_keeps_inv (h.withHost rest) ht
  | rst => cases ht; exact resetBlock_inv (h.withHost rest)
  | ifOk count => cases ht; exact h.withHost _
  | dumpRead m => cases ht; exact h.withHost _
  | loadRead m count => cases ht; exact h.withHost _

theorem step_inv {s t : State} (h : s.Inv) (ht : step s = .next t) : t.Inv := by
  cases hh : s.host with
  | nil => exact engineStep_keeps_inv h (step_of_quiet h.uopsDone hh ▸ ht)
  | cons mv rest => exact hostStep_inv h (step_of_move h.uopsDone hh ▸ ht)

/-- Settles O48: the step is the engine's or a move of the outside, and each keeps the invariant. -/
theorem invariantIsKeptByEveryStep : Obligations.InvariantIsKeptByEveryStep := fun _ _ h ht => step_inv h ht

/-- Every state of a run has the invariant. -/
theorem run_inv {k : Nat} {s t : State} (h : s.Inv) (ht : run k s = .next t) : t.Inv := by
  induction k generalizing s with
  | zero => cases ht; exact h
  | succ k ih =>
    rw [run_succ, andThen_eq_next] at ht
    obtain ⟨u, hu, hrun⟩ := ht
    exact ih (step_inv h hu) hrun

end Sys2Proof.Machine
end

section
/-! The BitStream codec and the LSB cell as functions (40_bitstream_codec R134, 41_lsb_cell R171). -/

namespace Sys2Proof.Machine

open Sys2Proof

/-! ### Numbers and bitstrings -/

/-- A byte's bits are its `uintToBits`. -/
theorem byteBits_eq (x : Byte) : byteBits x = uintToBits x := rfl

theorem bitsToUint_uintToBits {w : Nat} (n : BitVec w) : bitsToUint (uintToBits n) = n.toNat := by
  have hlen := uintToBits_length n
  refine Nat.eq_of_testBit_eq fun i => ?_
  by_cases hi : i < w
  · rw [bitsToUint_testBit _ _ (by omega), List.getD_eq_getElem?_getD, uintToBits_get _ _ (by omega), Option.getD_some, hlen]
    exact congrArg n.getLsbD (by omega)
  · have hle : 2 ^ w ≤ 2 ^ i := Nat.pow_le_pow_right (by decide) (Nat.not_lt.1 hi)
    have hlt := bitsToUint_lt (uintToBits n)
    rw [hlen] at hlt
    rw [Nat.testBit_lt_two_pow (hlt.trans_le hle), Nat.testBit_lt_two_pow (n.isLt.trans_le hle)]

theorem uintToBits_ofNat_bitsToUint {w : Nat} {s : List Bool} (h : s.length = w) :
    uintToBits (BitVec.ofNat w (bitsToUint s)) = s := by
  refine List.ext_getElem (by rw [uintToBits_length, h]) fun i h1 h2 => ?_
  have hi : i < w := by omega
  have hget := uintToBits_get (BitVec.ofNat w (bitsToUint s)) i hi
  rw [BitVec.getLsbD_ofNat, bitsToUint_testBit _ _ (by omega), decide_eq_true (by omega), Bool.true_and,
    show s.length - 1 - (w - 1 - i) = i by omega, List.getD_eq_getElem _ _ h2, List.getElem?_eq_getElem h1] at hget
  exact Option.some.inj hget

/-! ### Bytes and bitstrings, byte by byte -/

/-- The first eight bits make the first byte (R131). -/
theorem bitsToBytes_append_eight {b : List Bool} (hb : b.length = 8) (s : List Bool) :
    bitsToBytes (b ++ s) = (bitsToBytes s).map (BitVec.ofNat 8 (bitsToUint b) :: ·) := by
  unfold bitsToBytes
  rw [List.length_append, hb, Nat.add_mod_left]
  split
  · rw [show (8 + s.length) / 8 = s.length / 8 + 1 by omega, List.range_succ_eq_map, List.map_cons, List.map_map,
      Option.map_some, Nat.mul_zero, List.drop_zero, List.take_left' hb]
    refine congrArg some (congrArg _ (List.map_congr_left fun q _ => ?_))
    show BitVec.ofNat 8 (bitsToUint (((b ++ s).drop (8 * (q + 1))).take 8)) = _
    rw [show 8 * (q + 1) = b.length + 8 * q by omega, List.drop_length_add_append]
  · rfl

theorem bitsToBytes_bytesToBits (xs : List Byte) : bitsToBytes (bytesToBits xs) = some xs := by
  induction xs with
  | nil => rfl
  | cons x xs ih =>
    rw [bytesToBits_cons, bitsToBytes_append_eight (byteBits_length x), ih, byteBits_eq, bitsToUint_uintToBits,
      BitVec.ofNat_toNat, BitVec.setWidth_eq]
    rfl

theorem bytesToBits_bitsToBytes {s : List Bool} (h : s.length % 8 = 0) :
    ∃ xs, bitsToBytes s = some xs ∧ bytesToBits xs = s := by
  induction hn : s.length using Nat.strong_induction_on generalizing s with
  | _ n ih =>
    by_cases h0 : s.length = 0
    · exact ⟨[], by rw [List.length_eq_zero_iff.1 h0]; rfl, (List.length_eq_zero_iff.1 h0).symm⟩
    · have htake : (s.take 8).length = 8 := by rw [List.length_take]; omega
      obtain ⟨xs, hxs, hbits⟩ := ih (s.drop 8).length (by rw [List.length_drop]; omega)
        (by rw [List.length_drop]; omega) rfl
      refine ⟨BitVec.ofNat 8 (bitsToUint (s.take 8)) :: xs, ?_, ?_⟩
      · rw [← List.take_append_drop 8 s, bitsToBytes_append_eight htake, hxs, List.take_left' htake]
        rfl
      · rw [bytesToBits_cons, byteBits_eq, uintToBits_ofNat_bitsToUint htake, hbits, List.take_append_drop]

/-- Settles O30: bytes against bitstrings byte by byte, numbers against bitstrings bit by bit. -/
theorem codecInverseLaws : Obligations.CodecInverseLaws :=
  ⟨bitsToBytes_bytesToBits, fun _ h => bytesToBits_bitsToBytes h, bitsToUint_uintToBits,
    fun _ h => uintToBits_ofNat_bitsToUint h⟩

/-! ### The LSB cell -/

theorem setLSB_getLsbD_zero (x : Byte) (v : Bool) : (setLSB x v).getLsbD 0 = v := by
  cases v <;> simp [setLSB, bitByte]

/-- The mask 0xFE keeps bits 7:1, and the bit put in reaches none of them (R165). -/
theorem setLSB_getLsbD_of_pos (x : Byte) (v : Bool) {i : Nat} (h : 1 ≤ i) : (setLSB x v).getLsbD i = x.getLsbD i := by
  have hmask : (0xFE#8).getLsbD i = decide (i < 8) := by
    by_cases hi : i < 8
    · interval_cases i <;> rfl
    · rw [BitVec.getLsbD_of_ge _ _ (by omega), decide_eq_false hi]
  have hbit : (bitByte v).getLsbD i = false := by
    cases v
    · exact BitVec.getLsbD_zero
    · show (1#8).getLsbD i = false
      rw [BitVec.getLsbD_one]; simp; omega
  rw [setLSB, BitVec.getLsbD_or, BitVec.getLsbD_and, hmask, hbit, Bool.or_false]
  by_cases hi : i < 8
  · simp [hi]
  · rw [BitVec.getLsbD_of_ge x i (by omega), Bool.false_and]

/-- Two bytes with the same bit 0 and the same bits 7:1 are equal. -/
theorem byte_ext {x y : Byte} (h0 : x.getLsbD 0 = y.getLsbD 0) (h : ∀ i, 1 ≤ i → x.getLsbD i = y.getLsbD i) : x = y := by
  refine BitVec.eq_of_getLsbD_eq fun i _ => ?_
  cases i with
  | zero => exact h0
  | succ i => exact h _ (by omega)

theorem lsb_setLSB (x : Byte) (v : Bool) : lsb (setLSB x v) = v := setLSB_getLsbD_zero x v

theorem setLSB_lsb (x : Byte) : setLSB x (lsb x) = x :=
  byte_ext (setLSB_getLsbD_zero _ _) fun _ hi => setLSB_getLsbD_of_pos _ _ hi

theorem setLSB_setLSB (x : Byte) (v w : Bool) : setLSB (setLSB x v) w = setLSB x w :=
  byte_ext (by rw [setLSB_getLsbD_zero, setLSB_getLsbD_zero]) fun i hi => by
    rw [setLSB_getLsbD_of_pos _ _ hi, setLSB_getLsbD_of_pos _ _ hi, setLSB_getLsbD_of_pos _ _ hi]

theorem setLSB_true (x : Byte) : setLSB x true = x ||| 0x01#8 :=
  byte_ext (by simp [setLSB_getLsbD_zero]) fun i hi => by
    rw [setLSB_getLsbD_of_pos _ _ hi, BitVec.getLsbD_or, BitVec.getLsbD_one]; simp; omega

theorem setLSB_false (x : Byte) : setLSB x false = x &&& 0xFE#8 := BitVec.or_zero

theorem lsb_toNat (x : Byte) : (lsb x).toNat = x.toNat % 2 := by
  rw [lsb, BitVec.getLsbD, Nat.testBit_zero]
  rcases Nat.mod_two_eq_zero_or_one x.toNat with h | h <;> simp [h]

/-- Settles O28: the values of R165 and R166, bit by bit, and the laws of R171 from them. -/
theorem lsbCellLaws : Obligations.LsbCellLaws :=
  ⟨fun x => ⟨setLSB_true x, setLSB_false x, lsb_toNat x⟩,
    fun x v => ⟨setLSB_getLsbD_zero x v, fun _ => setLSB_getLsbD_of_pos x v⟩,
    fun x v w => ⟨lsb_setLSB x v, setLSB_lsb x, setLSB_setLSB x v w⟩⟩

end Sys2Proof.Machine
end

section
/-! The frame and the payload as functions (42_frame, 43_protection): what `writeFrame` changes, the round trip of
the frame, and the separators. -/

namespace Sys2Proof.Machine

open Sys2Proof

/-! ### `writeFrame` -/

theorem frameBits_length (p : List Byte) : (frameBits p).length = HDRW + 8 * p.length := by
  rw [frameBits, List.length_append, uintToBits_length, bytesToBits_length]

theorem writeFrame_length (buf p : List Byte) : (writeFrame buf p).length = buf.length := embedFrom_length 0 _ buf

theorem writeFrame_getD (buf p : List Byte) {a : Nat} (ha : a < buf.length) :
    (writeFrame buf p).getD a 0 =
      if a % 4 = 0 ∧ a / 4 < HDRW + 8 * p.length then setLSB (buf.getD a 0) ((frameBits p).getD (a / 4) false)
      else buf.getD a 0 := by
  rw [writeFrame, embedFrom_getD _ _ _ _ ha, frameBits_length]
  simp only [Nat.zero_le, true_and, Nat.zero_add, Nat.sub_zero]

/-- Settles O31: the loop of R180 reaches the first byte of each frame pixel and no other. -/
theorem writeFrameFootprint : Obligations.WriteFrameFootprint :=
  fun buf p _ => ⟨writeFrame_length buf p, fun _ ha => writeFrame_getD buf p ha⟩

/-! ### The round trip of the frame -/

theorem capacity_writeFrame (buf p : List Byte) : capacity (writeFrame buf p) = capacity buf := by
  rw [capacity, writeFrame_length, capacity]

/-- The pixels of the frame hold the frame's bits. -/
theorem channelBits_writeFrame {buf p : List Byte} (h : HDRW + 8 * p.length ≤ capacity buf) (k l : Nat)
    (hkl : k + l ≤ HDRW + 8 * p.length) : channelBits (writeFrame buf p) k l = ((frameBits p).drop k).take l := by
  have hlen := frameBits_length p
  refine List.ext_getElem (by rw [channelBits_length, List.length_take, List.length_drop]; omega) fun j h1 h2 => ?_
  rw [channelBits_length] at h1
  have hbit : (channelBits (writeFrame buf p) k l)[j]? = some ((frameBits p).getD (k + j) false) := by
    rw [capacity, BPP] at h
    rw [channelBits_get _ _ _ _ h1, EA, BPP, writeFrame_getD _ _ (by omega), if_pos (by omega), lsb_setLSB,
      Nat.mul_div_cancel_left _ (by decide)]
  rw [List.getElem?_eq_getElem (by rwa [channelBits_length]), List.getD_eq_getElem _ _ (by omega)] at hbit
  rw [List.getElem_take, List.getElem_drop]
  exact Option.some.inj hbit

section
variable {buf p : List Byte} (hlen : buf.length < 2 ^ 32) (h : HDRW + 8 * p.length ≤ capacity buf)
include h

include hlen in
/-- The header that is read back is the bit length that was written. -/
theorem readHeader_writeFrame : readHeader (writeFrame buf p) = 8 * p.length := by
  rw [readHeader, channelBits_writeFrame h _ _ (by omega), List.drop_zero, frameBits,
    List.take_left' (uintToBits_length _), bitsToUint_uintToBits]
  rw [capacity, BPP] at h
  exact toNat_ofNat_of_lt (by unfold HDRW; omega)

theorem readPayload_writeFrame : readPayload (writeFrame buf p) (8 * p.length) = p := by
  rw [readPayload, channelBits_writeFrame h _ _ le_rfl, frameBits, List.drop_left' (uintToBits_length _),
    List.take_of_length_le (bytesToBits_length p).le, bitsToBytes_bytesToBits, Option.getD_some]

include hlen in
/-- R189: a payload of at least one byte comes back. -/
theorem readFrame_writeFrame (hp : 1 ≤ p.length) : readFrame (writeFrame buf p) = .ok p := by
  have hheader := readHeader_writeFrame hlen h
  rw [readFrame_ok (by omega) (by rw [capacity_writeFrame]; omega) (by omega), hheader, readPayload_writeFrame h]

include hlen in
/-- The empty payload has the header 0. -/
theorem readFrame_writeFrame_empty (hp : p.length = 0) :
    readFrame (writeFrame buf p) = .error (.formatError, subLenZero) :=
  readFrame_zero (by rw [capacity_writeFrame]; omega) (by rw [readHeader_writeFrame hlen h, hp])

end

/-- Settles O32: the pixels hold the frame's bits, and the codec's inverse laws give them back. -/
theorem frameRoundTrip : Obligations.FrameRoundTrip := fun _ _ hlen h =>
  ⟨readFrame_writeFrame hlen h, readFrame_writeFrame_empty hlen h⟩

/-! ### The capacity boundary -/

theorem sourceEncode_fits {pixels m : List Byte} {q : Option (List Byte)}
    (h : HDRW + 8 * (buildPayload m q).length ≤ capacity pixels) :
    sourceEncode pixels m q = .ok (writeFrame pixels (buildPayload m q)) := if_neg (Nat.not_lt.2 h)

theorem sourceEncode_exceeded {pixels m : List Byte} {q : Option (List Byte)}
    (h : capacity pixels < HDRW + 8 * (buildPayload m q).length) :
    sourceEncode pixels m q = .error (.capacityError, subCapExceeded) := if_pos h

/-- Settles O35: the test of R230 against `floor((CAP - 32) / 8)`. -/
theorem capacityBoundary : Obligations.CapacityBoundary := by
  intro pixels m q
  refine ⟨fun hc => ⟨⟨?_, fun h => ⟨_, sourceEncode_fits ?_⟩⟩, fun h => sourceEncode_exceeded ?_⟩,
    fun hc => sourceEncode_exceeded (by omega)⟩
  · rintro ⟨r, hr⟩
    by_contra hlong
    rw [sourceEncode_exceeded (by unfold HDRW at hc ⊢; omega)] at hr
    cases hr
  · unfold HDRW at hc ⊢; omega
  · unfold HDRW at hc ⊢; omega

/-! ### Occurrences of `SEP` (R207) -/

theorem mem_occurrences_SEP {xs : List Byte} {p : Nat} :
    p ∈ occurrences xs SEP ↔ p + 6 ≤ xs.length ∧ ∀ i < 6, xs.getD (p + i) 0 = SEP.getD i 0 :=
  mem_occurrences (by decide)

/-- The first byte of `SEP` stands in it once. -/
theorem SEP_head_once : ∀ d < 6, d ≠ 0 → SEP.getD d 0 ≠ SEP.getD 0 0 := by decide

/-- Two occurrences do not overlap: the first byte of the one would stand inside the other. -/
theorem separators_apart {xs : List Byte} {p q : Nat} (hp : p ∈ occurrences xs SEP) (hq : q ∈ occurrences xs SEP)
    (hlt : p < q) : p + 6 ≤ q := by
  by_contra hnear
  have hin := (mem_occurrences_SEP.1 hp).2 (q - p) (by omega)
  rw [show p + (q - p) = q + 0 by omega, (mem_occurrences_SEP.1 hq).2 0 (by decide)] at hin
  exact SEP_head_once (q - p) (by omega) (by omega) hin.symm

/-- No `SEP` begins inside `MARK`: its second byte differs at the start, its first byte further on. -/
theorem MARK_second : MARK.getD 1 0 ≠ SEP.getD 1 0 := by decide

theorem MARK_without_head : ∀ d < 11, d ≠ 0 → MARK.getD d 0 ≠ SEP.getD 0 0 := by decide

theorem separator_after_MARK {xs : List Byte} {p : Nat} (hm : startsWith xs MARK = true) (hp : p ∈ occurrences xs SEP) :
    11 ≤ p := by
  have hmark := ((startsWith_iff xs MARK).1 hm).2
  have hsep := (mem_occurrences_SEP.1 hp).2
  by_contra hin
  by_cases h0 : p = 0
  · subst h0
    exact MARK_second ((hmark 1 (by decide)).symm.trans (hsep 1 (by decide)))
  · exact MARK_without_head p (by omega) h0 ((hmark p (by rw [MARK_length]; omega)).symm.trans (hsep 0 (by decide)))

/-- Settles O33: from the bytes of `SEP` and `MARK`. -/
theorem separatorsStandApart : Obligations.SeparatorsStandApart := fun _ _ hp =>
  ⟨fun _ hq hlt => separators_apart hp hq hlt, fun hm => separator_after_MARK hm hp⟩

/-! ### The wrapped payload (R201, R209 to R214) -/

/-- The payload of the Protected variant. -/
def wrapped (p m : List Byte) : List Byte := MARK ++ p ++ SEP ++ m

theorem buildPayload_some {p : List Byte} (hp : p ≠ []) (m : List Byte) : buildPayload m (some p) = wrapped p m := by
  cases p with
  | nil => exact absurd rfl hp
  | cons x xs => rfl

theorem wrapped_length (p m : List Byte) : (wrapped p m).length = 17 + p.length + m.length := by
  simp only [wrapped, List.length_append, MARK_length, SEP_length]; omega

theorem startsWith_wrapped (p m : List Byte) : startsWith (wrapped p m) MARK = true := by
  rw [startsWith, List.isPrefixOf_iff_prefix]
  exact ⟨p ++ SEP ++ m, by simp only [wrapped, List.append_assoc]⟩

theorem wrapped_take (p m : List Byte) : ((wrapped p m).take (11 + p.length)).drop 11 = p := by
  have hlen : (MARK ++ p).length = 11 + p.length := by rw [List.length_append, MARK_length]
  rw [wrapped, List.append_assoc, List.take_left' hlen, List.drop_left' MARK_length]

theorem wrapped_drop (p m : List Byte) : (wrapped p m).drop (11 + p.length + 6) = m := by
  have hlen : (MARK ++ p ++ SEP).length = 11 + p.length + 6 := by
    simp only [List.length_append, MARK_length, SEP_length]
  rw [wrapped, List.drop_left' hlen]

/-- The bytes of a part of a sequence. -/
theorem getD_append_mid (x y z : List Byte) {i : Nat} (hi : i < y.length) :
    (x ++ y ++ z).getD (x.length + i) 0 = y.getD i 0 := by
  rw [List.append_assoc, List.getD_append_right _ _ _ _ (by omega), Nat.add_sub_cancel_left, List.getD_append _ _ _ _ hi]

/-- Where `SEP` stands in a part of a sequence, it stands in the sequence, and conversely. -/
theorem mem_occurrences_mid {x y z : List Byte} {r : Nat} (hr : r + 6 ≤ y.length) :
    x.length + r ∈ occurrences (x ++ y ++ z) SEP ↔ r ∈ occurrences y SEP := by
  have hbytes : ∀ i < 6, (x ++ y ++ z).getD (x.length + r + i) 0 = y.getD (r + i) 0 := fun i hi => by
    rw [Nat.add_assoc, getD_append_mid _ _ _ (by omega)]
  have hfit : x.length + r + 6 ≤ (x ++ y ++ z).length := by simp only [List.length_append]; omega
  rw [mem_occurrences_SEP, mem_occurrences_SEP]
  exact and_congr (iff_of_true hfit hr) (forall₂_congr fun i hi => by rw [hbytes i hi])

section
variable (p m : List Byte)

theorem wrapped_eq_password : wrapped p m = MARK ++ p ++ (SEP ++ m) := by simp only [wrapped, List.append_assoc]

theorem wrapped_eq_message : wrapped p m = (MARK ++ p ++ SEP) ++ m ++ [] := by simp only [wrapped, List.append_nil]

/-- The separator the Encoder puts in. -/
theorem separator_mem_wrapped : 11 + p.length ∈ occurrences (wrapped p m) SEP := by
  have hlen : (MARK ++ p).length = 11 + p.length := by rw [List.length_append, MARK_length]
  have hmid := (mem_occurrences_mid (x := MARK ++ p) (y := SEP) (z := m) (r := 0) (by decide)).2 (by decide)
  rwa [Nat.add_zero, hlen] at hmid

/-- Any other separator stands inside the password or inside the message. -/
theorem mem_occurrences_wrapped {q : Nat} : q ∈ occurrences (wrapped p m) SEP ↔
    q = 11 + p.length ∨ (∃ r ∈ occurrences p SEP, q = 11 + r) ∨ ∃ r ∈ occurrences m SEP, q = 17 + p.length + r := by
  have hsep := separator_mem_wrapped p m
  have hlen : (MARK ++ p ++ SEP).length = 17 + p.length := by
    simp only [List.length_append, MARK_length, SEP_length]; omega
  have inPassword {r : Nat} (hr : r + 6 ≤ p.length) : 11 + r ∈ occurrences (wrapped p m) SEP ↔ r ∈ occurrences p SEP := by
    rw [wrapped_eq_password]; exact mem_occurrences_mid hr
  have inMessage {r : Nat} (hr : r + 6 ≤ m.length) :
      17 + p.length + r ∈ occurrences (wrapped p m) SEP ↔ r ∈ occurrences m SEP := by
    rw [wrapped_eq_message, ← hlen]; exact mem_occurrences_mid hr
  constructor
  · intro hq
    have hle := (mem_occurrences_SEP.1 hq).1
    rw [wrapped_length] at hle
    have hmark := separator_after_MARK (startsWith_wrapped p m) hq
    rcases Nat.lt_trichotomy q (11 + p.length) with hlt | heq | hgt
    · have hapart := separators_apart hq hsep hlt
      obtain ⟨r, rfl⟩ := Nat.exists_eq_add_of_le hmark
      exact .inr (.inl ⟨r, (inPassword (by omega)).1 hq, rfl⟩)
    · exact .inl heq
    · have hapart := separators_apart hsep hq hgt
      obtain ⟨r, rfl⟩ := Nat.exists_eq_add_of_le (show 17 + p.length ≤ q by omega)
      exact .inr (.inr ⟨r, (inMessage (by omega)).1 hq, rfl⟩)
  · rintro (rfl | ⟨r, hr, rfl⟩ | ⟨r, hr, rfl⟩)
    · exact hsep
    · exact (inPassword (mem_occurrences_SEP.1 hr).1).2 hr
    · exact (inMessage (mem_occurrences_SEP.1 hr).1).2 hr

theorem occ_eq_zero_iff {xs ws : List Byte} : occ xs ws = 0 ↔ ∀ q, q ∉ occurrences xs ws := by
  rw [occ, List.length_eq_zero_iff, List.eq_nil_iff_forall_not_mem]

/-- With none in the password and none in the message the Encoder's separator is the only one. -/
theorem occurrences_wrapped_of_clean (hp : occ p SEP = 0) (hm : occ m SEP = 0) :
    occurrences (wrapped p m) SEP = [11 + p.length] := by
  refine List.perm_singleton.1 ((List.perm_ext_iff_of_nodup (occurrences_nodup _ _) (List.nodup_singleton _)).2 fun q => ?_)
  rw [mem_occurrences_wrapped, List.mem_singleton]
  refine ⟨?_, .inl⟩
  rintro (h | ⟨r, hr, -⟩ | ⟨r, hr, -⟩)
  · exact h
  · exact absurd hr (occ_eq_zero_iff.1 hp r)
  · exact absurd hr (occ_eq_zero_iff.1 hm r)

/-- One more in the password or in the message and the count is not 1. -/
theorem occ_wrapped_of_collision (h : occ p SEP ≠ 0 ∨ occ m SEP ≠ 0) : occ (wrapped p m) SEP ≠ 1 := by
  intro hone
  obtain ⟨q, hq⟩ := List.length_eq_one_iff.1 hone
  have honly : ∀ r, r ∈ occurrences (wrapped p m) SEP → r = q := fun r hr => by rwa [hq, List.mem_singleton] at hr
  have hsep := honly _ (separator_mem_wrapped p m)
  simp only [ne_eq, occ_eq_zero_iff, not_forall, not_not] at h
  rcases h with ⟨r, hr⟩ | ⟨r, hr⟩
  · have hle := (mem_occurrences_SEP.1 hr).1
    have := honly _ ((mem_occurrences_wrapped p m).2 (.inr (.inl ⟨r, hr, rfl⟩)))
    omega
  · have := honly _ ((mem_occurrences_wrapped p m).2 (.inr (.inr ⟨r, hr, rfl⟩)))
    omega

end

/-- Settles O34: the Encoder's separator is the only one, or there is one too many. -/
theorem protectedPayloadUnwraps : Obligations.ProtectedPayloadUnwraps := by
  intro p m hp
  rw [buildPayload_some hp]
  have hmark := startsWith_wrapped p m
  refine ⟨fun h1 h2 => ?_, fun h q => unwrap_count hmark (occ_wrapped_of_collision p m h)⟩
  have hone := occurrences_wrapped_of_clean p m h1 h2
  refine ⟨?_, unwrap_missing hmark hone, fun q hq => ?_⟩
  · rw [unwrap_given hmark hone, wrapped_take, if_pos rfl, wrapped_drop]
  · rw [unwrap_given hmark hone, wrapped_take, if_neg hq]

end Sys2Proof.Machine
end

section
/-! The micro-operations one by one and in a row (40_bitstream_codec R136 to R144, 41_lsb_cell R167 to R170). -/

namespace Sys2Proof.Machine

open Sys2Proof Sys2Proof.Claims

/-! ### Shifts as numbers -/

theorem shl_one_toNat {w : Nat} (x : BitVec w) : (x <<< 1).toNat = 2 * x.toNat % 2 ^ w := by
  rw [BitVec.toNat_shiftLeft, Nat.shiftLeft_eq, Nat.pow_one, Nat.mul_comm]

/-- A shift to the left with a bit put in at the right. -/
theorem shl_one_or_toNat {w : Nat} (x y : BitVec (w + 1)) (v : Bool) (hy : y.toNat = v.toNat) :
    ((x <<< 1) ||| y).toNat = 2 * x.toNat % 2 ^ (w + 1) + v.toNat := by
  have heven : 2 * x.toNat % 2 ^ (w + 1) = (x.toNat % 2 ^ w) <<< 1 := by
    rw [Nat.shiftLeft_eq, Nat.pow_succ, Nat.pow_one, Nat.mul_comm (2 ^ w), Nat.mul_mod_mul_left, Nat.mul_comm]
  rw [BitVec.toNat_or, shl_one_toNat, hy, heven, Nat.shiftLeft_add_eq_or_of_lt (by cases v <;> decide)]

theorem bitByte_toNat (v : Bool) : (bitByte v).toNat = v.toNat := by cases v <;> rfl

theorem bitWord_toNat (v : Bool) : (if v then 1 else 0 : Word).toNat = v.toNat := by cases v <;> rfl

/-- `SHR` after a bit is shifted in (R138). -/
theorem shr_in_toNat (x : Byte) (v : Bool) : ((x <<< 1) ||| bitByte v).toNat = 2 * x.toNat % 2 ^ 8 + v.toNat :=
  shl_one_or_toNat x _ v (bitByte_toNat v)

/-- `HSR` after a bit is shifted in (R142). -/
theorem hsr_in_toNat (x : Word) (v : Bool) :
    ((x <<< 1) ||| (if v then 1 else 0)).toNat = 2 * x.toNat % 2 ^ 32 + v.toNat :=
  shl_one_or_toNat x _ v (bitWord_toNat v)

/-- Settles O19: each answers its result, and the shifts are read as numbers. -/
theorem registerMicroOperations : Obligations.RegisterMicroOperations := fun _ =>
  ⟨rfl, rfl, ⟨_, rfl, rfl, rfl, shl_one_toNat _, toNat_bc_succ _⟩, ⟨_, rfl, rfl, shr_in_toNat _ _, toNat_bc_succ _⟩,
    ⟨_, rfl, rfl, rfl, shl_one_toNat _⟩, ⟨_, rfl, rfl, hsr_in_toNat _ _⟩⟩

/-! ### Shifting out -/

/-- A code that waits is run as its instruction (R95). -/
theorem step_of_code {i : Instr} {c : BitVec 4} (hc : encode i = .uop c) {s : State} {rest : List (BitVec 4)}
    (hu : s.uops = c :: rest) : step s = exec i { s with uops := rest } := by
  have hdec : decode (.uop c) = .ok i := hc ▸ decode_encode i
  rw [step_of_uop hu, datapath_of_decode hdec]

/-- After `j` of `n` codes `U_SHO`. -/
theorem run_uSho {s : State} {n : Nat} (hu : s.uops = List.replicate n 0x2#4) {j : Nat} (hj : j ≤ n) :
    ∃ t, run j s = .next t ∧ t.uops = List.replicate (n - j) 0x2#4 ∧ t.shr = s.shr <<< j ∧
      t.bc = s.bc + BitVec.ofNat 3 j := by
  induction j with
  | zero => exact ⟨s, rfl, hu, by rw [BitVec.shiftLeft_zero], (BitVec.add_zero _).symm⟩
  | succ j ih =>
    obtain ⟨t, ht, htu, hshr, hbc⟩ := ih (by omega)
    rw [show n - j = n - (j + 1) + 1 by omega, List.replicate_succ] at htu
    refine ⟨_, (run_snoc ht).trans (step_of_code (i := .uSho) rfl htu), rfl, ?_, ?_⟩
    · show t.shr <<< 1 = _
      rw [hshr, ← BitVec.shiftLeft_add]
    · show t.bc + 1 = _
      rw [hbc, BitVec.ofNat_add, BitVec.add_assoc]
      rfl

/-- The bit that the next `U_SHO` puts in the latch. -/
theorem run_uSho_succ {s : State} {n : Nat} (hu : s.uops = List.replicate n 0x2#4) {j : Nat} (hj : j < n) (h8 : j < 8) :
    ∃ t, run (j + 1) s = .next t ∧ t.b = s.shr.getLsbD (7 - j) ∧ t.uops = List.replicate (n - (j + 1)) 0x2#4 ∧
      t.shr = s.shr <<< (j + 1) ∧ t.bc = s.bc + BitVec.ofNat 3 (j + 1) := by
  obtain ⟨t, ht, htu, hshr, -⟩ := run_uSho hu hj.le
  obtain ⟨u, hrun, huu, hshr', hbc'⟩ := run_uSho hu hj
  refine ⟨u, hrun, ?_, huu, hshr', hbc'⟩
  rw [show n - j = n - (j + 1) + 1 by omega, List.replicate_succ] at htu
  rw [run_snoc ht, step_of_code (i := .uSho) rfl htu] at hrun
  cases hrun
  show t.shr.getLsbD 7 = _
  rw [hshr, getLsbD_shl _ _ _ (by omega) (by omega)]

/-- Settles O20: the `j`-th shift has moved bit `7 - j` to the top. -/
theorem eightShiftsEmitTheByte : Obligations.EightShiftsEmitTheByte := by
  intro s hu j hj
  obtain ⟨t, ht, hb, htu, hshr, hbc⟩ := run_uSho_succ hu hj hj
  refine ⟨t, ht, hb, ?_⟩
  rintro rfl
  refine ⟨?_, ?_, htu⟩
  · exact hshr.trans (BitVec.shiftLeft_eq_zero (by decide))
  · exact hbc.trans (BitVec.add_zero _)

/-- After `j` of `n` codes `U_HSO`. -/
theorem run_uHso {s : State} {n : Nat} (hu : s.uops = List.replicate n 0x6#4) {j : Nat} (hj : j ≤ n) :
    ∃ t, run j s = .next t ∧ t.uops = List.replicate (n - j) 0x6#4 ∧ t.hsr = s.hsr <<< j := by
  induction j with
  | zero => exact ⟨s, rfl, hu, by rw [BitVec.shiftLeft_zero]⟩
  | succ j ih =>
    obtain ⟨t, ht, htu, hhsr⟩ := ih (by omega)
    rw [show n - j = n - (j + 1) + 1 by omega, List.replicate_succ] at htu
    refine ⟨_, (run_snoc ht).trans (step_of_code (i := .uHso) rfl htu), rfl, ?_⟩
    show t.hsr <<< 1 = _
    rw [hhsr, ← BitVec.shiftLeft_add]

theorem run_uHso_succ {s : State} {n : Nat} (hu : s.uops = List.replicate n 0x6#4) {j : Nat} (hj : j < n) (h32 : j < 32) :
    ∃ t, run (j + 1) s = .next t ∧ t.b = s.hsr.getLsbD (31 - j) ∧ t.uops = List.replicate (n - (j + 1)) 0x6#4 ∧
      t.hsr = s.hsr <<< (j + 1) := by
  obtain ⟨t, ht, htu, hhsr⟩ := run_uHso hu hj.le
  obtain ⟨u, hrun, huu, hhsr'⟩ := run_uHso hu hj
  refine ⟨u, hrun, ?_, huu, hhsr'⟩
  rw [show n - j = n - (j + 1) + 1 by omega, List.replicate_succ] at htu
  rw [run_snoc ht, step_of_code (i := .uHso) rfl htu] at hrun
  cases hrun
  show t.hsr.getLsbD 31 = _
  rw [hhsr, getLsbD_shl _ _ _ (by omega) (by omega)]

/-! ### Shifting in -/

/-- `U_SHI` of a bitstring appends it to `SHR`, as numbers modulo 256. -/
theorem feed_uShi (bits : List Bool) (s : State) :
    ∃ t, feed .uShi bits s = .next t ∧ t.shr.toNat ≡ s.shr.toNat * 2 ^ bits.length + bitsToUint bits [MOD 2 ^ 8] ∧
      t.bc = s.bc + BitVec.ofNat 3 bits.length := by
  induction bits generalizing s with
  | nil => exact ⟨s, rfl, by simpa [bitsToUint] using Nat.ModEq.refl _, (BitVec.add_zero _).symm⟩
  | cons v vs ih =>
    obtain ⟨t, ht, hshr, hbc⟩ := ih { s with b := v, shr := (s.shr <<< 1) ||| bitByte v, bc := s.bc + 1 }
    refine ⟨t, ht, hshr.trans ?_, ?_⟩
    · have hfirst : ((s.shr <<< 1) ||| bitByte v).toNat ≡ 2 * s.shr.toNat + v.toNat [MOD 2 ^ 8] := by
        rw [shr_in_toNat]; exact (Nat.mod_modEq _ _).add_right _
      refine ((hfirst.mul_right _).add_right _).trans (congrArg (· % 2 ^ 8) ?_)
      rw [List.length_cons, bitsToUint, pow_succ]; ring
    · rw [hbc, List.length_cons, Nat.add_comm vs.length, BitVec.ofNat_add, ← BitVec.add_assoc]
      rfl

/-- `U_HSI` of a bitstring appends it to `HSR`, as numbers modulo `2^32`. -/
theorem feed_uHsi (bits : List Bool) (s : State) :
    ∃ t, feed .uHsi bits s = .next t ∧ t.hsr.toNat ≡ s.hsr.toNat * 2 ^ bits.length + bitsToUint bits [MOD 2 ^ 32] := by
  induction bits generalizing s with
  | nil => exact ⟨s, rfl, by simpa [bitsToUint] using Nat.ModEq.refl _⟩
  | cons v vs ih =>
    obtain ⟨t, ht, hhsr⟩ := ih { s with b := v, hsr := (s.hsr <<< 1) ||| (if v then 1 else 0) }
    refine ⟨t, ht, hhsr.trans ?_⟩
    have hfirst : ((s.hsr <<< 1) ||| (if v then 1 else 0)).toNat ≡ 2 * s.hsr.toNat + v.toNat [MOD 2 ^ 32] := by
      rw [hsr_in_toNat]; exact (Nat.mod_modEq _ _).add_right _
    refine ((hfirst.mul_right _).add_right _).trans (congrArg (· % 2 ^ 32) ?_)
    rw [List.length_cons, bitsToUint, pow_succ]; ring

/-- What a register of `w` bits held before goes out as `w` bits come in. -/
theorem eq_of_modEq_full {w x : Nat} {y : BitVec w} {bits : List Bool} (hl : bits.length = w)
    (h : y.toNat ≡ x * 2 ^ bits.length + bitsToUint bits [MOD 2 ^ w]) : y.toNat = bitsToUint bits := by
  have hlt := bitsToUint_lt bits
  rw [hl] at h hlt
  rwa [Nat.ModEq, Nat.add_comm, Nat.add_mul_mod_self_right, Nat.mod_eq_of_lt y.isLt, Nat.mod_eq_of_lt hlt] at h

/-- Settles O21: what `SHR` held goes out, and the one byte of the eight bits is their number. -/
theorem eightShiftsAssembleTheByte : Obligations.EightShiftsAssembleTheByte := by
  intro s bits hl
  obtain ⟨t, ht, hshr, hbc⟩ := feed_uShi bits s
  have hbyte := eq_of_modEq_full hl hshr
  refine ⟨t, ht, ?_, hbyte, ?_⟩
  · have hone := bitsToBytes_append_eight hl []
    rw [List.append_nil, ← hbyte, BitVec.ofNat_toNat, BitVec.setWidth_eq] at hone
    exact hone
  · rw [hbc, hl]; exact BitVec.add_zero _

/-- Settles O22: the header's bits out and in. -/
theorem headerShiftsConvertTheNumber : Obligations.HeaderShiftsConvertTheNumber := by
  refine ⟨fun s hu j hj => ?_, fun s bits hl => ?_⟩
  · obtain ⟨t, ht, hb, htu, hhsr⟩ := run_uHso_succ hu hj hj
    refine ⟨t, ht, by rw [uintToBits_get _ _ hj, hb], ?_⟩
    rintro rfl
    exact ⟨hhsr.trans (BitVec.shiftLeft_eq_zero (by decide)), htu⟩
  · obtain ⟨t, ht, hhsr⟩ := feed_uHsi bits s
    exact ⟨t, ht, eq_of_modEq_full hl hhsr⟩

/-! ### The shifter's load -/

theorem exec_uLdb_of_mem {s : State} {m : MemName} {a : Nat} (h : s.paySource s.bp.toNat = .mem m a) :
    exec .uLdb s = readByte m a s fun v => .next (bumpBp { s with shr := v }) := by
  simp only [exec, execULdb, h]

theorem exec_uLdb_of_const {s : State} {v : Byte} (h : s.paySource s.bp.toNat = .const v) :
    exec .uLdb s = .next (bumpBp { s with shr := v }) := by
  simp only [exec, execULdb, h]

/-- The byte the multiplexer selects is byte `k` of the payload. The depths are no matter of it: it is what
`U_LDB` loads where the memories hold whatever the registers can say. -/
theorem paySource_value {s : State} (hk : s.bp.toNat < s.payloadLength s.prot) :
    (∃ m a, s.paySource s.bp.toNat = .mem m a ∧ s.byteAt m a = s.muxPayload.getD s.bp.toNat 0) ∨
    (s.paySource s.bp.toNat = .const (s.muxPayload.getD s.bp.toNat 0)) := by
  have hmsg := s.msglen.isLt
  have hpwd := s.pwdlen.isLt
  have hload := exec_uLdb_of_lt { s with params := .default } hk (by simp only [Params.default]; omega)
    (fun _ => by simp only [Params.default]; omega)
  have hsame : ({ s with params := .default } : State).paySource s.bp.toNat = s.paySource s.bp.toNat := rfl
  cases hsrc : s.paySource s.bp.toNat with
  | mem m a =>
    rw [exec_uLdb_of_mem (hsame.trans hsrc), readByte_eq_next] at hload
    have hshr := congrArg State.shr (Host.Outcome.next.inj hload.2)
    rw [bumpBp_shr, bumpBp_shr] at hshr
    exact .inl ⟨m, a, rfl, hshr⟩
  | const v =>
    rw [exec_uLdb_of_const (hsame.trans hsrc)] at hload
    have hshr := congrArg State.shr (Host.Outcome.next.inj hload)
    rw [bumpBp_shr, bumpBp_shr] at hshr
    exact .inr (congrArg _ hshr)
  | undefined =>
    unfold State.paySource at hsrc
    dsimp only at hsrc
    rw [if_neg (Nat.not_le.2 hk)] at hsrc
    split at hsrc
    · split at hsrc
      · cases hsrc
      · split at hsrc
        · cases hsrc
        · split at hsrc <;> cases hsrc
    · cases hsrc

/-- The multiplexer selects a byte of a memory beyond its depth exactly where R202's byte is missing. -/
theorem byteMissing_iff {s : State} (hk : s.bp.toNat < s.payloadLength s.prot) (m : MemName) :
    ByteMissing s m ↔ ∃ a, s.paySource s.bp.toNat = .mem m a ∧ s.depth m ≤ a := by
  unfold State.paySource
  dsimp only
  rw [if_neg (Nat.not_le.2 hk)]
  cases hp : s.prot with
  | false => cases m <;> simp [ByteMissing, hp, State.depth]
  | true =>
    rw [if_pos rfl]
    by_cases h1 : s.bp.toNat ≤ 10
    · rw [if_pos h1]; cases m <;> simp [ByteMissing, hp] <;> omega
    · rw [if_neg h1]
      by_cases h2 : s.bp.toNat ≤ 10 + s.pwdlen.toNat
      · rw [if_pos h2]; cases m <;> simp [ByteMissing, hp, State.depth] <;> omega
      · rw [if_neg h2]
        by_cases h3 : s.bp.toNat ≤ 16 + s.pwdlen.toNat
        · rw [if_pos h3]; cases m <;> simp [ByteMissing, hp] <;> omega
        · rw [if_neg h3]; cases m <;> simp [ByteMissing, hp, State.depth] <;> omega

/-- `U_LDB` of a byte that exists. -/
theorem exec_uLdb_of_present {s : State} (hk : s.bp.toNat < s.payloadLength s.prot) (hm : ∀ m, ¬ ByteMissing s m) :
    exec .uLdb s = .next (bumpBp { s with shr := s.muxPayload.getD s.bp.toNat 0 }) := by
  rcases paySource_value hk with ⟨m, a, hsrc, hval⟩ | hsrc
  · have hlt : a < s.depth m := Nat.not_le.1 fun hle => hm m ((byteMissing_iff hk m).2 ⟨a, hsrc, hle⟩)
    rw [exec_uLdb_of_mem hsrc, readByte_of_lt hlt, hval]
  · exact exec_uLdb_of_const hsrc

/-- Settles O23: the three domains of `BP`. -/
theorem loadByteReadsThePayload : Obligations.LoadByteReadsThePayload := by
  refine ⟨fun s hk hm => ?_, fun s hk => ?_, fun s m hk hm => ?_⟩
  · obtain ⟨p, f, hbump, hp⟩ := bumpBp_eq { s with shr := s.muxPayload.getD s.bp.toNat 0 }
    exact ⟨p, f, by rw [exec_uLdb_of_present hk hm, hbump], hp⟩
  · obtain ⟨p, f, hbump, hp⟩ := bumpBp_eq { s with shr := Config.freeByte s.free, free := s.free + 1 }
    exact ⟨_, p, f, by rw [exec_uLdb_undefined s hk, hbump], hp⟩
  · obtain ⟨a, hsrc, hle⟩ := (byteMissing_iff hk m).1 hm
    rw [exec_uLdb_of_mem hsrc, readByte_of_le hle]

/-! ### The store and the LSB cell -/

/-- Settles O24: the store inside `EXT`, and beyond it. -/
theorem storeByteWritesExt : Obligations.StoreByteWritesExt := by
  refine fun s => ⟨fun h => ?_, fun h => ?_⟩
  · obtain ⟨p, f, hbump, hp⟩ := bumpBp_eq (s.setMem .ext (s.ext.write s.bp.toNat s.shr))
    refine ⟨_, (exec_uStb_of_lt s h).trans (congrArg _ hbump), rfl, by simpa using hp, fun m a => ?_⟩
    rw [← hbump, bumpBp_byteAt]
    exact write_byteAt s .ext m a s.bp.toNat s.shr
  · simp only [exec, execUStb]
    rw [storeByte_of_le (show s.depth .ext ≤ _ from h), andThen_fault]

/-- Settles O25: the pixel inside `PIXO`, and beyond it. -/
theorem embedWritesOneBit : Obligations.EmbedWritesOneBit := by
  refine fun s => ⟨fun h => ?_, fun h => ?_⟩
  · obtain ⟨p, f, hbump, hp⟩ := bumpIdx_eq
      (s.setMem .pixo (s.pixo.write (EA s.idx.toNat) (setLSB (s.byteAt .pixo (EA s.idx.toNat)) s.b)))
    refine ⟨_, (exec_uEmb_of_lt s h).trans (congrArg _ hbump), rfl, by simpa using hp, fun m a => ?_⟩
    rw [← hbump, bumpIdx_byteAt]
    refine (write_byteAt s .pixo m a _ _).trans ?_
    by_cases ha : m = .pixo ∧ a = EA s.idx.toNat
    · rw [if_pos ha, ← ha.2]; exact (if_pos ha).symm
    · rw [if_neg ha]; exact (if_neg ha).symm
  · simp only [exec, execUEmb]
    rw [readByte_of_le (show s.depth .pixo ≤ EA s.idx.toNat from h)]

/-- Settles O26: the pixel inside `PIXI`, and beyond it. -/
theorem extractReadsOneBit : Obligations.ExtractReadsOneBit := by
  refine fun s => ⟨fun h => ?_, fun h => ?_⟩
  · obtain ⟨p, f, hbump, hp⟩ := bumpIdx_eq { s with b := lsb (s.byteAt .pixi (EA s.idx.toNat)) }
    exact ⟨p, f, (exec_uExt_of_lt s h).trans (congrArg _ hbump), hp⟩
  · simp only [exec, execUExt]
    rw [readByte_of_le (show s.depth .pixi ≤ EA s.idx.toNat from h)]

/-- Settles O27: the buffer within the depth, and beyond it. -/
theorem cloneCopiesTheBuffer : Obligations.CloneCopiesTheBuffer := by
  refine fun s => ⟨fun h => ⟨_, exec_uCln_of_le s h, rfl, fun m a => ?_⟩, fun h => ?_⟩
  · exact copyFirst_byteAt s .pixo .pixi m s.pixlen.toNat a
  · simp only [exec, execUCln]
    rw [readFirst_of_lt (show s.depth .pixi < _ from h)]

end Sys2Proof.Machine
end

section
/-! The register file, the host's moves while the engine is idle, its own decisions, and reset (10_state,
20_memory, 30_encoding R106, 70_reset_and_hazards R340, R341). -/

namespace Sys2Proof.Machine

open Sys2Proof Sys2Proof.Claims

/-! ### Reset -/

/-- Settles O45: each register is read off `State.reset`, and `STATUS` is put together from them. -/
theorem resetState : Obligations.ResetState := by
  refine ⟨rfl, fun r => ?_, rfl, rfl, rfl, rfl, rfl, rfl, rfl, rfl, rfl, rfl, rfl, rfl, rfl, rfl, rfl, rfl, rfl, rfl, rfl⟩
  unfold State.readReg
  split <;> rfl

theorem abandonCommand_idle {s : State} (hst : s.st = .idle) : abandonCommand s = s := by
  simp only [abandonCommand, hst, SeqState.encoding, SeqState.decoding, Bool.false_eq_true, ↓reduceIte]

theorem abandonCommand_encoding {s : State} (he : s.st.encoding = true) :
    abandonCommand s = { s with
      pixo := s.pixo.writeList 0 ((List.range s.pixlen.toNat).map fun a => Config.unspecifiedByte .pixo (s.free + 1) a)
      free := s.free + 1 } := by
  simp only [abandonCommand, he, ↓reduceIte]

theorem encoding_of_decoding {q : SeqState} (h : q.decoding = true) : q.encoding = false := by
  cases q <;> cases h <;> rfl

theorem abandonCommand_decoding {s : State} (hd : s.st.decoding = true) :
    abandonCommand s = { s with
      ext := { cells := [], gen := s.free + 1 }, out := { cells := [], gen := s.free + 1 }, free := s.free + 1 } := by
  simp only [abandonCommand, encoding_of_decoding hd, hd, Bool.false_eq_true, ↓reduceIte]

/-- An abandoned `ENCODE` leaves the bytes beyond the buffer (R341). -/
theorem abandonCommand_encoding_pixo {s : State} (he : s.st.encoding = true) {a : Nat} (ha : s.pixlen.toNat ≤ a) :
    (abandonCommand s).byteAt .pixo a = s.byteAt .pixo a := by
  rw [abandonCommand_encoding he]
  show (s.pixo.writeList 0 _).read .pixo a = _
  rw [Memory.read_writeList, if_neg (by simp; omega)]
  rfl

/-- Settles O46: the registers are cleared whatever the state, and the memories are those an abandoned command leaves. -/
theorem resetMove : Obligations.ResetMove := by
  intro s rest hu hh
  obtain ⟨hparams, hhost, hreads, huops, hpixi, hmsg, hpwd⟩ := abandonCommand_frame { s with host := rest }
  refine ⟨resetBlock { s with host := rest }, step_of_move hu hh, ?_, fun hst => ?_, fun he => ⟨?_, ?_, fun a ha => ?_⟩,
    fun hd => ?_⟩
  · rw [resetBlock, clearRegisters, hparams, hhost, hreads, huops, hpixi, hmsg, hpwd, hu]
    rfl
  · rw [resetBlock, abandonCommand_idle (s := { s with host := rest }) hst]
    exact ⟨rfl, rfl, rfl⟩
  · rw [resetBlock, abandonCommand_encoding (s := { s with host := rest }) he]; rfl
  · rw [resetBlock, abandonCommand_encoding (s := { s with host := rest }) he]; rfl
  · exact abandonCommand_encoding_pixo (s := { s with host := rest }) he ha
  · rw [resetBlock, abandonCommand_decoding (s := { s with host := rest }) hd]; rfl

/-! ### `STATUS` -/

theorem ErrKind.code_lt (e : ErrKind) : e.code < 8 := by cases e <;> decide

theorem SeqState.code_lt (st : SeqState) : st.code < 16 := by cases st <;> decide

/-- The fields lie side by side, so nothing is cut off. -/
theorem status_toNat (s : State) :
    s.status.toNat =
      s.busy.toNat + 2 * s.done.toNat + 4 * s.err.code + 32 * s.sub.toNat + 256 * s.prot.toNat + 4096 * s.st.code := by
  have := s.busy.toNat_le
  have := s.done.toNat_le
  have := s.prot.toNat_le
  have := s.err.code_lt
  have := s.st.code_lt
  have := s.sub.isLt
  exact toNat_ofNat_of_lt (by omega)

theorem toNat_eq_one_iff (b : Bool) : decide (b.toNat = 1) = b := by cases b <;> rfl

/-- A one-bit field of a word. -/
theorem getLsbD_of_toNat {w i : Nat} {x : BitVec w} {b : Bool} (h : x.toNat / 2 ^ i % 2 = b.toNat) : x.getLsbD i = b := by
  rw [BitVec.getLsbD, Nat.testBit_eq_decide_div_mod_eq, h, toNat_eq_one_iff]

theorem extractLsb'_toNat_div {w : Nat} (x : BitVec w) (k l : Nat) : (x.extractLsb' k l).toNat = x.toNat / 2 ^ k % 2 ^ l := by
  rw [BitVec.extractLsb'_toNat, Nat.shiftRight_eq_div_pow]

/-- Settles O13: each field is cut out of the sum. -/
theorem statusFields : Obligations.StatusFields := by
  intro s
  have hsum := status_toNat s
  have hbusy := s.busy.toNat_le
  have hdone := s.done.toNat_le
  have hprot := s.prot.toNat_le
  have herr := s.err.code_lt
  have hcode := s.st.code_lt
  have hsub := s.sub.isLt
  refine ⟨getLsbD_of_toNat (b := s.busy) (by omega), getLsbD_of_toNat (by omega), ?_, ?_, getLsbD_of_toNat (by omega),
    ?_, ?_, ?_⟩
  · rw [extractLsb'_toNat_div, show s.status.toNat / 2 ^ 2 % 2 ^ 3 = s.err.code by omega]
    cases s.err <;> rfl
  · exact BitVec.eq_of_toNat_eq (by rw [extractLsb'_toNat_div]; omega)
  · exact BitVec.eq_of_toNat_eq (by rw [extractLsb'_toNat_div]; show _ = 0; omega)
  · rw [extractLsb'_toNat_div, show s.status.toNat / 2 ^ 12 % 2 ^ 4 = s.st.code by omega]
    cases s.st <;> rfl
  · exact BitVec.eq_of_toNat_eq (by rw [extractLsb'_toNat_div]; show _ = 0; omega)

/-! ### The register port in `IDLE` -/

/-- Settles O5: which of the two steps, the engine's or the host's. -/
theorem engineStepsBetweenHostMoves : Obligations.EngineStepsBetweenHostMoves := fun _ hu =>
  ⟨step_of_quiet hu, fun _ hh => step_of_move hu hh, fun _ hh hd => (step_of_move hu hh).trans (if_pos hd),
    fun _ hh hd => (step_of_move hu hh).trans (if_neg (by rw [hd]; exact Bool.false_ne_true)), engineStep_idle⟩

/-- Settles O12: register by register; a read of the host only adds to the values read. -/
theorem registerReads : Obligations.RegisterReads := by
  refine fun s => ⟨⟨rfl, rfl, rfl, rfl, rfl, ?_, rfl, rfl, ?_, fun r hr => ?_⟩, fun r rest hu hh => step_of_rd hu hh⟩
  · show (if s.present then 1 else 0 : Word).toNat = _
    exact bitWord_toNat s.present
  · have hcap := cap_lt s
    exact toNat_ofNat_of_lt (by omega)
  · unfold State.readReg
    split
    case h_9 => rfl
    all_goals omega

theorem step_of_wr_reg {s : State} {v : Word} {rest : List HostMove} {r : Nat} (hst : s.st = .idle) (hu : s.uops = [])
    (hh : s.host = .wr r v :: rest) (hr : r ≠ 0) : step s = .next (({ s with host := rest } : State).writeReg r v) :=
  (step_of_move hu hh).trans (hostWrite_of_ne_zero hr hst)

/-- A write to a read-only or absent register has no effect (R30). -/
theorem writeReg_readOnly {r : Nat} (hr : r = 1 ∨ 6 ≤ r) (s : State) (v : Word) : s.writeReg r v = s := by
  unfold State.writeReg
  split
  case h_5 => rfl
  all_goals omega

/-- Settles O14: register by register. -/
theorem registerWrites : Obligations.RegisterWrites := by
  intro s v rest r hst hu hh
  have hwrite := step_of_wr_reg hst hu hh
  refine ⟨?_, ?_, ?_, ?_, fun hr => ?_⟩
  · rintro rfl; exact hwrite (by decide)
  · rintro rfl; exact hwrite (by decide)
  · rintro rfl; exact hwrite (by decide)
  · rintro rfl; exact hwrite (by decide)
  · rw [hwrite (by omega), writeReg_readOnly hr]

/-! ### Byte accesses -/

/-- Settles O16: both accesses end at the test of `BUSY`. -/
theorem memoryAccessWhileBusyIsRefused : Obligations.MemoryAccessWhileBusyIsRefused := fun s rest hst hu =>
  ⟨fun m a v hh => (step_of_move hu hh).trans (hostPoke_of_busy (s := { s with host := rest }) hst m a v),
    fun m a hh => (step_of_move hu hh).trans (hostPeek_of_busy (s := { s with host := rest }) hst m a)⟩

theorem byteAt_setHost (s : State) (rest : List HostMove) (m : MemName) (a : Nat) :
    ({ s with host := rest } : State).byteAt m a = s.byteAt m a := byteAt_host s rest m a

theorem depth_setHost (s : State) (rest : List HostMove) (m : MemName) :
    ({ s with host := rest } : State).depth m = s.depth m := by cases m <;> rfl

theorem mem_setHost (s : State) (rest : List HostMove) (m : MemName) :
    ({ s with host := rest } : State).mem m = s.mem m := by cases m <;> rfl

theorem setMem_setHost (s : State) (rest : List HostMove) (m : MemName) (x : Memory) :
    ({ s with host := rest } : State).setMem m x = { s.setMem m x with host := rest } := by cases m <;> rfl

/-- A byte write at an address that exists. -/
theorem step_of_poke {s : State} {m : HostWritable} {a : Nat} {v : Byte} {rest : List HostMove} (hst : s.st = .idle)
    (hu : s.uops = []) (hh : s.host = .poke m a v :: rest) (ha : a < s.depth m.name) :
    step s = .next { s.setMem m.name ((s.mem m.name).write a v) with host := rest } := by
  rw [step_of_move hu hh, hostStep, hostPoke_of_idle (s := { s with host := rest }) hst,
    storeByte_of_lt (by rwa [depth_setHost]), setMem_setHost, mem_setHost]

theorem step_of_poke_missing {s : State} {m : HostWritable} {a : Nat} {v : Byte} {rest : List HostMove}
    (hst : s.st = .idle) (hu : s.uops = []) (hh : s.host = .poke m a v :: rest) (ha : s.depth m.name ≤ a) :
    step s = .fault (.noSuchAddress m.name) := by
  rw [step_of_move hu hh, hostStep, hostPoke_of_idle (s := { s with host := rest }) hst,
    storeByte_of_le (by rwa [depth_setHost])]

/-- A byte read at an address that exists. -/
theorem step_of_peek {s : State} {m : HostReadable} {a : Nat} {rest : List HostMove} (hst : s.st = .idle)
    (hu : s.uops = []) (hh : s.host = .peek m a :: rest) (ha : a < s.depth m.name) :
    step s = .next { s with host := rest, reads := (s.hostByte m a).setWidth 32 :: s.reads } := by
  rw [step_of_move hu hh, hostStep, hostPeek_of_idle (s := { s with host := rest }) hst, depth_setHost, if_pos ha]
  refine congrArg (fun v : Byte => Host.Outcome.next (observe (v.setWidth 32) { s with host := rest })) ?_
  unfold State.hostByte
  rw [byteAt_setHost]

theorem step_of_peek_missing {s : State} {m : HostReadable} {a : Nat} {rest : List HostMove} (hst : s.st = .idle)
    (hu : s.uops = []) (hh : s.host = .peek m a :: rest) (ha : s.depth m.name ≤ a) :
    step s = .fault (.noSuchAddress m.name) := by
  rw [step_of_move hu hh, hostStep, hostPeek_of_idle (s := { s with host := rest }) hst, depth_setHost,
    if_neg (Nat.not_lt.2 ha)]

/-- The host sees the stored byte, of `OUT` below `OUTLEN` only (R68). -/
theorem hostByte_eq {s : State} {m : HostReadable} {a : Nat} (h : m = .out → a < s.outlen.toNat) :
    s.hostByte m a = s.byteAt m.name a :=
  if_neg fun ⟨hm, hle⟩ => Nat.not_lt.2 hle (h hm)

/-- The memories a host write can reach are four of the six. -/
theorem setMem_hostWritable (s : State) (m : HostWritable) (x : Memory) (rest : List HostMove) :
    let t : State := { s.setMem m.name x with host := rest }
    t = { s with host := rest, pixi := t.pixi, pixo := t.pixo, msg := t.msg, pwd := t.pwd } := by
  cases m <;> rfl

/-- Settles O17: the access at an address that exists, and at one that does not. -/
theorem hostMemoryAccess : Obligations.HostMemoryAccess := by
  intro s rest hst hu
  refine ⟨fun m a v hh ha => ⟨_, step_of_poke hst hu hh ha, setMem_hostWritable s m _ rest, fun k c => ?_⟩,
    fun m a hh ha => ⟨s.hostByte m a, step_of_peek hst hu hh ha, fun hm => ?_, fun hm hlt => ?_⟩,
    fun m a v hh ha => step_of_poke_missing hst hu hh ha, fun m a hh ha => step_of_peek_missing hst hu hh ha⟩
  · rw [byteAt_setHost, write_byteAt]
  · exact hostByte_eq fun h => absurd h hm
  · subst hm; exact hostByte_eq fun _ => hlt

/-! ### `LOAD` -/

/-- A byte and then the ones after it, with moves taken off the host's list in between. -/
theorem setMem_write_writeList (s : State) (k : MemName) (a : Nat) (v : Byte) (vs : List Byte) (moves rest : List HostMove) :
    let s' : State := { s.setMem k ((s.mem k).write a v) with host := moves }
    ({ s'.setMem k ((s'.mem k).writeList (a + 1) vs) with host := rest } : State) =
      { s.setMem k ((s.mem k).writeList a (v :: vs)) with host := rest } := by
  cases k <;> rfl

theorem setMem_writeList_nil (s : State) (k : MemName) (a : Nat) : s.setMem k ((s.mem k).writeList a []) = s := by
  cases k <;> rfl

/-- The moves of a `LOAD` line write its bytes, whatever moves follow. -/
theorem run_scriptLoad {m : HostWritable} {xs : List Byte} {rest : List HostMove} {s : State} {a : Nat}
    (hst : s.st = .idle) (hu : s.uops = []) (hh : s.host = scriptLoad m a xs ++ rest)
    (hfit : a + xs.length ≤ s.depth m.name) :
    run xs.length s = .next { s.setMem m.name ((s.mem m.name).writeList a xs) with host := rest } := by
  induction xs generalizing s a with
  | nil =>
    rw [setMem_writeList_nil, ← show s.host = rest from hh]
    rfl
  | cons v vs ih =>
    rw [List.length_cons] at hfit
    have hstep := step_of_poke hst hu hh (show a < s.depth m.name by omega)
    generalize hs' : ({ s.setMem m.name ((s.mem m.name).write a v) with host := scriptLoad m (a + 1) vs ++ rest } : State)
      = s' at hstep
    have hrun := ih (s := s') (a := a + 1) (by rw [← hs']; simpa using hst) (by rw [← hs']; simpa using hu)
      (by rw [← hs']) (by rw [← hs', depth_setHost, setMem_depth]; omega)
    refine (by rw [List.length_cons, run_succ, hstep, andThen_next, hrun] : run _ s = _).trans ?_
    rw [← hs']
    exact congrArg _ (setMem_write_writeList s m.name a v vs _ rest)

/-- A byte after bytes were written at consecutive addresses. -/
theorem writeListAt_byteAt (s : State) (k m : MemName) (a c : Nat) (vs : List Byte) :
    (s.setMem k ((s.mem k).writeList a vs)).byteAt m c =
      if m = k ∧ a ≤ c ∧ c < a + vs.length then vs.getD (c - a) 0 else s.byteAt m c := by
  rw [setMem_byteAt]
  by_cases h : m = k
  · subst h; simp only [Memory.read_writeList, true_and, ↓reduceIte]; rfl
  · rw [if_neg h, if_neg (by tauto)]

/-- Settles O18: the line with no moves behind it. -/
theorem loadScriptMakesBytesResident : Obligations.LoadScriptMakesBytesResident := by
  intro s m a xs hst hu hh hfit
  refine ⟨_, run_scriptLoad (rest := []) hst hu (by rw [List.append_nil]; exact hh) hfit, setMem_hostWritable s m _ [],
    fun k c => ?_⟩
  rw [byteAt_setHost, writeListAt_byteAt]

/-! ### The host's own decisions (log 19) -/

theorem lastRead_cons {s : State} {v : Word} {vs : List Word} (h : s.reads = v :: vs) : s.lastRead = v := by
  rw [State.lastRead, h, List.headD_cons]

theorem setWidth_setWidth_byte (x : Byte) : (x.setWidth 32).setWidth 8 = x := by
  rw [BitVec.setWidth_setWidth_of_le _ (by decide), BitVec.setWidth_eq]

theorem readBack_length (xs : List Byte) : (readBack xs).length = xs.length := by
  rw [readBack, List.length_reverse, List.length_map]

/-- The bytes last read, in the order of their reading. -/
theorem lastBytes_readBack {s : State} {xs : List Byte} {vs : List Word} (h : s.reads = readBack xs ++ vs) :
    s.lastBytes xs.length = xs := by
  rw [State.lastBytes, h, List.take_left' (readBack_length xs), readBack, List.reverse_reverse, List.map_map]
  exact (List.map_congr_left fun x _ => setWidth_setWidth_byte x).trans (List.map_id xs)

theorem step_of_ifOk {s : State} {count : Nat} {rest : List HostMove} {v : Word} {vs : List Word} (hu : s.uops = [])
    (hh : s.host = .ifOk count :: rest) (hr : s.reads = v :: vs) :
    step s = .next { s with host := if statusErr v = 0 then rest else rest.drop count } := by
  rw [step_of_move hu hh, hostStep, lastRead_cons hr]

theorem step_of_dumpRead {s : State} {m : HostReadable} {rest : List HostMove} {v : Word} {vs : List Word}
    (hu : s.uops = []) (hh : s.host = .dumpRead m :: rest) (hr : s.reads = v :: vs) :
    step s = .next { s with host := scriptDump m 0 v.toNat ++ rest } := by
  rw [step_of_move hu hh, hostStep, lastRead_cons hr]

theorem step_of_loadRead {s : State} {m : HostWritable} {rest : List HostMove} {xs : List Byte} {vs : List Word}
    (hu : s.uops = []) (hh : s.host = .loadRead m xs.length :: rest) (hr : s.reads = readBack xs ++ vs) :
    step s = .next { s with host := scriptLoad m 0 xs ++ rest } := by
  rw [step_of_move hu hh, hostStep, lastBytes_readBack hr]

/-- Settles O58: each decision looks at the values last read. -/
theorem hostDecisionsChangeItsMovesOnly : Obligations.HostDecisionsChangeItsMovesOnly := fun _ _ hu =>
  ⟨fun _ _ _ hh hr => step_of_ifOk hu hh hr, fun _ _ _ hh hr => step_of_dumpRead hu hh hr,
    fun _ _ _ hh hr => step_of_loadRead hu hh hr⟩

/-! ### `EXT` and the host (R41) -/

/-- A result with `EXT` replaced. -/
def putExt (e : Memory) : Result → Result
  | .next s => .next (s.setMem .ext e)
  | .fault f => .fault f
  | .refused r => .refused r

theorem exec_command_putExt {i : Instr} (hi : i.isCommand = true) {s : State} (hst : s.st = .idle) (e : Memory) :
    exec i (s.setMem .ext e) = putExt e (exec i s) := by
  have hst' : (s.setMem .ext e).st = .idle := hst
  cases i with
  | nop => rfl
  | encode =>
    have hsame : configCheck true (s.setMem .ext e) = configCheck true s := rfl
    cases hc : configCheck true s with
    | none => rw [exec_encode_accepted hst hc, exec_encode_accepted hst' (hsame.trans hc)]; rfl
    | some sub => rw [exec_encode_refused hst hc, exec_encode_refused hst' (hsame.trans hc)]; rfl
  | decode =>
    have hsame : configCheck false (s.setMem .ext e) = configCheck false s := rfl
    cases hc : configCheck false s with
    | none => rw [exec_decode_accepted hst hc, exec_decode_accepted hst' (hsame.trans hc)]; rfl
    | some sub => rw [exec_decode_refused hst hc, exec_decode_refused hst' (hsame.trans hc)]; rfl
  | _ => cases hi

theorem hostWrite_putExt {s : State} (hst : s.st = .idle) (e : Memory) (r : Nat) (v : Word) :
    hostWrite r v (s.setMem .ext e) = putExt e (hostWrite r v s) := by
  by_cases hr : r = 0
  · rw [hostWrite, hostWrite, if_pos hr, if_pos hr]
    cases hw : decodeCmd v with
    | ok i => rw [writeCmd_of_decode hw, writeCmd_of_decode hw, exec_command_putExt (decodeCmd_isCommand hw) hst]
    | error _ => rw [writeCmd_of_reserved hw (s := s.setMem .ext e) hst, writeCmd_of_reserved hw hst]; rfl
  · rw [hostWrite_of_ne_zero hr (s := s.setMem .ext e) hst, hostWrite_of_ne_zero hr hst]
    refine congrArg _ ?_
    unfold State.writeReg
    split <;> rfl

theorem hostPoke_putExt {s : State} (hst : s.st = .idle) (e : Memory) (m : HostWritable) (a : Nat) (v : Byte) :
    hostPoke m a v (s.setMem .ext e) = putExt e (hostPoke m a v s) := by
  rw [hostPoke_of_idle (s := s.setMem .ext e) hst, hostPoke_of_idle hst, storeByte, storeByte, setMem_depth]
  split
  · cases m <;> rfl
  · rfl

/-- No memory the host reads is `EXT`. -/
theorem hostByte_setExt (s : State) (e : Memory) (m : HostReadable) (a : Nat) :
    (s.setMem .ext e).hostByte m a = s.hostByte m a := by cases m <;> rfl

theorem hostPeek_putExt {s : State} (hst : s.st = .idle) (e : Memory) (m : HostReadable) (a : Nat) :
    hostPeek m a (s.setMem .ext e) = putExt e (hostPeek m a s) := by
  rw [hostPeek_of_idle (s := s.setMem .ext e) hst, hostPeek_of_idle hst, setMem_depth, hostByte_setExt]
  split <;> rfl

theorem hostStep_putExt {s : State} (hst : s.st = .idle) (e : Memory) (mv : HostMove) (rest : List HostMove) :
    hostStep mv rest (s.setMem .ext e) = putExt e (hostStep mv rest s) := by
  cases mv with
  | wr r v => exact hostWrite_putExt (s := { s with host := rest }) hst e r v
  | rd r => rfl
  | poke m a v => exact hostPoke_putExt (s := { s with host := rest }) hst e m a v
  | peek m a => exact hostPeek_putExt (s := { s with host := rest }) hst e m a
  | wait =>
    simp only [hostStep, setMem_done]
    split
    · rfl
    · rw [engineStep_idle (s := s.setMem .ext e) hst, engineStep_idle hst]; rfl
  | idle =>
    simp only [hostStep]
    rw [engineStep_idle (s := { s.setMem .ext e with host := rest }) hst, engineStep_idle (s := { s with host := rest }) hst]
    rfl
  | rst =>
    simp only [hostStep, resetBlock]
    rw [abandonCommand_idle (s := { s.setMem .ext e with host := rest }) hst,
      abandonCommand_idle (s := { s with host := rest }) hst]
    rfl
  | ifOk count => rfl
  | dumpRead m => rfl
  | loadRead m count => rfl

/-- Settles O52: each move of the outside commutes with the replacement of `EXT`. -/
theorem hostCannotSeeExt : Obligations.HostCannotSeeExt := by
  intro s e mv rest hst hu hh
  have hstep : step (s.setMem .ext e) = putExt e (step s) := by
    rw [step_of_move (s := s.setMem .ext e) hu hh, step_of_move hu hh, hostStep_putExt hst]
  refine ⟨fun t ht => ?_, fun f hf => ?_⟩
  · rw [hstep, ht]; rfl
  · rw [hstep, hf]; rfl

end Sys2Proof.Machine
end

section
/-! The steps that read or write one frame bit (45_encode R244, R245; 46_decode R271, R273), and which memories
the engine's steps may write (20_memory R67, R68, R75). -/

namespace Sys2Proof.Machine

open Sys2Proof Sys2Proof.Claims

/-! ### Writing -/

/-- The write of one frame bit, whatever else changes with it. -/
theorem embedded_of_embedBit {v : Bool} {s t : State} (hi : s.idx.toNat + 1 < 2 ^ 32) (hidx : t.idx = s.idx + 1)
    (hm : ∀ m, t.mem m = (embedBit v s).mem m) : Embedded v s t := by
  refine ⟨by rw [hidx, toNat_succ_of_lt _ hi], fun m a => ?_⟩
  have hbyte : t.byteAt m a = (embedBit v s).byteAt m a := by rw [State.byteAt, hm]; rfl
  have hwrite := write_byteAt s .pixo m a (EA s.idx.toNat) (setLSB (s.byteAt .pixo (EA s.idx.toNat)) v)
  rw [hbyte]
  refine (show (embedBit v s).byteAt m a = _ by cases m <;> rfl).trans (hwrite.trans ?_)
  split
  · next h => rw [h.2]
  · rfl

/-- Settles O38: the pixel exists under the invariant, and the step's three exits are those of R244. -/
theorem writeHeaderStep : Obligations.WriteHeaderStep := by
  intro s hinv hst
  obtain ⟨hea, hi⟩ := hinv.pixel_exists (by simp [hst]) (hinv.eWrhdr_idx_lt hst)
  rw [engineStep_eWrhdr hst, stepEWrhdr_eq s hea hi]
  dsimp only
  by_cases h32 : s.idx.toNat + 1 = HDRW
  · rw [if_pos h32]
    by_cases hn : s.n = 0
    · rw [if_pos hn]
      exact ⟨_, rfl, rfl, embedded_of_embedBit hi rfl fun m => by cases m <;> rfl, fun h => absurd h32 h,
        fun _ _ => ⟨rfl, rfl, rfl, rfl, rfl, rfl⟩, fun _ h => absurd hn h⟩
    · rw [if_neg hn]
      exact ⟨_, rfl, rfl, embedded_of_embedBit hi rfl fun m => by cases m <;> rfl, fun h => absurd h32 h,
        fun _ h => absurd h hn, fun _ _ => ⟨rfl, rfl, rfl, rfl, rfl, rfl⟩⟩
  · rw [if_neg h32]
    exact ⟨_, rfl, by rw [← hst]; rfl, embedded_of_embedBit hi rfl fun m => by cases m <;> rfl,
      fun _ => ⟨rfl, rfl, rfl, rfl, rfl, rfl⟩, fun h => absurd h h32, fun h => absurd h h32⟩

/-- `BP` and `BC` while the payload is written (R245). -/
theorem State.Inv.eWrpay_counters {s : State} (h : s.Inv) (hst : s.st = .eWrpay) :
    HDRW ≤ s.idx.toNat ∧ s.bc.toNat = (s.idx.toNat - HDRW) % 8 ∧ s.bp.toNat = (s.idx.toNat - HDRW + 7) / 8 := by
  have hph := h.phaseOk
  simp only [State.PhaseOk, hst] at hph
  obtain ⟨-, -, -, hidx, -, hbc, hbp⟩ := hph
  exact ⟨hidx, hbc, hbp⟩

theorem bc_eq_zero_iff (x : BitVec 3) : x = 0 ↔ x.toNat = 0 := BitVec.toNat_eq

/-- Settles O39: the byte loaded or left by the step before, and the two exits of R245. -/
theorem writePayloadStep : Obligations.WritePayloadStep := by
  intro s hinv hst
  obtain ⟨hea, hi⟩ := hinv.pixel_exists (by simp [hst]) (hinv.eWrpay_idx_lt hst)
  obtain ⟨x, p, hload, hp, hx⟩ := stepEWrpay_load hinv hst
  obtain ⟨-, hbc, hbp⟩ := hinv.eWrpay_counters hst
  have hbyte : x = if s.bc = 0 then s.muxPayload.getD s.bp.toNat 0 else s.shr := by
    rw [hx]
    split
    · next h0 =>
      rw [bc_eq_zero_iff] at h0
      rw [show s.bp.toNat = (s.idx.toNat - HDRW) / 8 by omega]
    · rfl
  have hcount : p.toNat = s.bp.toNat + if s.bc = 0 then 1 else 0 := by
    split
    · next h0 => rw [bc_eq_zero_iff] at h0; omega
    · next h0 => rw [bc_eq_zero_iff] at h0; omega
  rw [engineStep_eWrpay hst, stepEWrpay_eq s { s with shr := x, bp := p } hload hea hi, ← hbyte]
  dsimp only
  by_cases hend : s.idx.toNat + 1 = HDRW + s.n.toNat
  · rw [if_pos hend]
    exact ⟨_, rfl, ⟨rfl, embedded_of_embedBit hi rfl fun m => by cases m <;> rfl⟩, hcount,
      fun _ => ⟨rfl, rfl, rfl, rfl⟩, fun h => absurd hend h⟩
  · rw [if_neg hend]
    exact ⟨_, rfl, ⟨rfl, embedded_of_embedBit hi rfl fun m => by cases m <;> rfl⟩, hcount,
      fun h => absurd h hend, fun _ => ⟨rfl, rfl, rfl, rfl⟩⟩

/-! ### Reading -/

/-- The step of `D_RDHDR` with a header in the buffer. -/
theorem readHeader_step {s : State} (hinv : s.Inv) (hst : s.st = .dRdhdr) (hcap : HDRW ≤ s.cap) :
    ∃ t, engineStep s = .next t ∧ t = { s with b := t.b, hsr := t.hsr, idx := t.idx, st := t.st } ∧
      t.b = lsb (s.byteAt .pixi (EA s.idx.toNat)) ∧ t.hsr.toNat = 2 * s.hsr.toNat % 2 ^ 32 + t.b.toNat ∧
      t.idx.toNat = s.idx.toNat + 1 ∧ t.st = if s.idx.toNat + 1 = HDRW then .dValhdr else .dRdhdr := by
  have hlt := hinv.dRdhdr_idx_lt hst
  obtain ⟨hea, hi⟩ := hinv.pixel_exists (by simp [hst]) (by omega)
  have hidx := toNat_succ_of_lt s.idx hi
  rw [engineStep_dRdhdr hst, stepDRdhdr_eq s hcap hea hi]
  dsimp only
  split
  · exact ⟨_, rfl, rfl, rfl, hsr_in_toNat _ _, hidx, rfl⟩
  · exact ⟨_, rfl, rfl, rfl, hsr_in_toNat _ _, hidx, rfl⟩

theorem bc_eq_seven_iff (x : BitVec 3) : x = 7 ↔ x + 1 = 0 := by revert x; decide

/-- The step of `D_RDPAY`: the byte is stored when it is complete. -/
theorem readPayload_step {s : State} (hinv : s.Inv) (hst : s.st = .dRdpay) :
    ∃ t, engineStep s = .next t ∧
      t = { s with b := t.b, shr := t.shr, bc := s.bc + 1, bp := t.bp, ext := t.ext, idx := t.idx, extlen := t.extlen, st := t.st } ∧
      t.b = lsb (s.byteAt .pixi (EA s.idx.toNat)) ∧ t.shr.toNat = 2 * s.shr.toNat % 2 ^ 8 + t.b.toNat ∧
      t.idx.toNat = s.idx.toNat + 1 ∧ t.bp.toNat = s.bp.toNat + (if s.bc = 7 then 1 else 0) ∧
      (∀ m a, t.byteAt m a = if m = .ext ∧ s.bc = 7 ∧ a = s.bp.toNat then t.shr else s.byteAt m a) ∧
      (s.idx.toNat + 1 = HDRW + s.n.toNat → t.extlen = t.bp ∧ t.st = .dDetprot) ∧
      (s.idx.toNat + 1 ≠ HDRW + s.n.toNat → t.extlen = s.extlen ∧ t.st = .dRdpay) := by
  obtain ⟨hea, hi⟩ := hinv.pixel_exists (by simp [hst]) (hinv.dRdpay_idx_lt hst).2
  have hidx := toNat_succ_of_lt s.idx hi
  rw [engineStep_dRdpay hst]
  by_cases hb : s.bc + 1 = 0
  · obtain ⟨he, hp⟩ := hinv.dRdpay_store_exists hst hb
    have h7 := (bc_eq_seven_iff _).2 hb
    have hstore := fun m a => write_byteAt s .ext m a s.bp.toNat
      ((s.shr <<< 1) ||| bitByte (lsb (s.byteAt .pixi (EA s.idx.toNat))))
    rw [stepDRdpay_eq_of_eq s hea hi hb he hp, if_pos h7, hb]
    simp only [h7, true_and]
    have hcount := toNat_succ_of_lt s.bp hp
    by_cases hend : s.idx.toNat + 1 = HDRW + s.n.toNat
    · rw [if_pos hend]
      exact ⟨_, rfl, rfl, rfl, shr_in_toNat _ _, hidx, hcount, fun m a => (hstore m a ▸ by cases m <;> rfl),
        fun _ => ⟨rfl, rfl⟩, fun h => absurd hend h⟩
    · rw [if_neg hend]
      exact ⟨_, rfl, rfl, rfl, shr_in_toNat _ _, hidx, hcount, fun m a => (hstore m a ▸ by cases m <;> rfl),
        fun h => absurd h hend, fun _ => ⟨rfl, rfl⟩⟩
  · have h7 : s.bc ≠ 7 := fun h => hb ((bc_eq_seven_iff _).1 h)
    rw [stepDRdpay_eq_of_ne s hea hi hb, if_neg h7]
    simp only [h7, false_and, and_false, ↓reduceIte]
    by_cases hend : s.idx.toNat + 1 = HDRW + s.n.toNat
    · rw [if_pos hend]
      exact ⟨_, rfl, rfl, rfl, shr_in_toNat _ _, hidx, rfl, fun m a => by cases m <;> rfl,
        fun _ => ⟨rfl, rfl⟩, fun h => absurd hend h⟩
    · rw [if_neg hend]
      exact ⟨_, rfl, rfl, rfl, shr_in_toNat _ _, hidx, rfl, fun m a => by cases m <;> rfl,
        fun h => absurd h hend, fun _ => ⟨rfl, rfl⟩⟩

/-- Settles O40: a buffer without a header, and the two reading steps. -/
theorem decoderReadingSteps : Obligations.DecoderReadingSteps :=
  ⟨fun s hinv hst => ⟨fun hcap => (engineStep_dRdhdr hst).trans (stepDRdhdr_small s hcap), readHeader_step hinv hst⟩,
    fun _ => readPayload_step⟩

/-! ### Which memories are written -/

/-- From `s` to `t` only the memories in `ws` are written, and `OUTLEN` only with `OUT`. -/
def Writes (ws : List MemName) (s t : State) : Prop :=
  (∀ m, m ∉ ws → t.mem m = s.mem m) ∧ (MemName.out ∉ ws → t.outlen = s.outlen)

theorem Writes.of_mem_eq {ws : List MemName} {s t : State} (hm : ∀ m, t.mem m = s.mem m) (ho : t.outlen = s.outlen) :
    Writes ws s t := ⟨fun m _ => hm m, fun _ => ho⟩

theorem Writes.refl (ws : List MemName) (s : State) : Writes ws s s := .of_mem_eq (fun _ => rfl) rfl

theorem Writes.trans {ws : List MemName} {s t u : State} (h : Writes ws s t) (k : Writes ws t u) : Writes ws s u :=
  ⟨fun m hm => (k.1 m hm).trans (h.1 m hm), fun ho => (k.2 ho).trans (h.2 ho)⟩

theorem Writes.mono {ws ws' : List MemName} {s t : State} (h : Writes ws s t) (hsub : ws ⊆ ws') : Writes ws' s t :=
  ⟨fun m hm => h.1 m fun hin => hm (hsub hin), fun ho => h.2 fun hin => ho (hsub hin)⟩

/-- The lines of a rule one after another. -/
theorem Writes.andThen {ws : List MemName} {s t : State} {r : Result} {f : State → Result}
    (h : Machine.andThen r f = .next t) (hr : ∀ u, r = .next u → Writes ws s u)
    (hf : ∀ u, f u = .next t → Writes ws u t) : Writes ws s t := by
  obtain ⟨u, hu, hfu⟩ := andThen_eq_next.1 h
  exact (hr u hu).trans (hf u hfu)

theorem Writes.setMem (s : State) (k : MemName) (x : Memory) : Writes [k] s (s.setMem k x) :=
  ⟨fun m hm => by rw [setMem_mem, if_neg (by simpa using hm)], fun _ => by rw [setMem_outlen]⟩

theorem Writes.bumpIdx (ws : List MemName) (s : State) : Writes ws s (bumpIdx s) :=
  .of_mem_eq (bumpIdx_mem s) (bumpIdx_outlen s)

theorem Writes.bumpBp (ws : List MemName) (s : State) : Writes ws s (bumpBp s) :=
  .of_mem_eq (bumpBp_mem s) (bumpBp_outlen s)

/-- Which memories a micro-operation writes (R139, R167, R169). -/
def writtenBy : Instr → List MemName
  | .uStb => [.ext]
  | .uEmb | .uCln => [.pixo]
  | .nop | .encode | .decode | .uNone | .uLdb | .uSho | .uShi | .uHld | .uHso | .uHsi | .uExt => []

theorem exec_writes {i : Instr} (hi : i.isCommand = false) {s t : State} (h : exec i s = .next t) :
    Writes (writtenBy i) s t := by
  cases i with
  | nop => cases hi
  | encode => cases hi
  | decode => cases hi
  | uNone => cases h; exact .refl _ s
  | uSho | uShi | uHld | uHso | uHsi => cases h; exact .of_mem_eq (fun m => by cases m <;> rfl) rfl
  | uLdb =>
    have hload : ∀ {v : Byte} {f : Nat}, Writes [] s (bumpBp { s with shr := v, free := f }) := fun {v f} =>
      Writes.trans (.of_mem_eq (t := { s with shr := v, free := f }) (fun m => by cases m <;> rfl) rfl) (.bumpBp [] _)
    cases hsrc : s.paySource s.bp.toNat with
    | mem m a =>
      rw [exec_uLdb_of_mem hsrc, readByte_eq_next] at h
      obtain ⟨-, h⟩ := h
      cases h; exact hload
    | const v => rw [exec_uLdb_of_const hsrc] at h; cases h; exact hload
    | undefined => simp only [exec, execULdb, hsrc] at h; cases h; exact hload
  | uStb =>
    obtain ⟨-, rfl⟩ := (exec_uStb_eq_next s t).1 h
    exact (Writes.setMem s .ext _).trans (.bumpBp _ _)
  | uEmb =>
    obtain ⟨-, rfl⟩ := (exec_uEmb_eq_next s t).1 h
    exact (Writes.setMem s .pixo _).trans (.bumpIdx _ _)
  | uExt =>
    obtain ⟨-, rfl⟩ := (exec_uExt_eq_next s t).1 h
    exact Writes.trans (.of_mem_eq (fun m => by cases m <;> rfl) rfl) (.bumpIdx [] _)
  | uCln =>
    obtain ⟨-, rfl⟩ := (exec_uCln_eq_next s t).1 h
    exact Writes.setMem s .pixo _

/-- The memories a sequencer state's step may write (R67, R68, R75). -/
def SeqState.written : SeqState → List MemName
  | .eClone | .eWrhdr | .eWrpay => [.pixo]
  | .dRdpay => [.ext]
  | .dRetplain | .dRetmsg => [.out]
  | .idle | .eBuild | .eChkcap | .dRdhdr | .dValhdr | .dDetprot | .dValpwd => []

/-- A line that writes registers but no memory and not `OUTLEN`, whichever way it branches. -/
theorem Writes.of_next {ws : List MemName} {s t u : State} (h : Host.Outcome.next (φ := Fault) (ρ := Refusal) u = .next t)
    (hm : ∀ m, u.mem m = s.mem m) (ho : u.outlen = s.outlen) : Writes ws s t := by
  cases h
  exact .of_mem_eq hm ho

theorem stepEClone_writes {s t : State} (h : stepEClone s = .next t) : Writes [.pixo] s t := by
  refine .andThen h (fun u hu => exec_writes rfl hu) fun u h => .andThen h (fun v hv => ?_) fun v h => ?_
  · exact (exec_writes rfl hv).mono (List.nil_subset _)
  · exact .of_next h (fun m => by cases m <;> rfl) rfl

theorem stepEWrhdr_writes {s t : State} (h : stepEWrhdr s = .next t) : Writes [.pixo] s t := by
  refine .andThen h (fun u hu => (exec_writes rfl hu).mono (List.nil_subset _)) fun u h =>
    .andThen h (fun v hv => exec_writes rfl hv) fun v h => ?_
  dsimp only at h
  split at h
  · split at h <;> exact .of_next h (fun m => by cases m <;> rfl) rfl
  · exact .of_next h (fun m => by cases m <;> rfl) rfl

theorem stepEWrpay_writes {s t : State} (h : stepEWrpay s = .next t) : Writes [.pixo] s t := by
  refine .andThen h (fun u hu => ?_) fun u h => .andThen h (fun v hv => ?_) fun v h =>
    .andThen h (fun w hw => exec_writes rfl hw) fun w h => ?_
  · split at hu
    · exact (exec_writes rfl hu).mono (List.nil_subset _)
    · cases hu; exact .refl _ _
  · exact (exec_writes rfl hv).mono (List.nil_subset _)
  · split at h <;> exact .of_next h (fun m => by cases m <;> rfl) rfl

theorem stepDRdhdr_writes {s t : State} (h : stepDRdhdr s = .next t) : Writes [] s t := by
  unfold stepDRdhdr at h
  split at h
  · exact .of_next h (fun m => by cases m <;> rfl) rfl
  · refine .andThen h (fun u hu => exec_writes rfl hu) fun u h => .andThen h (fun v hv => exec_writes rfl hv) fun v h => ?_
    split at h <;> exact .of_next h (fun m => by cases m <;> rfl) rfl

theorem stepDValhdr_writes {s t : State} (h : stepDValhdr s = .next t) : Writes [] s t := by
  rw [stepDValhdr_eq] at h
  dsimp only at h
  split at h
  · exact .of_next h (fun m => by cases m <;> rfl) rfl
  · split at h
    · exact .of_next h (fun m => by cases m <;> rfl) rfl
    · split at h <;> exact .of_next h (fun m => by cases m <;> rfl) rfl

theorem stepDRdpay_writes {s t : State} (h : stepDRdpay s = .next t) : Writes [.ext] s t := by
  refine .andThen h (fun u hu => (exec_writes rfl hu).mono (List.nil_subset _)) fun u h =>
    .andThen h (fun v hv => (exec_writes rfl hv).mono (List.nil_subset _)) fun v h =>
    .andThen h (fun w hw => ?_) fun w h => ?_
  · split at hw
    · exact exec_writes rfl hw
    · cases hw; exact .refl _ _
  · split at h <;> exact .of_next h (fun m => by cases m <;> rfl) rfl

theorem stepDDetprot_writes {s t : State} (h : stepDDetprot s = .next t) : Writes [] s t := by
  simp only [stepDDetprot, exec_uNone, andThen_next] at h
  split at h
  · obtain ⟨-, h⟩ := readFirst_eq_next.1 h
    split at h <;> exact .of_next h (fun m => by cases m <;> rfl) rfl
  · exact .of_next h (fun m => by cases m <;> rfl) rfl

theorem stepDValpwd_writes {s t : State} (h : stepDValpwd s = .next t) : Writes [] s t := by
  simp only [stepDValpwd, exec_uNone, andThen_next, readFirst_eq_next] at h
  obtain ⟨-, h⟩ := h
  split at h
  · split at h
    · exact .of_next h (fun m => by cases m <;> rfl) rfl
    · split at h
      · exact .of_next h (fun m => by cases m <;> rfl) rfl
      · obtain ⟨-, h⟩ := readFirst_eq_next.1 h
        split at h <;> exact .of_next h (fun m => by cases m <;> rfl) rfl
  · exact .of_next h (fun m => by cases m <;> rfl) rfl

/-- A command that ended with success. -/
def State.Succeeded (t : State) : Prop := t.st = .idle ∧ t.done = true ∧ t.err = .none

/-- The two steps that return a message end the command with success, or stop. -/
theorem stepDRetplain_writes {s t : State} (h : stepDRetplain s = .next t) : Writes [.out] s t ∧ t.Succeeded := by
  simp only [stepDRetplain, exec_uNone, andThen_next, readFirst_eq_next, andThen_eq_next, storeFirst_eq_next] at h
  obtain ⟨-, u, ⟨-, rfl⟩, h⟩ := h
  cases h
  exact ⟨⟨fun m hm => (setMem_mem s .out m _).trans (if_neg (by simpa using hm)), fun ho => by simp at ho⟩, rfl, rfl, rfl⟩

theorem setMessageLength_mem (s : State) (m : MemName) : (setMessageLength s).mem m = s.mem m := by
  unfold setMessageLength
  split <;> cases m <;> rfl

theorem stepDRetmsg_writes {s t : State} (h : stepDRetmsg s = .next t) : Writes [.out] s t ∧ t.Succeeded := by
  simp only [stepDRetmsg, exec_uNone, andThen_next, readFirst_eq_next, andThen_eq_next, storeFirst_eq_next] at h
  obtain ⟨-, u, ⟨-, rfl⟩, h⟩ := h
  cases h
  refine ⟨⟨fun m hm => ?_, fun ho => by simp at ho⟩, rfl, rfl, rfl⟩
  rw [finish_mem, setMessageLength_mem, setMem_mem, if_neg (by simpa using hm)]

/-- A step of the engine writes no memory but those of its sequencer state. -/
theorem engineStep_writes {s t : State} (h : engineStep s = .next t) : Writes s.st.written s t := by
  cases hst : s.st with
  | idle => rw [engineStep_idle hst] at h; cases h; exact .refl _ _
  | eBuild => rw [engineStep_eBuild hst, stepEBuild_eq] at h; exact .of_next h (fun m => by cases m <;> rfl) rfl
  | eChkcap =>
    rw [engineStep_eChkcap hst, stepEChkcap_eq] at h
    split at h <;> exact .of_next h (fun m => by cases m <;> rfl) rfl
  | eClone => rw [engineStep_eClone hst] at h; exact stepEClone_writes h
  | eWrhdr => rw [engineStep_eWrhdr hst] at h; exact stepEWrhdr_writes h
  | eWrpay => rw [engineStep_eWrpay hst] at h; exact stepEWrpay_writes h
  | dRdhdr => rw [engineStep_dRdhdr hst] at h; exact stepDRdhdr_writes h
  | dValhdr => rw [engineStep_dValhdr hst] at h; exact stepDValhdr_writes h
  | dRdpay => rw [engineStep_dRdpay hst] at h; exact stepDRdpay_writes h
  | dDetprot => rw [engineStep_dDetprot hst] at h; exact stepDDetprot_writes h
  | dRetplain => rw [engineStep_dRetplain hst] at h; exact (stepDRetplain_writes h).1
  | dValpwd => rw [engineStep_dValpwd hst] at h; exact stepDValpwd_writes h
  | dRetmsg => rw [engineStep_dRetmsg hst] at h; exact (stepDRetmsg_writes h).1

theorem engineStep_returns {s t : State} (h : engineStep s = .next t) (hst : s.st = .dRetplain ∨ s.st = .dRetmsg) :
    t.Succeeded := by
  rcases hst with hst | hst
  · rw [engineStep_dRetplain hst] at h; exact (stepDRetplain_writes h).2
  · rw [engineStep_dRetmsg hst] at h; exact (stepDRetmsg_writes h).2

theorem Writes.byteAt {ws : List MemName} {s t : State} (h : Writes ws s t) {m : MemName} (hm : m ∉ ws) (a : Nat) :
    t.byteAt m a = s.byteAt m a := by
  rw [State.byteAt, h.1 m hm, State.byteAt]

/-- A memory that only some sequencer states write is kept in every other. -/
theorem not_mem_written {m : MemName} {st : SeqState} (h : ∀ x : SeqState, m ∈ x.written → x ≠ st) : m ∉ st.written :=
  fun hin => h st hin rfl

/-- Settles O51: the operands by `engineStep_kept`, the memories by `engineStep_writes`. -/
theorem engineFootprint : Obligations.EngineFootprint := by
  intro s t h
  have hk := engineStep_kept h
  have hw := engineStep_writes h
  have hout : ¬ ((s.st = .dRetplain ∨ s.st = .dRetmsg) ∧ t.Succeeded) → MemName.out ∉ s.st.written := fun hno =>
    not_mem_written fun x hx hxs => hno
      (have hst : s.st = .dRetplain ∨ s.st = .dRetmsg := by rw [← hxs]; cases x <;> simp [SeqState.written] at hx ⊢
       ⟨hst, engineStep_returns h hst⟩)
  refine ⟨hk.pixlen, hk.msglen, hk.pwdlen, hk.present, hk.params, hk.host, hk.reads, hk.uops, fun a => ⟨?_, ?_, ?_⟩,
    fun h1 h2 h3 a => hw.byteAt ?_ a, fun h1 a => hw.byteAt ?_ a, fun hno => ⟨hw.2 (hout hno), fun a => hw.byteAt (hout hno) a⟩⟩
  · exact pixi_byteAt_of_kept hk a
  · rw [State.byteAt, State.byteAt, State.mem, State.mem, hk.msg]
  · rw [State.byteAt, State.byteAt, State.mem, State.mem, hk.pwd]
  · exact not_mem_written fun x hx hxs => by subst hxs; cases hst : s.st <;> simp_all [SeqState.written]
  · exact not_mem_written fun x hx hxs => by subst hxs; cases hst : s.st <;> simp_all [SeqState.written]

end Sys2Proof.Machine
end

section
/-! `ENCODE` run step by step is the operation of R230 (45_encode section 3, R246, R247): the Encoder's run is followed
by the number of frame bits it has written. -/

namespace Sys2Proof.Machine

open Sys2Proof Sys2Proof.Claims

/-! ### One engine step at the end of a run -/

/-- The engine's step from a state of a quiet run. -/
theorem run_engineStep {j : Nat} {s v w : State} (hrun : run j s = .next v) (hinv : v.Inv) (hh : v.host = [])
    (hw : engineStep v = .next w) : run (j + 1) s = .next w :=
  (run_snoc hrun).trans ((step_of_quiet hinv.uopsDone hh).trans hw)

/-- The engine left alone touches none of the operands. -/
theorem run_kept {k : Nat} {s t : State} (hinv : s.Inv) (hh : s.host = []) (h : run k s = .next t) : Kept s t := by
  induction k generalizing s with
  | zero => cases h; exact .refl _
  | succ k ih =>
    obtain ⟨u, hu, hinv'⟩ := engineStep_inv hinv
    rw [run_succ_of_quiet hinv hh hu] at h
    have hk := engineStep_kept hu
    exact hk.trans (ih hinv' (hk.host.trans hh) h)

theorem run_of_idle {s : State} (hinv : s.Inv) (hh : s.host = []) (hst : s.st = .idle) (k : Nat) : run k s = .next s := by
  induction k with
  | zero => rfl
  | succ k ih => rw [run_succ_of_quiet hinv hh (engineStep_idle hst), ih]

/-- From `t` the engine alone needs `k` steps to `u`, and is busy before each of them. -/
def EndsAfter (k : Nat) (t u : State) : Prop :=
  run k t = .next u ∧ ∀ j < k, ∃ v, run j t = .next v ∧ v.st ≠ .idle

/-- It is enough that the engine is busy before the last step: in `IDLE` it would have stayed there. -/
theorem EndsAfter.of_last {k : Nat} {t v u : State} (hinv : t.Inv) (hh : t.host = []) (hrun : run k t = .next v)
    (hv : v.st ≠ .idle) (hu : engineStep v = .next u) : EndsAfter (k + 1) t u := by
  refine ⟨run_engineStep hrun (run_inv hinv hrun) ((run_kept hinv hh hrun).host.trans hh) hu, fun j hj => ?_⟩
  obtain ⟨w, hw, hrest⟩ : ∃ w, run j t = .next w ∧ run (k - j) w = .next v := by
    rw [← andThen_eq_next, ← run_add, show j + (k - j) = k by omega, hrun]
  refine ⟨w, hw, fun hidle => hv ?_⟩
  rw [run_of_idle (run_inv hinv hw) ((run_kept hinv hh hw).host.trans hh) hidle] at hrest
  cases hrest
  exact hidle

/-! ### The frame's bits -/

theorem frameBits_header (p : List Byte) {k : Nat} (hk : k < HDRW) :
    (frameBits p).getD k false = (BitVec.ofNat 32 (8 * p.length)).getLsbD (31 - k) := by
  rw [List.getD_eq_getElem?_getD, frameBits, List.getElem?_append_left (by rwa [uintToBits_length]),
    uintToBits_get _ _ hk, Option.getD_some]
  rfl

theorem frameBits_payload (p : List Byte) {q r : Nat} (hq : q < p.length) (hr : r < 8) :
    (frameBits p).getD (HDRW + (8 * q + r)) false = (p.getD q 0).getLsbD (7 - r) := by
  have hget := bytesToBits_get p q hq r hr
  rw [List.getD_eq_getElem?_getD, frameBits, List.getElem?_append_right (by rw [uintToBits_length]; omega),
    uintToBits_length, Nat.add_sub_cancel_left, hget, Option.getD_some, List.getD_eq_getElem _ _ hq]

/-- The payload that `ENCODE` embeds. -/
def State.payload (s : State) : List Byte := buildPayload s.message s.password

theorem payloadBits_eq (s : State) : s.payloadBits = 8 * s.payload.length := rfl

/-- Once `PROT` is set the multiplexer selects the payload's bytes. -/
theorem muxPayload_protectedVariant (s : State) : ({ s with prot := s.protectedVariant } : State).muxPayload = s.payload :=
  muxPayload_eq_buildPayload (s := s) (by constructor <;> rfl) rfl

/-- The payload's length as R202 gives it. -/
theorem payload_length (s : State) : s.payload.length = s.payloadLength s.protectedVariant := by
  rw [← muxPayload_protectedVariant, muxPayload_length]
  rfl

/-! ### The Encoder's run -/

/-- The byte of `PIXO` after `k` frame bits were put into the cloned buffer. -/
def State.framedByte (s : State) (k a : Nat) : Byte :=
  if a % 4 = 0 ∧ a / 4 < k then setLSB (s.byteAt .pixi a) ((frameBits s.payload).getD (a / 4) false)
  else if a < s.pixlen.toNat then s.byteAt .pixi a
  else s.byteAt .pixo a

/-- The sequencer state after `k` of the frame's `32 + n` bits. -/
def State.writingState (s : State) (k : Nat) : SeqState :=
  if k < HDRW then .eWrhdr else if k < HDRW + s.payloadBits then .eWrpay else .idle

/-- `t` is the state of the `ENCODE` given in `s` after `k` frame bits. -/
structure Written (s : State) (k : Nat) (t : State) : Prop where
  inv : t.Inv
  kept : Kept s t
  writes : Writes [.pixo] s t
  n : t.n = BitVec.ofNat 32 s.payloadBits
  prot : t.prot = s.protectedVariant
  idx : t.idx.toNat = k
  st : t.st = s.writingState k
  hsr : k < HDRW → t.hsr = t.n <<< k
  shr : HDRW ≤ k → t.bc ≠ 0 → t.shr = s.payload.getD ((k - HDRW) / 8) 0 <<< ((k - HDRW) % 8)
  pixo : ∀ a, t.byteAt .pixo a = s.framedByte k a
  ended : k = HDRW + s.payloadBits → t.done = true ∧ t.err = .none ∧ t.sub = 0

/-- One more frame bit. -/
theorem framedByte_succ {s : State} {k : Nat} (hk : k < s.cap) (a : Nat) :
    s.framedByte (k + 1) a =
      if a = EA k then setLSB (s.framedByte k a) ((frameBits s.payload).getD k false) else s.framedByte k a := by
  have hcap := cap_le s
  unfold State.framedByte EA BPP
  by_cases ha : a = 4 * k
  · subst ha
    rw [if_pos (by omega), if_pos rfl, if_neg (by omega), if_pos (by omega), Nat.mul_div_cancel_left _ (by decide)]
  · rw [if_neg ha]
    by_cases hold : a % 4 = 0 ∧ a / 4 < k
    · rw [if_pos (by omega), if_pos hold]
    · rw [if_neg (by omega), if_neg hold]

theorem Written.pixo_next {s t t' : State} {k : Nat} (h : Written s k t) (hk : k < s.cap) {v : Bool}
    (hv : v = (frameBits s.payload).getD k false) (he : Embedded v t t') (a : Nat) :
    t'.byteAt .pixo a = s.framedByte (k + 1) a := by
  rw [he.2, h.idx, h.pixo, framedByte_succ hk, hv]
  simp only [true_and]

section
variable {s : State} (hfits : HDRW + s.payloadBits ≤ s.cap)
include hfits

theorem payloadBits_toNat : (BitVec.ofNat 32 s.payloadBits).toNat = s.payloadBits := by
  have hcap := cap_lt s
  exact toNat_ofNat_of_lt (by omega)

/-- The bit that `E_WRHDR` embeds is the frame's next one, and the step leaves the run at the next bit. -/
theorem Written.next_header {t : State} {k : Nat} (h : Written s k t) (hk : k < HDRW) :
    ∃ t', engineStep t = .next t' ∧ Written s (k + 1) t' := by
  have hst : t.st = .eWrhdr := h.st.trans (if_pos hk)
  obtain ⟨t', hstep, heq, hemb, hstay, hend, hgo⟩ := writeHeaderStep t h.inv hst
  have hn : t'.n = t.n := by rw [heq]
  have hn0 : t.n = 0 ↔ s.payloadBits = 0 := by rw [h.n, BitVec.toNat_eq, payloadBits_toNat hfits]; rfl
  have hbit : t.hsr.getLsbD 31 = (frameBits s.payload).getD k false := by
    unfold HDRW at hk
    rw [h.hsr hk, getLsbD_shl _ _ _ (by omega) (by decide), h.n, frameBits_header _ hk, payloadBits_eq]
  rw [h.idx] at hstay hend hgo
  refine ⟨t', hstep, engineStep_keeps_inv h.inv hstep, h.kept.trans (engineStep_kept hstep),
    h.writes.trans (by have := engineStep_writes hstep; rwa [hst] at this), hn.trans h.n,
    (show t'.prot = t.prot by rw [heq]).trans h.prot, by rw [hemb.1, h.idx], ?_, fun _ => ?_, fun hk' hbc => ?_,
    h.pixo_next (by omega) hbit hemb, fun hlast => ?_⟩
  · unfold State.writingState
    by_cases h32 : k + 1 = HDRW
    · rw [if_neg (by omega)]
      by_cases h0 : t.n = 0
      · rw [if_neg (by have := hn0.1 h0; omega)]; exact (hend h32 h0).1
      · rw [if_pos (by have := mt hn0.2 h0; omega)]; exact (hgo h32 h0).1
    · rw [if_pos (by omega)]; exact (hstay h32).1
  · rw [(show t'.hsr = t.hsr <<< 1 by rw [heq]), h.hsr hk, ← BitVec.shiftLeft_add, hn]
  · have h32 : k + 1 = HDRW := by omega
    by_cases h0 : t.n = 0
    · exact absurd (hend h32 h0).2.2.1 hbc
    · exact absurd (hgo h32 h0).2.2.1 hbc
  · have h32 : k + 1 = HDRW := by omega
    exact (hend h32 (hn0.2 (by omega))).2.2.2

/-- The same of `E_WRPAY`. -/
theorem Written.next_payload {t : State} {k : Nat} (h : Written s k t) (hk : HDRW ≤ k) (hlt : k < HDRW + s.payloadBits) :
    ∃ t', engineStep t = .next t' ∧ Written s (k + 1) t' := by
  have hst : t.st = .eWrpay := h.st.trans ((if_neg (by omega)).trans (if_pos hlt))
  obtain ⟨t', hstep, ⟨heq, hemb⟩, -, hend, hgo⟩ := writePayloadStep t h.inv hst
  obtain ⟨-, hbc, hbp⟩ := h.inv.eWrpay_counters hst
  have hmux : t.muxPayload = s.payload :=
    muxPayload_eq_buildPayload h.kept (by
      rw [h.prot, State.protectedVariant, State.protectedVariant, h.kept.present, h.kept.pwdlen])
  have hn : t'.n = t.n := by rw [heq]
  have hnval : t.n.toNat = s.payloadBits := by rw [h.n, payloadBits_toNat hfits]
  rw [h.idx] at hbc hbp
  -- the shift register holds byte `(k - 32) / 8`, shifted as often as bits of it are out
  have hx : (if t.bc = 0 then t.muxPayload.getD t.bp.toNat 0 else t.shr) =
      s.payload.getD ((k - HDRW) / 8) 0 <<< ((k - HDRW) % 8) := by
    split
    · next h0 =>
      rw [bc_eq_zero_iff] at h0
      rw [hmux, show t.bp.toNat = (k - HDRW) / 8 by omega, show (k - HDRW) % 8 = 0 by omega, BitVec.shiftLeft_zero]
    · next h0 => exact h.shr hk h0
  rw [hx] at heq hemb
  have hbit : (s.payload.getD ((k - HDRW) / 8) 0 <<< ((k - HDRW) % 8)).getLsbD 7 = (frameBits s.payload).getD k false := by
    rw [getLsbD_shl _ _ _ (by omega) (by decide), ← frameBits_payload _ (by rw [payloadBits_eq] at hlt; omega) (by omega)]
    congr 1; omega
  rw [h.idx, hnval] at hend hgo
  refine ⟨t', hstep, engineStep_keeps_inv h.inv hstep, h.kept.trans (engineStep_kept hstep),
    h.writes.trans (by have := engineStep_writes hstep; rwa [hst] at this), hn.trans h.n,
    (show t'.prot = t.prot by rw [heq]).trans h.prot, by rw [hemb.1, h.idx], ?_, fun hk' => absurd hk' (by omega), fun _ hbc' => ?_,
    h.pixo_next (by omega) hbit hemb, fun hlast => (hend hlast).2⟩
  · unfold State.writingState
    rw [if_neg (by omega)]
    by_cases hlast : k + 1 = HDRW + s.payloadBits
    · rw [if_neg (by omega)]; exact (hend hlast).1
    · rw [if_pos (by omega)]; exact (hgo hlast).1
  · rw [(show t'.bc = t.bc + 1 by rw [heq]), ne_eq, bc_eq_zero_iff, toNat_bc_succ] at hbc'
    rw [(show t'.shr = s.payload.getD ((k - HDRW) / 8) 0 <<< ((k - HDRW) % 8) <<< 1 by rw [heq]), ← BitVec.shiftLeft_add,
      show (k + 1 - HDRW) / 8 = (k - HDRW) / 8 by omega, show (k + 1 - HDRW) % 8 = (k - HDRW) % 8 + 1 by omega]

theorem Written.next {t : State} {k : Nat} (h : Written s k t) (hlt : k < HDRW + s.payloadBits) :
    ∃ t', engineStep t = .next t' ∧ Written s (k + 1) t' := by
  by_cases hk : k < HDRW
  · exact h.next_header hfits hk
  · exact h.next_payload hfits (Nat.not_lt.1 hk) hlt

end

/-! ### The first three steps -/

/-- The state after `E_BUILD`. -/
def afterBuild (s : State) : State :=
  { acceptEncode s with
    prot := s.protectedVariant, paylen := BitVec.ofNat 34 (s.payloadLength s.protectedVariant), st := .eChkcap }

/-- The state after `E_CHKCAP`, if the payload fits. -/
def afterCheck (s : State) : State := { afterBuild s with n := BitVec.ofNat 32 s.payloadBits, st := .eClone }

theorem engineStep_acceptEncode (s : State) : engineStep (acceptEncode s) = .next (afterBuild s) := stepEBuild_eq _

theorem afterBuild_paylen (s : State) : 8 * (afterBuild s).paylen.toNat = s.payloadBits := by
  rw [payloadBits_eq, payload_length]
  exact congrArg (8 * ·) (toNat_ofNat_of_lt (payloadLength_lt s _))

theorem engineStep_afterBuild {s : State} (hfits : HDRW + s.payloadBits ≤ s.cap) :
    engineStep (afterBuild s) = .next (afterCheck s) := by
  refine (stepEChkcap_of_fits (s := afterBuild s) (by rw [afterBuild_paylen]; exact hfits)).trans ?_
  rw [afterBuild_paylen]; rfl

theorem engineStep_afterBuild_exceeded {s : State} (hexc : s.cap < HDRW + s.payloadBits) :
    engineStep (afterBuild s) = .next (finish .capacityError subCapExceeded (afterBuild s)) :=
  stepEChkcap_of_not_fits (s := afterBuild s) (by rw [afterBuild_paylen]; exact hexc)

section
variable {s : State} (hready : Ready s) (hc : configCheck true s = none)
include hready hc

theorem afterBuild_inv : (afterBuild s).Inv := engineStep_keeps_inv (acceptEncode_inv hready.inv hc) (engineStep_acceptEncode s)

theorem run_encode_one : run 1 (acceptEncode s) = .next (afterBuild s) :=
  run_engineStep (run_zero _) (acceptEncode_inv hready.inv hc) hready.host (engineStep_acceptEncode s)

theorem run_encode_two (hfits : HDRW + s.payloadBits ≤ s.cap) : run 2 (acceptEncode s) = .next (afterCheck s) :=
  run_engineStep (run_encode_one hready hc) (afterBuild_inv hready hc) hready.host (engineStep_afterBuild hfits)

/-- The clone is made and no frame bit is written yet. -/
theorem run_encode_clone (hfits : HDRW + s.payloadBits ≤ s.cap) :
    ∃ t, run 3 (acceptEncode s) = .next t ∧ Written s 0 t := by
  have hinv : (afterCheck s).Inv := engineStep_keeps_inv (afterBuild_inv hready hc) (engineStep_afterBuild hfits)
  obtain ⟨t, hstep, heq, hbytes⟩ := cloneStep (afterCheck s) hinv rfl
  have hkept : Kept s (afterCheck s) := by constructor <;> rfl
  have hwrites : Writes [.pixo] s (afterCheck s) := .of_mem_eq (fun m => by cases m <;> rfl) rfl
  refine ⟨t, run_engineStep (run_encode_two hready hc hfits) hinv hready.host hstep, engineStep_keeps_inv hinv hstep,
    hkept.trans (engineStep_kept hstep), hwrites.trans (engineStep_writes hstep), (show t.n = (afterCheck s).n by rw [heq]),
    (show t.prot = (afterCheck s).prot by rw [heq]), by rw [(show t.idx = 0 by rw [heq])]; rfl, (show t.st = .eWrhdr by rw [heq]), fun _ => ?_,
    fun hk => absurd hk (by decide), fun a => ?_, fun h => absurd h (Nat.ne_of_lt (by unfold HDRW; omega))⟩
  · rw [(show t.hsr = (afterCheck s).n by rw [heq]), (show t.n = (afterCheck s).n by rw [heq]),
      BitVec.shiftLeft_zero]
  · rw [State.framedByte, if_neg (c := a % 4 = 0 ∧ a / 4 < 0) (by omega), hbytes]
    by_cases ha : a < s.pixlen.toNat
    · rw [if_pos ha]; exact if_pos ⟨rfl, ha⟩
    · rw [if_neg ha]; exact if_neg fun h => ha h.2

/-- After `k` frame bits the run has made `3 + k` steps (R246). -/
theorem run_encode_written (hfits : HDRW + s.payloadBits ≤ s.cap) {k : Nat} (hk : k ≤ HDRW + s.payloadBits) :
    ∃ t, run (3 + k) (acceptEncode s) = .next t ∧ Written s k t := by
  induction k with
  | zero => exact run_encode_clone hready hc hfits
  | succ k ih =>
    obtain ⟨t, hrun, ht⟩ := ih (by omega)
    obtain ⟨t', hstep, ht'⟩ := ht.next hfits hk
    exact ⟨t', run_engineStep hrun ht.inv (ht.kept.host.trans hready.host) hstep, ht'⟩

end

/-! ### The end of the run -/

/-- What `ENCODE` leaves in `PIXO` is `writeFrame` of the buffer, and what was there beyond it. -/
theorem framedByte_all {s : State} (hfits : HDRW + s.payloadBits ≤ s.cap) (a : Nat) :
    s.framedByte (HDRW + s.payloadBits) a =
      if a < s.pixlen.toNat then (writeFrame s.pixels s.payload).getD a 0 else s.byteAt .pixo a := by
  have hcap := cap_le s
  have hlen : s.pixels.length = s.pixlen.toNat := bytes_length _ _ _ _
  unfold State.framedByte
  by_cases ha : a < s.pixlen.toNat
  · rw [if_pos ha, if_pos ha, writeFrame_getD _ _ (by omega), ← payloadBits_eq, State.pixels, bytes_getD _ _ _ _ _ ha,
      Nat.zero_add]
  · rw [if_neg ha, if_neg ha, if_neg (by omega)]

/-- After the last frame bit the state shows what the operation gives. -/
theorem Written.sameResult {s t : State} (hfits : HDRW + s.payloadBits ≤ s.cap)
    (h : Written s (HDRW + s.payloadBits) t) : SameResult (encodeOp s) t := by
  obtain ⟨hdone, herr, hsub⟩ := h.ended rfl
  have hop : encodeOp s = _ := encodeOp_ok (sourceEncode_fits (show _ ≤ capacity s.pixels by rw [capacity_pixels]; exact hfits))
  have hlen : (writeFrame s.pixels s.payload).length = s.pixlen.toNat := by
    rw [writeFrame_length]; exact bytes_length _ _ _ _
  rw [hop]
  refine ⟨h.kept.pixlen, h.kept.msglen, h.kept.pwdlen, h.kept.present, h.writes.2 (by decide), hdone, herr, hsub, h.n,
    h.prot, h.st.trans ?_, fun m a _ => ?_⟩
  · rw [State.writingState, if_neg (by omega), if_neg (by omega)]; rfl
  · by_cases hm : m = .pixo
    · subst hm
      rw [h.pixo, framedByte_all hfits, ← hlen]
      refine Eq.trans ?_ (writeList_byteAt s .pixo .pixo a (writeFrame s.pixels s.payload)).symm
      simp only [true_and]
    · rw [h.writes.byteAt (by simpa using hm)]
      exact ((writeList_byteAt s .pixo m a _).trans (if_neg fun h => hm h.1)).symm

theorem encodeSteps_exceeded {s : State} (h : s.cap < HDRW + s.payloadBits) : encodeSteps s = 2 := if_pos h

theorem encodeSteps_fits {s : State} (h : HDRW + s.payloadBits ≤ s.cap) : encodeSteps s = 3 + (HDRW + s.payloadBits) := by
  rw [encodeSteps, if_neg (Nat.not_lt.2 h), Nat.add_assoc]; rfl

/-- Before the last frame bit the engine is busy. -/
theorem writingState_ne_idle {s : State} {k : Nat} (h : k < HDRW + s.payloadBits) : s.writingState k ≠ .idle := by
  unfold State.writingState
  split
  · decide
  · decide

/-- The `ENCODE` given in `s` ends as the operation says, with nothing written but `PIXO`. -/
theorem encode_ends {s : State} (hready : Ready s) (hc : configCheck true s = none) :
    ∃ u, EndsAfter (encodeSteps s) (acceptEncode s) u ∧ SameResult (encodeOp s) u ∧ Writes [.pixo] s u := by
  have hinv := acceptEncode_inv hready.inv hc
  by_cases hfits : HDRW + s.payloadBits ≤ s.cap
  · obtain ⟨v, hrun, hv⟩ := run_encode_written hready hc hfits (show HDRW + s.payloadBits - 1 ≤ _ by omega)
    obtain ⟨u, hstep, hu⟩ := hv.next hfits (by unfold HDRW; omega)
    rw [show HDRW + s.payloadBits - 1 + 1 = HDRW + s.payloadBits by unfold HDRW; omega] at hu
    have hbusy : v.st ≠ .idle := by rw [hv.st]; exact writingState_ne_idle (by unfold HDRW; omega)
    rw [encodeSteps_fits hfits, show 3 + (HDRW + s.payloadBits) = 3 + (HDRW + s.payloadBits - 1) + 1 by unfold HDRW; omega]
    exact ⟨u, .of_last hinv hready.host hrun hbusy hstep, hu.sameResult hfits, hu.writes⟩
  · have hexc := Nat.not_le.1 hfits
    have hop : encodeOp s = _ :=
      encodeOp_error (sourceEncode_exceeded (show capacity s.pixels < _ by rw [capacity_pixels]; exact hexc))
    rw [encodeSteps_exceeded hexc, hop]
    exact ⟨_, .of_last hinv hready.host (run_encode_one hready hc) nofun (engineStep_afterBuild_exceeded hexc),
      ⟨rfl, rfl, rfl, rfl, rfl, rfl, rfl, rfl, rfl, rfl, rfl, fun m a _ => by cases m <;> rfl⟩,
      .of_mem_eq (fun m => by cases m <;> rfl) rfl⟩

/-- Settles O53: the payload does not fit, or the run writes its `32 + n` frame bits. -/
theorem encodeAgreesWithTheOperation : Obligations.EncodeAgreesWithTheOperation := by
  intro s hready hc
  obtain ⟨u, ⟨hrun, hbusy⟩, hsame, hwrites⟩ := encode_ends hready hc
  exact ⟨_, u, exec_encode_accepted hready.idle hc, hrun, hsame, hwrites.byteAt (by decide), hbusy⟩

end Sys2Proof.Machine
end

section
/-! `DECODE` run step by step is the operation of R260 (46_decode section 3, R278, R279): the Decoder's run is followed
by the number of frame bits it has read, then by its last two or three steps. -/

namespace Sys2Proof.Machine

open Sys2Proof Sys2Proof.Claims

/-! ### The header -/

/-- `t` is the state of the `DECODE` given in `s` after `k` header bits. -/
structure HeaderRead (s : State) (k : Nat) (t : State) : Prop where
  inv : t.Inv
  kept : Kept s t
  writes : Writes [] (acceptDecode s) t
  n : t.n = s.n
  idx : t.idx.toNat = k
  st : t.st = if k < HDRW then .dRdhdr else .dValhdr
  header : t.HeaderSoFar

section
variable {s : State} (hready : Ready s) (hc : configCheck false s = none)
include hready hc

theorem headerRead_zero : HeaderRead s 0 (acceptDecode s) :=
  ⟨acceptDecode_inv hready.inv hc, acceptDecode_kept s, .refl _ _, rfl, rfl, rfl, rfl⟩

omit hready hc in
theorem HeaderRead.next {t : State} {k : Nat} (h : HeaderRead s k t) (hcap : HDRW ≤ s.cap) (hk : k < HDRW) :
    ∃ t', engineStep t = .next t' ∧ HeaderRead s (k + 1) t' := by
  have hst : t.st = .dRdhdr := h.st.trans (if_pos hk)
  have htcap : HDRW ≤ t.cap := by rw [cap_of_pixlen_eq h.kept.pixlen]; exact hcap
  obtain ⟨t', hstep, heq, hb, hhsr, hidx, hst'⟩ := readHeader_step h.inv hst htcap
  have hkept := engineStep_kept hstep
  have hwrites := engineStep_writes hstep
  rw [hst] at hwrites
  rw [h.idx] at hst' hidx
  refine ⟨t', hstep, engineStep_keeps_inv h.inv hstep, h.kept.trans hkept, h.writes.trans hwrites,
    (show t'.n = t.n by rw [heq]).trans h.n, hidx, hst'.trans ?_, ?_⟩
  · by_cases h32 : k + 1 = HDRW
    · rw [if_pos h32, if_neg (by omega)]
    · rw [if_neg h32, if_pos (by omega)]
  · rw [State.HeaderSoFar, pixels_of_kept hkept, hidx, ← h.idx, ← h.header.next (by rw [h.idx]; exact hk) htcap,
      hsr_in_toNat, hhsr, hb]

/-- After `k` header bits the run has made `k` steps (R271). -/
theorem run_decode_header (hcap : HDRW ≤ s.cap) {k : Nat} (hk : k ≤ HDRW) :
    ∃ t, run k (acceptDecode s) = .next t ∧ HeaderRead s k t := by
  induction k with
  | zero => exact ⟨_, rfl, headerRead_zero hready hc⟩
  | succ k ih =>
    obtain ⟨t, hrun, ht⟩ := ih (by omega)
    obtain ⟨t', hstep, ht'⟩ := ht.next hcap hk
    exact ⟨t', run_engineStep hrun ht.inv (ht.kept.host.trans hready.host) hstep, ht'⟩

end

/-- `HSR` is then the header (R183). -/
theorem HeaderRead.hsr_eq {s t : State} (h : HeaderRead s HDRW t) : t.hsr.toNat = readHeader s.pixels := by
  rw [h.header.complete h.inv (h.st.trans (if_neg (by decide))), pixels_of_kept h.kept]

/-! ### The payload -/

/-- The header passes the tests of R272. -/
structure HeaderOk (s : State) : Prop where
  ne : readHeader s.pixels ≠ 0
  fits : HDRW + readHeader s.pixels ≤ s.cap
  align : readHeader s.pixels % 8 = 0

/-- The payload that `DECODE` extracts. -/
def State.extracted (s : State) : List Byte := readPayload s.pixels (readHeader s.pixels)

/-- What holds of the `DECODE` given in `s` once the header is accepted. -/
structure Decoding (s t : State) : Prop where
  inv : t.Inv
  kept : Kept s t
  writes : Writes [.ext] (acceptDecode s) t
  n : t.n = BitVec.ofNat 32 (readHeader s.pixels)

theorem Decoding.n_toNat {s t : State} (h : Decoding s t) : t.n.toNat = readHeader s.pixels := by
  rw [h.n, toNat_ofNat_of_lt (readHeader_lt _)]

/-- A step that writes at most `EXT` and keeps `N`. -/
theorem Decoding.next {s t t' : State} (h : Decoding s t) (hstep : engineStep t = .next t')
    (hw : t.st.written ⊆ [.ext]) (hn : t'.n = t.n) : Decoding s t' :=
  ⟨engineStep_keeps_inv h.inv hstep, h.kept.trans (engineStep_kept hstep), h.writes.trans ((engineStep_writes hstep).mono hw),
    hn.trans h.n⟩

/-- `t` is the state of the `DECODE` given in `s` after `j` payload bits. -/
structure PayloadRead (s : State) (j : Nat) (t : State) : Prop extends Decoding s t where
  idx : t.idx.toNat = HDRW + j
  st : t.st = if j < readHeader s.pixels then .dRdpay else .dDetprot
  shr : t.shr.toNat % 2 ^ (j % 8) = bitsToUint (channelBits s.pixels (HDRW + 8 * (j / 8)) (j % 8))
  ext : ∀ q < j / 8, t.byteAt .ext q = s.extracted.getD q 0

/-- The bits of the byte being packed, with one more shifted in behind them. -/
theorem shr_mod_succ {x v r : Nat} (hv : v ≤ 1) (hr : r < 8) :
    (2 * x % 2 ^ 8 + v) % 2 ^ (r + 1) = 2 * (x % 2 ^ r) + v := by
  interval_cases r <;> omega

section
variable {s : State} (hok : HeaderOk s)
include hok

/-- Byte `q` of the payload is the number of the eight bits of its pixels. -/
theorem extracted_getD {q : Nat} (hq : q < readHeader s.pixels / 8) :
    s.extracted.getD q 0 = BitVec.ofNat 8 (bitsToUint (channelBits s.pixels (HDRW + 8 * q) 8)) :=
  (readPayload_spec _ _ hok.align).2 q hq

theorem extracted_length : s.extracted.length = readHeader s.pixels / 8 := (readPayload_spec _ _ hok.align).1

theorem PayloadRead.next {t : State} {j : Nat} (h : PayloadRead s j t) (hj : j < readHeader s.pixels) :
    ∃ t', engineStep t = .next t' ∧ PayloadRead s (j + 1) t' := by
  have hst : t.st = .dRdpay := h.st.trans (if_pos hj)
  have hfit := hok.fits
  obtain ⟨t', hstep, heq, hb, hshr, hidx, -, hbytes, hlast, hstay⟩ := readPayload_step h.inv hst
  have hph := h.inv.phaseOk
  simp only [State.PhaseOk, hst] at hph
  obtain ⟨-, -, -, -, -, -, -, hbc, hbp⟩ := hph
  have hidx0 := h.idx
  have hbc8 : t.bc.toNat = j % 8 := by rw [hbc, hidx0, Nat.add_sub_cancel_left]
  have hbp8 : t.bp.toNat = j / 8 := by rw [hbp, hidx0, Nat.add_sub_cancel_left]
  -- the bit of pixel `32 + j` is the next of the byte's bits
  have hbit : t'.b = lsb (s.pixels.getD (EA (HDRW + 8 * (j / 8) + j % 8)) 0) := by
    rw [hb, hidx0, pixi_byteAt_of_kept h.kept, show HDRW + 8 * (j / 8) + j % 8 = HDRW + j by omega, pixels_getD (by omega)]
  have hshr' : t'.shr.toNat % 2 ^ (j % 8 + 1) = bitsToUint (channelBits s.pixels (HDRW + 8 * (j / 8)) (j % 8 + 1)) := by
    rw [channelBits_snoc, bitsToUint_snoc, ← h.shr, ← hbit, hshr, shr_mod_succ t'.b.toNat_le (by omega)]
  have hdec := h.toDecoding.next hstep (by rw [hst]; exact List.Subset.refl _) (by rw [heq])
  refine ⟨t', hstep, hdec, by omega, ?_, ?_, fun q hq => ?_⟩
  · have hn := h.toDecoding.n_toNat
    by_cases hend : j + 1 = readHeader s.pixels
    · rw [if_neg (by omega)]; exact (hlast (by omega)).2
    · rw [if_pos (by omega)]; exact (hstay (by omega)).2
  · by_cases h7 : j % 8 = 7
    · rw [show (j + 1) % 8 = 0 by omega]; exact Nat.mod_one _
    · rw [show (j + 1) % 8 = j % 8 + 1 by omega, show (j + 1) / 8 = j / 8 by omega, hshr']
  · rw [hbytes]
    by_cases hnew : q = j / 8
    · have h7 : j % 8 = 7 := by omega
      have hbc7 : t.bc = 7 := BitVec.eq_of_toNat_eq (hbc8.trans h7)
      rw [h7, Nat.mod_eq_of_lt t'.shr.isLt] at hshr'
      rw [if_pos ⟨rfl, hbc7, by omega⟩, hnew, extracted_getD hok (by have := hok.align; omega)]
      exact BitVec.eq_of_toNat_eq (by rw [hshr', toNat_ofNat_of_lt (by rw [← hshr']; exact t'.shr.isLt)])
    · rw [if_neg (by omega), h.ext q (by omega)]

end

section
variable {s : State} (hready : Ready s) (hc : configCheck false s = none)
include hready hc

/-- The header is accepted in step 33 (R272). -/
theorem run_decode_accepted (hok : HeaderOk s) : ∃ t, run 33 (acceptDecode s) = .next t ∧ PayloadRead s 0 t := by
  obtain ⟨t, hrun, ht⟩ := run_decode_header hready hc (by have := hok.fits; omega) le_rfl
  have hhsr := ht.hsr_eq
  have hst : t.st = .dValhdr := ht.st.trans (if_neg (by decide))
  have hstep := (validateHeaderStep t hst).2.2.2 (by rw [hhsr]; exact hok.ne)
    (by rw [hhsr, ht.kept.pixlen]; exact hok.fits) (by rw [hhsr]; exact hok.align)
  refine ⟨_, run_engineStep hrun ht.inv (ht.kept.host.trans hready.host) hstep,
    ⟨engineStep_keeps_inv ht.inv hstep, ht.kept.trans (engineStep_kept hstep), ?_, ?_⟩, ht.idx, ?_, rfl,
    fun q hq => absurd hq (Nat.not_lt_zero q)⟩
  · have hw := engineStep_writes hstep
    rw [hst] at hw
    exact (ht.writes.trans hw).mono (List.nil_subset _)
  · exact BitVec.eq_of_toNat_eq (hhsr.trans (toNat_ofNat_of_lt (readHeader_lt _)).symm)
  · rw [if_pos (Nat.pos_of_ne_zero hok.ne)]

/-- After `j` payload bits the run has made `33 + j` steps (R273). -/
theorem run_decode_payload (hok : HeaderOk s) {j : Nat} (hj : j ≤ readHeader s.pixels) :
    ∃ t, run (33 + j) (acceptDecode s) = .next t ∧ PayloadRead s j t := by
  induction j with
  | zero => exact run_decode_accepted hready hc hok
  | succ j ih =>
    obtain ⟨t, hrun, ht⟩ := ih (by omega)
    obtain ⟨t', hstep, ht'⟩ := ht.next hok hj
    exact ⟨t', run_engineStep hrun ht.inv (ht.kept.host.trans hready.host) hstep, ht'⟩

end

/-! ### What the operation makes of the payload -/

theorem HeaderOk.readFrame_eq {s : State} (hok : HeaderOk s) : readFrame s.pixels = .ok s.extracted :=
  readFrame_ok hok.ne (by rw [capacity_pixels]; exact hok.fits) hok.align

theorem HeaderOk.header_le {s : State} (hok : HeaderOk s) : HDRW ≤ s.cap := by
  have := hok.fits
  omega

theorem decodedN_eq {s : State} (hcap : HDRW ≤ s.cap) : s.decodedN = BitVec.ofNat 32 (readHeader s.pixels) :=
  if_neg (Nat.not_lt.2 hcap)

theorem decodeSteps_small {s : State} (h : s.cap < HDRW) : decodeSteps s = 1 := if_pos h

theorem decodeSteps_frameError {s : State} {e : Ending} (hcap : HDRW ≤ s.cap) (h : readFrame s.pixels = .error e) :
    decodeSteps s = 33 := by
  rw [decodeSteps, if_neg (Nat.not_lt.2 hcap), h]

/-- Two steps follow the payload, unless it is a Protected one that unwraps (R278). -/
theorem decodeSteps_two {s : State} {x : List Byte} (hcap : HDRW ≤ s.cap) (hx : readFrame s.pixels = .ok x)
    (h : startsWith x MARK = true → ∀ m, unwrap x s.password ≠ .ok m) :
    decodeSteps s = 33 + readHeader s.pixels + 2 := by
  rw [decodeSteps, if_neg (Nat.not_lt.2 hcap), hx]
  dsimp only
  split
  · next m hm hu => exact absurd hu (h hm m)
  · rfl

theorem decodeSteps_three {s : State} {x m : List Byte} (hcap : HDRW ≤ s.cap) (hx : readFrame s.pixels = .ok x)
    (hm : startsWith x MARK = true) (h : unwrap x s.password = .ok m) :
    decodeSteps s = 33 + readHeader s.pixels + 3 := by
  rw [decodeSteps, if_neg (Nat.not_lt.2 hcap), hx]
  simp only [hm, h]

/-! ### A command that fails, and one that returns a message -/

theorem Decoding.byteAt {s t : State} (h : Decoding s t) {m : MemName} (hm : m ≠ .ext) (a : Nat) :
    t.byteAt m a = s.byteAt m a := by
  rw [h.writes.byteAt (by simpa using hm), acceptDecode_byteAt]

/-- A state that ended with an error shows what R260 gives with the same `N`, `PROT` and `OUTLEN`. -/
theorem sameResult_of_failed {s t : State} {e : ErrKind} {sub : BitVec 3} {o n : Word} {p : Bool} (hk : Kept s t)
    (ho : t.outlen = o) (hn : t.n = n) (hp : t.prot = p) (hb : SameBytesBut .ext s t) :
    SameResult (finish e sub { acceptStatus s with outlen := o, n := n, prot := p }) (finish e sub t) := by
  refine ⟨hk.pixlen, hk.msglen, hk.pwdlen, hk.present, ho, rfl, rfl, rfl, hn, hp, rfl, fun m a hm => ?_⟩
  rw [finish_byteAt, hb m a hm]
  cases m <;> rfl

/-- A state that ended with success shows the message that R260 returns. -/
theorem sameResult_of_returned {s t u : State} {n : Word} {p : Bool} {m : List Byte} (hk : Kept s t)
    (hn : t.n = n) (hp : t.prot = p) (hb : SameBytesBut .ext s t)
    (hu : u = { t with out := u.out, outlen := u.outlen, st := .idle, done := true, err := .none, sub := 0 })
    (hlen : u.outlen.toNat = m.length)
    (hbytes : ∀ k a, u.byteAt k a = if k = .out ∧ a < m.length then m.getD a 0 else t.byteAt k a) :
    SameResult (finish .none 0 { acceptStatus s with
      n := n, prot := p, out := s.out.writeList 0 m, outlen := BitVec.ofNat 32 m.length }) u := by
  have hout : u.outlen = BitVec.ofNat 32 m.length :=
    BitVec.eq_of_toNat_eq (hlen.trans (toNat_ofNat_of_lt (hlen ▸ u.outlen.isLt)).symm)
  rw [hu]
  refine ⟨hk.pixlen, hk.msglen, hk.pwdlen, hk.present, hout, rfl, rfl, rfl, hn, hp, rfl, fun k a hk => ?_⟩
  rw [← hu, hbytes, hb k a hk]
  exact (writeList_byteAt s .out k a m).symm.trans (by cases k <;> rfl)

section
variable {s t : State} (hok : HeaderOk s) (h : Decoding s t) (hprot : t.prot = startsWith s.extracted MARK)
include hok h hprot

theorem Decoding.sameResult_failed (hout : t.outlen = 0) {e : ErrKind} {sub : BitVec 3}
    (hw : unwrap s.extracted s.password = .error (e, sub)) : SameResult (decodeOp s) (finish e sub t) := by
  rw [decodeOp_unwrapError hok.readFrame_eq hw, decodedN_eq hok.header_le]
  exact sameResult_of_failed h.kept hout h.n hprot fun m a hm => h.byteAt hm a

theorem Decoding.sameResult_returned {m : List Byte} (hw : unwrap s.extracted s.password = .ok m) {u : State}
    (hu : u = { t with out := u.out, outlen := u.outlen, st := .idle, done := true, err := .none, sub := 0 })
    (hlen : u.outlen.toNat = m.length)
    (hbytes : ∀ k a, u.byteAt k a = if k = .out ∧ a < m.length then m.getD a 0 else t.byteAt k a) :
    SameResult (decodeOp s) u := by
  rw [decodeOp_ok hok.readFrame_eq hw, decodedN_eq hok.header_le]
  exact sameResult_of_returned h.kept h.n hprot (fun k a hk => h.byteAt hk a) hu hlen hbytes

end

/-! ### The last steps -/

/-- `t` is the state of the `DECODE` given in `s` with the payload in `EXT`, after `D_DETPROT` (R274). -/
structure Detected (s t : State) : Prop extends Decoding s t where
  st : t.st = if startsWith s.extracted MARK then .dValpwd else .dRetplain
  prot : t.prot = startsWith s.extracted MARK
  ext : t.bytes .ext 0 t.extlen.toNat = s.extracted

theorem PayloadRead.bytes_ext {s t : State} (hok : HeaderOk s) (h : PayloadRead s (readHeader s.pixels) t) :
    t.bytes .ext 0 t.extlen.toNat = s.extracted := by
  have hst : t.st = .dDetprot := h.st.trans (if_neg (Nat.lt_irrefl _))
  have hph := h.inv.phaseOk
  simp only [State.PhaseOk, hst] at hph
  obtain ⟨-, -, -, hlen, -⟩ := hph
  rw [h.toDecoding.n_toNat] at hlen
  exact bytes_eq_of (by rw [extracted_length hok]; omega) fun a ha => h.ext a (by omega)

theorem Decoding.extlen_of_ext {s t : State} (h : t.bytes .ext 0 t.extlen.toNat = s.extracted) :
    t.extlen.toNat = s.extracted.length := by rw [← h, bytes_length]

section
variable {s : State} (hready : Ready s) (hc : configCheck false s = none) (hok : HeaderOk s)
include hready hc hok

/-- The detection is step `33 + N + 1`. -/
theorem run_decode_detected : ∃ t, run (33 + readHeader s.pixels + 1) (acceptDecode s) = .next t ∧ Detected s t := by
  obtain ⟨t, hrun, ht⟩ := run_decode_payload hready hc hok le_rfl
  have hst : t.st = .dDetprot := ht.st.trans (if_neg (Nat.lt_irrefl _))
  have hext := ht.bytes_ext hok
  have hdetect := detect_iff t
  rw [hext] at hdetect
  have hph := ht.inv.phaseOk
  simp only [State.PhaseOk, hst] at hph
  obtain ⟨-, -, hprot, -⟩ := hph
  obtain ⟨hyes, hno⟩ := detectAndReturnPlainSteps.1 t ht.inv hst
  cases hm : startsWith s.extracted MARK with
  | true =>
    have hstep := hyes (hdetect.2 hm)
    exact ⟨_, run_engineStep hrun ht.inv (ht.kept.host.trans hready.host) hstep,
      ht.toDecoding.next hstep (by rw [hst]; exact List.nil_subset _) rfl, by rw [hm]; rfl, by rw [hm], hext⟩
  | false =>
    have hstep := hno (fun h => by rw [hdetect.1 h] at hm; cases hm)
    exact ⟨_, run_engineStep hrun ht.inv (ht.kept.host.trans hready.host) hstep,
      ht.toDecoding.next hstep (by rw [hst]; exact List.nil_subset _) rfl, by rw [hm]; rfl, by rw [hm]; exact hprot, hext⟩

/-- A Plain payload is returned as it is (R275). -/
theorem decode_plain_ends (hm : startsWith s.extracted MARK = false) :
    ∃ u, EndsAfter (decodeSteps s) (acceptDecode s) u ∧ SameResult (decodeOp s) u := by
  obtain ⟨t, hrun, ht⟩ := run_decode_detected hready hc hok
  have hst : t.st = .dRetplain := by rw [ht.st, hm]; rfl
  have hlen := Decoding.extlen_of_ext ht.ext
  obtain ⟨u, hstep, hu, hbytes⟩ := detectAndReturnPlainSteps.2 t ht.inv hst
  rw [decodeSteps_two hok.header_le hok.readFrame_eq fun h => by rw [hm] at h; cases h]
  refine ⟨u, .of_last (acceptDecode_inv hready.inv hc) hready.host hrun (by rw [hst]; decide) hstep,
    ht.toDecoding.sameResult_returned hok ht.prot (unwrap_plain hm) (by rw [hu]) (by rw [hu]; exact hlen) fun k a => ?_⟩
  rw [hbytes, hlen]
  split
  · next ha => rw [← ht.ext, bytes_getD _ _ _ _ _ (by omega), Nat.zero_add]
  · rfl

/-- A command that fails in `D_VALPWD` ends as the operation does. -/
theorem decode_failed_ends {t : State} {e : ErrKind} {sub : BitVec 3} (hm : startsWith s.extracted MARK = true)
    (ht : Detected s t) (hrun : run (33 + readHeader s.pixels + 1) (acceptDecode s) = .next t)
    (hstep : engineStep t = .next (finish e sub t)) (hw : unwrap s.extracted s.password = .error (e, sub)) :
    ∃ u, EndsAfter (decodeSteps s) (acceptDecode s) u ∧ SameResult (decodeOp s) u := by
  have hst : t.st = .dValpwd := by rw [ht.st, hm]; rfl
  rw [decodeSteps_two hok.header_le hok.readFrame_eq fun _ m hu => by rw [hw] at hu; cases hu]
  exact ⟨_, .of_last (acceptDecode_inv hready.inv hc) hready.host hrun (by rw [hst]; decide) hstep,
    ht.toDecoding.sameResult_failed hok ht.prot (ht.inv.decoding_start (by rw [hst]; rfl)).2 hw⟩

end

/-- The password between `MARK` and the separator, as the operation and as the step compare it. -/
theorem passwordMatches_iff_eq {s t : State} {p : Nat} (hk : Kept s t) (hm : startsWith (t.bytes .ext 0 t.extlen.toNat) MARK = true)
    (hp : occurrences (t.bytes .ext 0 t.extlen.toNat) SEP = [p]) :
    t.PasswordMatches p ↔
      s.bytes .pwd 0 s.pwdlen.toNat = ((t.bytes .ext 0 t.extlen.toNat).take p).drop 11 := by
  have hle := separator_le hp
  have h11 := separator_after_MARK hm (by rw [hp]; exact List.mem_singleton_self p)
  have hpwd : s.bytes .pwd 0 s.pwdlen.toNat = t.bytes .pwd 0 t.pwdlen.toNat := by
    rw [hk.pwdlen]
    exact bytes_congr fun i _ => by simp only [State.byteAt, State.mem, hk.pwd]
  rw [hpwd, passwordMatches_iff hle, List.drop_take]
  constructor
  · intro h
    obtain ⟨-, hlen, hbytes⟩ : ¬ p < 11 ∧ t.pwdlen.toNat = p - 11 ∧ t.bytes .pwd 0 t.pwdlen.toNat = _ := by
      simpa only [not_or, not_not, ne_eq] using h
    rw [hbytes, hlen]
  · intro h
    have hlen : t.pwdlen.toNat = p - 11 := by
      have hl := congrArg List.length h
      rw [bytes_length, List.length_take, List.length_drop, bytes_length] at hl
      omega
    rintro (h1 | h1 | h1)
    · omega
    · exact h1 hlen
    · exact h1 (by rw [h, hlen])

section
variable {s : State} (hready : Ready s) (hc : configCheck false s = none) (hok : HeaderOk s)
include hready hc hok

/-- The right password: the message is returned in step `33 + N + 3` (R276, R277). -/
theorem decode_message_ends {t : State} {p : Nat} (hm : startsWith s.extracted MARK = true) (ht : Detected s t)
    (hrun : run (33 + readHeader s.pixels + 1) (acceptDecode s) = .next t)
    (hp : occurrences s.extracted SEP = [p])
    (hstep : engineStep t = .next { t with spos := BitVec.ofNat 32 p, st := .dRetmsg })
    (hw : unwrap s.extracted s.password = .ok (s.extracted.drop (p + 6))) :
    ∃ u, EndsAfter (decodeSteps s) (acceptDecode s) u ∧ SameResult (decodeOp s) u := by
  have hst : t.st = .dValpwd := by rw [ht.st, hm]; rfl
  have hlen := Decoding.extlen_of_ext ht.ext
  have hle : p + 6 ≤ t.extlen.toNat := separator_le (by rw [ht.ext]; exact hp)
  have hdec := ht.toDecoding.next hstep (by rw [hst]; exact List.nil_subset _) rfl
  have hspos : (BitVec.ofNat 32 p).toNat = p := toNat_ofNat_of_lt (by omega)
  obtain ⟨u, hlast, hu, hout, hbytes⟩ := returnMessageStep _ hdec.inv rfl
  simp only [hspos] at hout hbytes
  have hmsg : (s.extracted.drop (p + 6)).length = t.extlen.toNat - p - 6 := by rw [List.length_drop]; omega
  rw [decodeSteps_three hok.header_le hok.readFrame_eq hm hw]
  refine ⟨u, .of_last (acceptDecode_inv hready.inv hc) hready.host
    (run_engineStep hrun ht.inv (ht.kept.host.trans hready.host) hstep) nofun hlast,
    hdec.sameResult_returned hok ht.prot hw (by rw [hu]) (by rw [hout, hmsg]) fun k a => ?_⟩
  rw [hbytes, hmsg]
  split
  · next ha =>
    rw [List.getD_eq_getElem?_getD, List.getElem?_drop, ← List.getD_eq_getElem?_getD, ← ht.ext,
      bytes_getD _ _ _ _ _ (by omega), Nat.zero_add]
    rfl
  · rfl

/-- A Protected payload: the tests of R276, which are those of R209. -/
theorem decode_protected_ends (hm : startsWith s.extracted MARK = true) :
    ∃ u, EndsAfter (decodeSteps s) (acceptDecode s) u ∧ SameResult (decodeOp s) u := by
  obtain ⟨t, hrun, ht⟩ := run_decode_detected hready hc hok
  have hst : t.st = .dValpwd := by rw [ht.st, hm]; rfl
  have hfailed {e : ErrKind} {sub : BitVec 3} := decode_failed_ends (e := e) (sub := sub) hready hc hok hm ht hrun
  by_cases hone : occ s.extracted SEP = 1
  · obtain ⟨p, hp⟩ := List.length_eq_one_iff.1 hone
    have hp' : occurrences (t.bytes .ext 0 t.extlen.toNat) SEP = [p] := by rw [ht.ext]; exact hp
    obtain ⟨hmissing, hincorrect, hright⟩ := engineStep_dValpwd_of_one_separator ht.inv hst hp'
    have hmatch := passwordMatches_iff_eq ht.kept (by rw [ht.ext]; exact hm) hp'
    rw [ht.ext] at hmatch
    cases hpr : s.present with
    | false =>
      have hnone : s.password = none := by rw [State.password, hpr]; rfl
      exact hfailed (hmissing (ht.kept.present.trans hpr)) (by rw [hnone]; exact unwrap_missing hm hp)
    | true =>
      have hsome : s.password = some (s.bytes .pwd 0 s.pwdlen.toNat) := by rw [State.password, hpr]; rfl
      have hw := unwrap_given (q := s.bytes .pwd 0 s.pwdlen.toNat) hm hp
      rw [← hsome] at hw
      by_cases heq : t.PasswordMatches p
      · exact decode_message_ends hready hc hok hm ht hrun hp (hright (ht.kept.present.trans hpr) heq)
          (hw.trans (if_pos (hmatch.1 heq)))
      · exact hfailed (hincorrect (ht.kept.present.trans hpr) heq) (hw.trans (if_neg (mt hmatch.2 heq)))
  · exact hfailed (engineStep_dValpwd_of_occ_ne_one ht.inv hst (by rw [ht.ext]; exact hone)) (unwrap_count hm hone)

end

/-! ### A header that is refused -/

section
variable {s : State} (hready : Ready s) (hc : configCheck false s = none)
include hready hc

/-- A header that fails a test of R272 ends the command in step 33. -/
theorem decode_headerError_ends (hcap : HDRW ≤ s.cap) {sub : BitVec 3}
    (hframe : readFrame s.pixels = .error (.formatError, sub))
    (hstep : ∀ t, HeaderRead s HDRW t → engineStep t = .next (finish .formatError sub { t with n := t.hsr })) :
    ∃ u, EndsAfter (decodeSteps s) (acceptDecode s) u ∧ SameResult (decodeOp s) u := by
  obtain ⟨t, hrun, ht⟩ := run_decode_header hready hc hcap le_rfl
  have hst : t.st = .dValhdr := ht.st.trans (if_neg (by decide))
  have hinv := acceptDecode_inv hready.inv hc
  rw [decodeSteps_frameError hcap hframe]
  refine ⟨_, .of_last hinv hready.host hrun (by rw [hst]; decide) (hstep t ht), ?_⟩
  have hph := ht.inv.phaseOk
  simp only [State.PhaseOk, hst] at hph
  obtain ⟨-, hout, hprot, -⟩ := hph
  rw [decodeOp_frameError hframe, decodedN_eq hcap]
  refine sameResult_of_failed (t := { t with n := t.hsr }) (by cases ht.kept; constructor <;> assumption) hout ?_ hprot fun m a _ => ?_
  · exact BitVec.eq_of_toNat_eq (ht.hsr_eq.trans (toNat_ofNat_of_lt (readHeader_lt _)).symm)
  · rw [← acceptDecode_byteAt s, ← ht.writes.byteAt (m := m) (by simp) a]
    cases m <;> rfl

/-- A buffer without room for a header ends it in the first step. -/
theorem decode_small_ends (hcap : s.cap < HDRW) :
    ∃ u, EndsAfter (decodeSteps s) (acceptDecode s) u ∧ SameResult (decodeOp s) u := by
  rw [decodeSteps_small hcap, decodeOp_frameError (readFrame_small (by rw [capacity_pixels]; exact hcap)),
    State.decodedN, if_pos hcap]
  exact ⟨_, .of_last (acceptDecode_inv hready.inv hc) hready.host (run_zero _) nofun
    (stepDRdhdr_small (acceptDecode s) hcap),
    ⟨rfl, rfl, rfl, rfl, rfl, rfl, rfl, rfl, rfl, rfl, rfl, fun m a _ => by cases m <;> rfl⟩⟩

/-- The `DECODE` given in `s` ends as the operation says: the tests of R184 to R186, then the payload. -/
theorem decode_ends : ∃ u, EndsAfter (decodeSteps s) (acceptDecode s) u ∧ SameResult (decodeOp s) u := by
  by_cases hcap : s.cap < HDRW
  · exact decode_small_ends hready hc hcap
  have hcap := Nat.not_lt.1 hcap
  have hcap' : HDRW ≤ capacity s.pixels := by rw [capacity_pixels]; exact hcap
  have hrefused {sub : BitVec 3} := decode_headerError_ends (sub := sub) hready hc hcap
  have htests (t : State) (ht : HeaderRead s HDRW t) := validateHeaderStep t (ht.st.trans (if_neg (by decide)))
  by_cases h0 : readHeader s.pixels = 0
  · exact hrefused (readFrame_zero hcap' h0) fun t ht => (htests t ht).1 (ht.hsr_eq.trans h0)
  by_cases hrange : s.cap < HDRW + readHeader s.pixels
  · exact hrefused (readFrame_range hcap' h0 (by rw [capacity_pixels]; exact hrange)) fun t ht =>
      (htests t ht).2.1 (by rw [ht.hsr_eq]; exact h0) (by rw [ht.hsr_eq, ht.kept.pixlen]; exact hrange)
  have hfits := Nat.not_lt.1 hrange
  by_cases halign : readHeader s.pixels % 8 = 0
  · have hok : HeaderOk s := ⟨h0, hfits, halign⟩
    cases hm : startsWith s.extracted MARK with
    | false => exact decode_plain_ends hready hc hok hm
    | true => exact decode_protected_ends hready hc hok hm
  · exact hrefused (readFrame_align h0 (by rw [capacity_pixels]; exact hfits) halign) fun t ht =>
      (htests t ht).2.2.1 (by rw [ht.hsr_eq]; exact h0) (by rw [ht.hsr_eq, ht.kept.pixlen]; exact hfits)
        (by rw [ht.hsr_eq]; exact halign)

end

/-- Settles O54: by the outcome of the header's tests, of the detection and of the password's tests. -/
theorem decodeAgreesWithTheOperation : Obligations.DecodeAgreesWithTheOperation := by
  intro s hready hc
  obtain ⟨u, ⟨hrun, hbusy⟩, hsame⟩ := decode_ends hready hc
  exact ⟨_, u, exec_decode_accepted hready.idle hc, hrun, hsame, hbusy⟩

end Sys2Proof.Machine
end

section
/-! The round trips on the machine (43_protection R214): what `ENCODE` left in `PIXO` is read back by `DECODE`. -/

namespace Sys2Proof.Machine

open Sys2Proof Sys2Proof.Claims

/-! ### The payload of each variant -/

theorem payload_plain {s : State} (h : s.protectedVariant = false) : s.payload = s.message := by
  rw [← muxPayload_protectedVariant, State.muxPayload, h]
  rfl

/-- A Protected payload has a password, which is not empty (R200). -/
theorem password_protected {s : State} (h : s.protectedVariant = true) :
    s.password = some (s.bytes .pwd 0 s.pwdlen.toNat) ∧ s.bytes .pwd 0 s.pwdlen.toNat ≠ [] := by
  obtain ⟨hpresent, hpos⟩ := (protectedVariant_eq_true s).1 h
  refine ⟨if_pos hpresent, fun hnil => ?_⟩
  have hlen := congrArg List.length hnil
  rw [bytes_length, List.length_nil] at hlen
  omega

theorem payload_protected {s : State} (h : s.protectedVariant = true) :
    s.payload = wrapped (s.bytes .pwd 0 s.pwdlen.toNat) s.message := by
  obtain ⟨hpassword, hne⟩ := password_protected h
  rw [State.payload, hpassword, buildPayload_some hne]

/-! ### From the encoder to the decoder -/

section
variable {s u v : State} (hfits : HDRW + s.payloadBits ≤ s.cap) (hu : Written s (HDRW + s.payloadBits) u) (hv : Carried u v)
include hfits hu hv

theorem pixels_of_carried : v.pixels = writeFrame s.pixels s.payload := by
  have hpix : v.pixlen = s.pixlen := hv.pixlen.trans hu.kept.pixlen
  rw [State.pixels, hpix]
  refine bytes_eq_of ?_ fun a ha => ?_
  · rw [writeFrame_length]; exact bytes_length _ _ _ _
  · rw [hv.pixels a (by rwa [hu.kept.pixlen]), hu.pixo, framedByte_all hfits, if_pos ha]

/-- The decoder finds the encoder's payload (R189). -/
theorem readFrame_of_carried (hp : 1 ≤ s.payload.length) : readFrame v.pixels = .ok s.payload := by
  have hlen : s.pixels.length = s.pixlen.toNat := bytes_length _ _ _ _
  rw [pixels_of_carried hfits hu hv]
  exact readFrame_writeFrame (by rw [hlen]; exact s.pixlen.isLt) (by rw [capacity_pixels]; exact hfits) hp

end

/-- `ENCODE` of a payload that fits ends with success. -/
theorem Written.succeeded {s u : State} (h : Written s (HDRW + s.payloadBits) u) :
    u.st = .idle ∧ u.done = true ∧ u.err = .none := by
  obtain ⟨hdone, herr, -⟩ := h.ended rfl
  exact ⟨h.st.trans (by rw [State.writingState, if_neg (by omega), if_neg (by omega)]), hdone, herr⟩

/-! ### What `DECODE` gives for a frame that reads -/

section
variable {v : State} (hready : Ready v) (hc : configCheck false v = none) {x : List Byte} (hx : readFrame v.pixels = .ok x)
include hready hc hx

theorem decodes_message {m : List Byte} (hw : unwrap x v.password = .ok m) :
    ∃ w, Decodes v w ∧ w.err = .none ∧ w.outlen.toNat = m.length ∧ w.prot = startsWith x MARK ∧
      ∀ i < m.length, w.byteAt .out i = m.getD i 0 := by
  obtain ⟨w, ⟨hrun, -⟩, hsame⟩ := decode_ends hready hc
  rw [decodeOp_ok hx hw] at hsame
  have hlen : m.length < 2 ^ 32 := by
    have h1 := unwrap_length_le hw
    have h2 := readFrame_length hx
    have h3 := cap_lt v
    rw [capacity_pixels] at h2
    omega
  refine ⟨w, ⟨_, _, exec_decode_accepted hready.idle hc, hrun, hsame.st, hsame.done⟩, hsame.err, ?_, hsame.prot,
    fun i hi => ?_⟩
  · rw [hsame.outlen]; exact toNat_ofNat_of_lt hlen
  · rw [hsame.bytes .out i (by decide)]
    exact (writeList_byteAt v .out .out i m).trans (if_pos ⟨rfl, hi⟩)

theorem decodes_error {e : ErrKind} {sub : BitVec 3} (hw : unwrap x v.password = .error (e, sub)) :
    ∃ w, Decodes v w ∧ w.err = e ∧ w.sub = sub ∧ w.outlen = 0 ∧ w.prot = startsWith x MARK ∧
      ∀ a, w.byteAt .out a = v.byteAt .out a := by
  obtain ⟨w, ⟨hrun, -⟩, hsame⟩ := decode_ends hready hc
  rw [decodeOp_unwrapError hx hw] at hsame
  exact ⟨w, ⟨_, _, exec_decode_accepted hready.idle hc, hrun, hsame.st, hsame.done⟩, hsame.err, hsame.sub, hsame.outlen,
    hsame.prot, fun a => hsame.bytes .out a (by decide)⟩

end

/-- Byte `i` of the message. -/
theorem message_getD {s : State} {i : Nat} (hi : i < s.msglen.toNat) : s.message.getD i 0 = s.byteAt .msg i := by
  rw [State.message, bytes_getD _ _ _ _ _ hi, Nat.zero_add]

/-- Settles O55: the payload is the message, and it comes back whatever the password operand. -/
theorem plainRoundTripOnTheMachine : Obligations.PlainRoundTripOnTheMachine := by
  intro s hready hc hprot hpos hmark hfit
  have hpayload := payload_plain hprot
  have hfits : HDRW + s.payloadBits ≤ s.cap := by rw [payloadBits_eq, hpayload, message_length]; exact hfit
  obtain ⟨u, hrun, hu⟩ := run_encode_written hready hc hfits le_rfl
  obtain ⟨hidle, hdone, herr⟩ := hu.succeeded
  refine ⟨_, _, u, exec_encode_accepted hready.idle hc, hrun, hidle, hdone, herr, hu.prot.trans hprot, fun v hv => ?_⟩
  have hx := readFrame_of_carried hfits hu hv (by rw [hpayload, message_length]; exact hpos)
  rw [hpayload] at hx
  obtain ⟨w, hw, hwerr, hlen, hwprot, hbytes⟩ := decodes_message hv.ready hv.config hx (unwrap_plain hmark)
  rw [message_length] at hlen hbytes
  exact ⟨w, hw, hwerr, BitVec.eq_of_toNat_eq hlen, hwprot.trans hmark, fun i hi => (hbytes i hi).trans (message_getD hi)⟩

/-- Settles O56: the decoder unwraps the Encoder's payload, by the password operand it is given. -/
theorem protectedRoundTripOnTheMachine : Obligations.ProtectedRoundTripOnTheMachine := by
  intro s hready hc hprot hpwd hmsg hfit
  obtain ⟨hpassword, hne⟩ := password_protected hprot
  have hpayload := payload_protected hprot
  have hlen : s.payload.length = s.msglen.toNat + s.pwdlen.toNat + 17 := by rw [payload_length, hprot]; rfl
  have hfits : HDRW + s.payloadBits ≤ s.cap := by rw [payloadBits_eq, hlen]; exact hfit
  obtain ⟨u, hrun, hu⟩ := run_encode_written hready hc hfits le_rfl
  obtain ⟨hidle, hdone, herr⟩ := hu.succeeded
  refine ⟨_, _, u, exec_encode_accepted hready.idle hc, hrun, hidle, hdone, herr, hu.prot.trans hprot, fun v hv => ?_⟩
  have hx := readFrame_of_carried hfits hu hv (by omega)
  obtain ⟨hunwrap, -⟩ := protectedPayloadUnwraps _ s.message hne
  obtain ⟨hright, hmissing, hother⟩ := hunwrap hpwd hmsg
  rw [buildPayload_some hne, ← hpayload] at hright hmissing hother
  have hmark : startsWith s.payload MARK = true := by rw [hpayload]; exact startsWith_wrapped _ _
  rw [hpassword]
  generalize hq : v.password = q
  rcases q with _ | q
  · obtain ⟨w, hw, hwerr, hwsub, hout, hwprot, hbytes⟩ := decodes_error hv.ready hv.config hx (by rw [hq]; exact hmissing)
    exact ⟨w, hw, hwprot.trans hmark, nofun, fun _ => ⟨hwerr, hwsub, hout, hbytes⟩, fun h => absurd rfl h⟩
  · by_cases heq : q = s.bytes .pwd 0 s.pwdlen.toNat
    · obtain ⟨w, hw, hwerr, hout, hwprot, hbytes⟩ := decodes_message hv.ready hv.config hx (by rw [hq, heq]; exact hright)
      rw [message_length] at hout hbytes
      exact ⟨w, hw, hwprot.trans hmark,
        fun _ => ⟨hwerr, BitVec.eq_of_toNat_eq hout, fun i hi => (hbytes i hi).trans (message_getD hi)⟩, nofun,
        fun _ h => absurd (congrArg some heq) h⟩
    · obtain ⟨w, hw, hwerr, hwsub, hout, hwprot, hbytes⟩ :=
        decodes_error hv.ready hv.config hx (by rw [hq]; exact hother q heq)
      exact ⟨w, hw, hwprot.trans hmark, fun h => absurd (Option.some.inj h) heq, nofun,
        fun _ _ => ⟨hwerr, hwsub, hout, hbytes⟩⟩

end Sys2Proof.Machine
end

section
/-! The host scripts (30_encoding R106, R107): line by line, then the two public operations and their composition. -/

namespace Sys2Proof.Machine

open Sys2Proof Sys2Proof.Claims

/-! ### Runs of any length -/

/-- Some number of steps leads from `s` to `t`. -/
def Reaches (s t : State) : Prop := ∃ k, run k s = .next t

theorem Reaches.of_run {k : Nat} {s t : State} (h : run k s = .next t) : Reaches s t := ⟨k, h⟩

theorem Reaches.of_step {s t : State} (h : step s = .next t) : Reaches s t :=
  ⟨1, by rw [run_succ, h, andThen_next, run_zero]⟩

theorem Reaches.trans {s t u : State} (h : Reaches s t) (k : Reaches t u) : Reaches s u := by
  obtain ⟨i, hi⟩ := h
  obtain ⟨j, hj⟩ := k
  exact ⟨i + j, run_trans hi hj⟩

theorem Reaches.inv {s t : State} (h : Reaches s t) (hinv : s.Inv) : t.Inv := by
  obtain ⟨k, hk⟩ := h
  exact run_inv hinv hk

/-- The engine waits with these moves pending, these values read, and these parameters. -/
structure AtRest (moves : List HostMove) (reads : List Word) (p : Params) (s : State) : Prop where
  idle : s.st = .idle
  inv : s.Inv
  host : s.host = moves
  reads : s.reads = reads
  params : s.params = p

/-! ### `WR` and `LOAD` -/

/-- `LOAD` of an operand and the `WR` of its length. -/
def resident (m : HostWritable) (r : Nat) (xs : List Byte) (moves : List HostMove) (s : State) : State :=
  { (s.setMem m.name ((s.mem m.name).writeList 0 xs)).writeReg r (BitVec.ofNat 32 xs.length) with host := moves }

theorem writeReg_host (s : State) (r : Nat) (v : Word) (moves : List HostMove) :
    ({ s with host := moves } : State).writeReg r v = { s.writeReg r v with host := moves } := by
  unfold State.writeReg
  split <;> rfl

section
variable {s : State} {moves : List HostMove} {reads : List Word} {p : Params}

theorem AtRest.wr {r : Nat} {v : Word} (h : AtRest (.wr r v :: moves) reads p s) (hr : r ≠ 0) :
    Reaches s { s.writeReg r v with host := moves } ∧ AtRest moves reads p { s.writeReg r v with host := moves } := by
  have hstep := step_of_wr_reg h.idle h.inv.uopsDone h.host hr
  rw [writeReg_host] at hstep
  have hreach := Reaches.of_step hstep
  obtain ⟨hst, hframe⟩ : (s.writeReg r v).st = s.st ∧ (s.writeReg r v).reads = s.reads ∧
      (s.writeReg r v).params = s.params := by
    unfold State.writeReg
    split <;> exact ⟨rfl, rfl, rfl⟩
  exact ⟨hreach, hst.trans h.idle, hreach.inv h.inv, rfl, hframe.1.trans h.reads, hframe.2.trans h.params⟩

theorem AtRest.load {m : HostWritable} {xs : List Byte} (h : AtRest (scriptLoad m 0 xs ++ moves) reads p s)
    (hfit : xs.length ≤ s.depth m.name) :
    let t : State := { s.setMem m.name ((s.mem m.name).writeList 0 xs) with host := moves }
    Reaches s t ∧ AtRest moves reads p t := by
  have hreach := Reaches.of_run (run_scriptLoad h.idle h.inv.uopsDone h.host (by rw [Nat.zero_add]; exact hfit))
  exact ⟨hreach, (setMem_st s _ _).trans h.idle, hreach.inv h.inv, rfl, (setMem_reads s _ _).trans h.reads,
    (setMem_params s _ _).trans h.params⟩

theorem AtRest.resident {m : HostWritable} {r : Nat} {xs : List Byte}
    (h : AtRest (scriptLoad m 0 xs ++ (scriptWr r (BitVec.ofNat 32 xs.length) ++ moves)) reads p s)
    (hr : r ≠ 0) (hfit : xs.length ≤ s.depth m.name) :
    Reaches s (resident m r xs moves s) ∧ AtRest moves reads p (resident m r xs moves s) := by
  obtain ⟨hload, hmid⟩ := h.load hfit
  obtain ⟨hwr, hend⟩ := AtRest.wr hmid hr
  rw [writeReg_host] at hwr hend
  exact ⟨hload.trans hwr, hend⟩

end

theorem bytes_setMem_writeList (s : State) (k : MemName) (xs : List Byte) :
    (s.setMem k ((s.mem k).writeList 0 xs)).bytes k 0 xs.length = xs :=
  bytes_eq_of rfl fun a ha => (writeList_byteAt s k k a xs).trans (if_pos ⟨rfl, ha⟩)

theorem bytes_resident (s : State) (m : HostWritable) (r : Nat) {xs : List Byte} (moves : List HostMove)
    (hlen : (BitVec.ofNat 32 xs.length).toNat = xs.length) :
    (resident m r xs moves s).bytes m.name 0 (BitVec.ofNat 32 xs.length).toNat = xs := by
  rw [hlen]
  refine Eq.trans ?_ (bytes_setMem_writeList s m.name xs)
  unfold resident State.writeReg
  split <;> rfl

/-- A length within a host memory's depth fits its register. -/
theorem AtRest.lengths_lt {s : State} {moves : List HostMove} {reads : List Word} {p : Params}
    (h : AtRest moves reads p s) : p.pixMax < 2 ^ 32 ∧ p.msgMax < 2 ^ 32 ∧ p.pwdMax < 2 ^ 32 := by
  have hwf := h.inv.paramsOk
  rw [h.params] at hwf
  simp only [Params.wellFormed, Bool.and_eq_true, decide_eq_true_eq] at hwf
  omega

section
variable {s : State} {moves : List HostMove} {reads : List Word} {p : Params}

/-- `LOAD PIXI` and `WR PIXLEN`: the pixels are resident, the other operands are kept. -/
theorem AtRest.pixels {xs : List Byte} (h : AtRest (scriptPixels xs ++ moves) reads p s) (hfit : xs.length ≤ p.pixMax) :
    ∃ t, Reaches s t ∧ AtRest moves reads p t ∧ t.pixels = xs ∧ t.pixlen.toNat = xs.length ∧ t.message = s.message ∧
      t.msglen = s.msglen ∧ t.password = s.password ∧ t.present = s.present ∧ t.pwdlen = s.pwdlen := by
  obtain ⟨hmax, -, -⟩ := h.lengths_lt
  rw [scriptPixels, List.append_assoc] at h
  obtain ⟨hreach, hrest⟩ := h.resident (by decide) (show _ ≤ s.params.pixMax by rw [h.params]; exact hfit)
  have hlen : (BitVec.ofNat 32 xs.length).toNat = xs.length := toNat_ofNat_of_lt (hfit.trans_lt hmax)
  exact ⟨_, hreach, hrest, bytes_resident s .pixi 2 moves hlen, hlen, rfl, rfl, rfl, rfl, rfl⟩

/-- `LOAD MSG` and `WR MSGLEN`. -/
theorem AtRest.message {xs : List Byte}
    (h : AtRest (scriptLoad .msg 0 xs ++ (scriptWr 3 (BitVec.ofNat 32 xs.length) ++ moves)) reads p s)
    (hfit : xs.length ≤ p.msgMax) :
    ∃ t, Reaches s t ∧ AtRest moves reads p t ∧ t.message = xs ∧ t.msglen.toNat = xs.length ∧ t.pixels = s.pixels ∧
      t.pixlen = s.pixlen := by
  obtain ⟨hreach, hrest⟩ := h.resident (by decide) (show _ ≤ s.params.msgMax by rw [h.params]; exact hfit)
  obtain ⟨-, hmax, -⟩ := h.lengths_lt
  have hlen : (BitVec.ofNat 32 xs.length).toNat = xs.length := toNat_ofNat_of_lt (hfit.trans_lt hmax)
  exact ⟨_, hreach, hrest, bytes_resident s .msg 3 moves hlen, hlen, rfl, rfl⟩

/-- The lines that make the password resident. -/
theorem AtRest.password {q : Option (List Byte)} (h : AtRest (scriptPassword q ++ moves) reads p s)
    (hfit : ∀ xs, q = some xs → xs.length ≤ p.pwdMax) :
    ∃ t, Reaches s t ∧ AtRest moves reads p t ∧ t.password = q ∧ (t.present = true → t.pwdlen.toNat ≤ p.pwdMax) ∧
      t.pixels = s.pixels ∧ t.pixlen = s.pixlen ∧ t.message = s.message ∧ t.msglen = s.msglen := by
  cases q with
  | none =>
    obtain ⟨hreach, hrest⟩ := AtRest.wr h (by decide)
    exact ⟨_, hreach, hrest, rfl, nofun, rfl, rfl, rfl, rfl⟩
  | some xs =>
    have hle := hfit xs rfl
    rw [scriptPassword, List.append_assoc, List.append_assoc] at h
    obtain ⟨hreach, hrest⟩ := h.resident (by decide) (show _ ≤ s.params.pwdMax by rw [h.params]; exact hle)
    obtain ⟨hreach', hrest'⟩ := AtRest.wr hrest (by decide)
    obtain ⟨-, -, hmax⟩ := h.lengths_lt
    have hlen : (BitVec.ofNat 32 xs.length).toNat = xs.length := toNat_ofNat_of_lt (hle.trans_lt hmax)
    exact ⟨_, hreach.trans hreach', hrest', congrArg some (bytes_resident s .pwd 4 moves hlen),
      fun _ => hlen.trans_le hle, rfl, rfl, rfl, rfl⟩

end

/-! ### `CMD`, `WAIT`, `RD STATUS` and the decision -/

theorem step_of_wait {s : State} {moves : List HostMove} (hu : s.uops = []) (hh : s.host = .wait :: moves)
    (hd : s.done = false) : step s = engineStep s :=
  (step_of_move hu hh).trans (if_neg (by rw [hd]; exact Bool.false_ne_true))

theorem step_of_wait_done {s : State} {moves : List HostMove} (hu : s.uops = []) (hh : s.host = .wait :: moves)
    (hd : s.done = true) : step s = .next { s with host := moves } :=
  (step_of_move hu hh).trans (if_pos hd)

/-- While the command runs the move `wait` stays, and the engine steps as it would alone. -/
theorem run_wait {k : Nat} {t u : State} (hinv : t.Inv) (hh : t.host = []) (h : EndsAfter k t u)
    (moves : List HostMove) :
    run k { t with host := .wait :: moves } = .next { u with host := .wait :: moves } := by
  obtain ⟨hrun, hbusy⟩ := h
  induction k generalizing u with
  | zero => cases hrun; rfl
  | succ k ih =>
    obtain ⟨v, hv, hst⟩ := hbusy k (Nat.lt_succ_self k)
    have hvinv := run_inv hinv hv
    have hvhost := (run_kept hinv hh hv).host.trans hh
    have hdone : v.done = false := hvinv.notBoth (busy_of_ne hst)
    rw [run_snoc hv, step_of_quiet hvinv.uopsDone hvhost] at hrun
    rw [run_snoc (ih hv fun j hj => hbusy j (by omega)),
      step_of_wait (s := { v with host := .wait :: moves }) hvinv.uopsDone rfl hdone, engineStep_putHost, hrun]
    rfl

/-- The host's test of `ERR` in the word it read (R31, R107). -/
theorem statusErr_eq_zero_iff (s : State) : statusErr s.status = 0 ↔ s.err = .none := by
  obtain ⟨-, -, herr, -⟩ := statusFields s
  rw [BitVec.toNat_eq, statusErr, herr]
  cases s.err <;> decide

/-- What the host has after `CMD`, `WAIT`, `RD STATUS` and the decision, if the command ends in `u`. -/
def afterCommand (result : List HostMove) (u : State) : State :=
  { u with host := if u.err = .none then result else [], reads := u.status :: u.reads }

/-- The lines that run a command which is accepted. -/
theorem AtRest.command {s a u : State} {w : Word} {result : List HostMove} {reads : List Word} {p : Params} {k : Nat}
    (h : AtRest (scriptRun w result) reads p s)
    (haccept : ∀ moves, writeCmd w { s with host := moves } = .next { a with host := moves }) (hinv : a.Inv)
    (hh : a.host = []) (hend : EndsAfter k a u) (hidle : u.st = .idle) (hdone : u.done = true)
    (hkept : Kept { s with host := [] } u) :
    Reaches s (afterCommand result u) ∧
      AtRest (if u.err = .none then result else []) (u.status :: reads) p (afterCommand result u) := by
  have huops : u.uops = [] := hkept.uops.trans h.inv.uopsDone
  have hcmd := (step_of_wr_cmd h.inv.uopsDone h.host).trans (haccept _)
  have hwait := run_wait hinv hh hend (.rd 1 :: .ifOk result.length :: result)
  have hpolled := step_of_wait_done (s := { u with host := .wait :: .rd 1 :: .ifOk result.length :: result })
    huops rfl hdone
  have hread := step_of_rd (s := { u with host := .rd 1 :: .ifOk result.length :: result }) huops rfl
  have hdecide := step_of_ifOk
    (s := observe u.status { u with host := .ifOk result.length :: result }) huops rfl rfl
  rw [List.drop_length] at hdecide
  have hreach : Reaches s (afterCommand result u) := by
    refine (Reaches.of_step hcmd).trans ((Reaches.of_run hwait).trans ((Reaches.of_step hpolled).trans
      ((Reaches.of_step hread).trans (Reaches.of_step (hdecide.trans ?_)))))
    simp only [statusErr_eq_zero_iff]
    rfl
  exact ⟨hreach, hidle, hreach.inv h.inv, rfl, congrArg (u.status :: ·) (hkept.reads.trans h.reads),
    hkept.params.trans h.params⟩

/-- A state at rest, without its moves, is ready for a command. -/
theorem AtRest.ready {s : State} {moves : List HostMove} {reads : List Word} {p : Params} (h : AtRest moves reads p s) :
    Ready { s with host := [] } := ⟨h.idle, rfl, h.inv.withHost []⟩

/-! ### The two commands -/

theorem sourceEncode_error {pixels m : List Byte} {q : Option (List Byte)} {e : ErrKind} {sub : BitVec 3}
    (h : sourceEncode pixels m q = .error (e, sub)) : e ≠ .none := by
  unfold sourceEncode at h
  dsimp only at h
  split at h <;> cases h
  nofun

theorem sourceEncode_length {pixels m r : List Byte} {q : Option (List Byte)} (h : sourceEncode pixels m q = .ok r) :
    r.length = pixels.length := by
  unfold sourceEncode at h
  dsimp only at h
  split at h <;> cases h
  exact writeFrame_length _ _

section
variable {s : State} {result : List HostMove} {reads : List Word} {p : Params}

/-- `ENCODE` as the host runs it. -/
theorem AtRest.encode (h : AtRest (scriptRun 1 result) reads p s) (hc : configCheck true s = none) :
    (∀ e sub, sourceEncode s.pixels s.message s.password = .error (e, sub) →
      ∃ t, Reaches s t ∧ AtRest [] (t.status :: reads) p t ∧ t.err = e ∧ t.sub = sub) ∧
    (∀ r, sourceEncode s.pixels s.message s.password = .ok r →
      ∃ t, Reaches s t ∧ AtRest result (t.status :: reads) p t ∧ t.err = .none ∧
        ∀ i < r.length, t.byteAt .pixo i = r.getD i 0) := by
  obtain ⟨u, hend, hsame, -⟩ := encode_ends (s := { s with host := [] }) h.ready hc
  have hinv := acceptEncode_inv h.ready.inv (s := { s with host := [] }) hc
  have hkept : Kept { s with host := [] } u := Kept.trans (by constructor <;> rfl) (run_kept hinv rfl hend.1)
  have haccept (moves : List HostMove) : writeCmd 1 { s with host := moves } =
      .next { acceptEncode { s with host := [] } with host := moves } :=
    (writeCmd_of_decode (decode_encode .encode) _).trans
      (exec_encode_accepted (s := { s with host := moves }) h.idle hc)
  refine ⟨fun e sub he => ?_, fun r hr => ?_⟩
  · rw [encodeOp_error (s := { s with host := [] }) he] at hsame
    obtain ⟨hreach, hrest⟩ := h.command haccept hinv rfl hend hsame.st hsame.done hkept
    rw [if_neg (by rw [hsame.err]; exact sourceEncode_error he)] at hrest
    exact ⟨_, hreach, hrest, hsame.err, hsame.sub⟩
  · rw [encodeOp_ok (s := { s with host := [] }) hr] at hsame
    obtain ⟨hreach, hrest⟩ := h.command haccept hinv rfl hend hsame.st hsame.done hkept
    have herr : u.err = .none := hsame.err
    rw [if_pos herr] at hrest
    refine ⟨_, hreach, hrest, herr, fun i hi => ?_⟩
    exact (hsame.bytes .pixo i (by decide)).trans ((writeList_byteAt s .pixo .pixo i r).trans (if_pos ⟨rfl, hi⟩))

end

/-- The operation of R260 fails with the frame or with the payload. -/
theorem sourceDecode_error {b : List Byte} {q : Option (List Byte)} {e : Ending} (h : sourceDecode b q = .error e) :
    readFrame b = .error e ∨ ∃ x, readFrame b = .ok x ∧ unwrap x q = .error e := by
  unfold sourceDecode at h
  split at h
  · next e' he => cases h; exact .inl he
  · next x hx => exact .inr ⟨x, hx, h⟩

theorem sourceDecode_ok {b m : List Byte} {q : Option (List Byte)} (h : sourceDecode b q = .ok m) :
    ∃ x, readFrame b = .ok x ∧ unwrap x q = .ok m := by
  unfold sourceDecode at h
  split at h
  · cases h
  · next x hx => exact ⟨x, hx, h⟩

theorem readFrame_error_kind {b : List Byte} {e : ErrKind} {sub : BitVec 3} (h : readFrame b = .error (e, sub)) :
    e = .formatError := by
  unfold readFrame at h
  split at h
  · cases h; rfl
  split at h
  · cases h; rfl
  split at h
  · cases h; rfl
  split at h <;> cases h
  rfl

theorem unwrap_error_kind {x : List Byte} {q : Option (List Byte)} {e : ErrKind} {sub : BitVec 3}
    (h : unwrap x q = .error (e, sub)) : e = .formatError ∨ e = .authError := by
  unfold unwrap at h
  split at h
  · split at h
    · split at h
      · cases h; exact .inr rfl
      · split at h <;> cases h
        exact .inr rfl
    · cases h; exact .inl rfl
  · cases h

theorem sourceDecode_error_ne_none {b : List Byte} {q : Option (List Byte)} {e : ErrKind} {sub : BitVec 3}
    (h : sourceDecode b q = .error (e, sub)) : e ≠ .none := by
  rcases sourceDecode_error h with h | ⟨x, -, h⟩
  · rw [readFrame_error_kind h]; nofun
  · rcases unwrap_error_kind h with rfl | rfl <;> nofun

/-- A `DECODE` that fails shows the source's error. -/
theorem decodeOp_of_error {s : State} {e : ErrKind} {sub : BitVec 3}
    (h : sourceDecode s.pixels s.password = .error (e, sub)) :
    (decodeOp s).st = .idle ∧ (decodeOp s).done = true ∧ (decodeOp s).err = e ∧ (decodeOp s).sub = sub := by
  rcases sourceDecode_error h with h | ⟨x, hx, h⟩
  · rw [decodeOp_frameError h]; exact ⟨rfl, rfl, rfl, rfl⟩
  · rw [decodeOp_unwrapError hx h]; exact ⟨rfl, rfl, rfl, rfl⟩

/-- One that succeeds shows the source's message. -/
theorem decodeOp_of_ok {s : State} {m : List Byte} (h : sourceDecode s.pixels s.password = .ok m) :
    (decodeOp s).st = .idle ∧ (decodeOp s).done = true ∧ (decodeOp s).err = .none ∧
      (decodeOp s).outlen = BitVec.ofNat 32 m.length ∧ ∀ i < m.length, (decodeOp s).byteAt .out i = m.getD i 0 := by
  obtain ⟨x, hx, hw⟩ := sourceDecode_ok h
  rw [decodeOp_ok hx hw]
  exact ⟨rfl, rfl, rfl, rfl, fun i hi => (writeList_byteAt s .out .out i m).trans (if_pos ⟨rfl, hi⟩)⟩

/-- The message is no longer than the frame's payload. -/
theorem sourceDecode_length {s : State} {m : List Byte} (h : sourceDecode s.pixels s.password = .ok m) :
    HDRW + 8 * m.length ≤ s.cap := by
  obtain ⟨x, hx, hw⟩ := sourceDecode_ok h
  have hm := unwrap_length_le hw
  have hfit := readFrame_length hx
  rw [capacity_pixels] at hfit
  unfold HDRW
  omega

section
variable {s : State} {result : List HostMove} {reads : List Word} {p : Params}

/-- `DECODE` as the host runs it. -/
theorem AtRest.decode (h : AtRest (scriptRun 2 result) reads p s) (hc : configCheck false s = none) :
    (∀ e sub, sourceDecode s.pixels s.password = .error (e, sub) →
      ∃ t, Reaches s t ∧ AtRest [] (t.status :: reads) p t ∧ t.err = e ∧ t.sub = sub) ∧
    (∀ m, sourceDecode s.pixels s.password = .ok m →
      ∃ t, Reaches s t ∧ AtRest result (t.status :: reads) p t ∧ t.err = .none ∧ t.outlen = BitVec.ofNat 32 m.length ∧
        ∀ i < m.length, t.byteAt .out i = m.getD i 0) := by
  obtain ⟨u, hend, hsame⟩ := decode_ends (s := { s with host := [] }) h.ready hc
  have hinv := acceptDecode_inv h.ready.inv (s := { s with host := [] }) hc
  have hkept : Kept { s with host := [] } u := (acceptDecode_kept _).trans (run_kept hinv rfl hend.1)
  have haccept (moves : List HostMove) : writeCmd 2 { s with host := moves } =
      .next { acceptDecode { s with host := [] } with host := moves } :=
    (writeCmd_of_decode (decode_encode .decode) _).trans
      (exec_decode_accepted (s := { s with host := moves }) h.idle hc)
  refine ⟨fun e sub he => ?_, fun m hm => ?_⟩
  · obtain ⟨hst, hdone, herr, hsub⟩ := decodeOp_of_error (s := { s with host := [] }) he
    obtain ⟨hreach, hrest⟩ := h.command haccept hinv rfl hend (hsame.st.trans hst) (hsame.done.trans hdone) hkept
    rw [if_neg (by rw [hsame.err, herr]; exact sourceDecode_error_ne_none he)] at hrest
    exact ⟨_, hreach, hrest, hsame.err.trans herr, hsame.sub.trans hsub⟩
  · obtain ⟨hst, hdone, herr, hout, hbytes⟩ := decodeOp_of_ok (s := { s with host := [] }) hm
    obtain ⟨hreach, hrest⟩ := h.command haccept hinv rfl hend (hsame.st.trans hst) (hsame.done.trans hdone) hkept
    rw [if_pos (hsame.err.trans herr)] at hrest
    exact ⟨_, hreach, hrest, hsame.err.trans herr, hsame.outlen.trans hout,
      fun i hi => (hsame.bytes .out i (by decide)).trans (hbytes i hi)⟩

end

/-! ### `DUMP` -/

theorem readBack_snoc (xs : List Byte) (x : Byte) : readBack (xs ++ [x]) = x.setWidth 32 :: readBack xs := by
  simp [readBack]

theorem scriptDump_succ (m : HostReadable) (a len : Nat) :
    scriptDump m a (len + 1) = scriptDump m a len ++ [.peek m (a + len)] := by
  simp [scriptDump, List.range_succ]

/-- The bytes the host sees at consecutive addresses. -/
def State.hostBytes (s : State) (m : HostReadable) (a len : Nat) : List Byte :=
  (List.range len).map fun i => s.hostByte m (a + i)

theorem hostBytes_succ (s : State) (m : HostReadable) (a len : Nat) :
    s.hostBytes m a (len + 1) = s.hostBytes m a len ++ [s.hostByte m (a + len)] := by
  simp [State.hostBytes, List.range_succ]

/-- The moves of a `DUMP` line read its bytes, whatever moves follow. -/
theorem run_scriptDump {m : HostReadable} {a len : Nat} {s : State} {moves : List HostMove} (hst : s.st = .idle)
    (hu : s.uops = []) (hh : s.host = scriptDump m a len ++ moves) (hfit : a + len ≤ s.depth m.name) :
    run len s = .next { s with host := moves, reads := readBack (s.hostBytes m a len) ++ s.reads } := by
  induction len generalizing moves with
  | zero =>
    rw [← show s.host = moves from hh]
    rfl
  | succ len ih =>
    rw [scriptDump_succ, List.append_assoc] at hh
    have hstep := step_of_peek
      (s := { s with host := .peek m (a + len) :: moves, reads := readBack (s.hostBytes m a len) ++ s.reads })
      hst hu rfl (show a + len < _ by rw [show State.depth _ m.name = s.depth m.name by cases m <;> rfl]; omega)
    rw [run_snoc (ih hh (by omega))]
    refine hstep.trans ?_
    rw [hostBytes_succ, readBack_snoc]
    cases m <;> rfl

theorem AtRest.dump {s : State} {m : HostReadable} {xs : List Byte} {moves : List HostMove} {reads : List Word}
    {p : Params} (h : AtRest (scriptDump m 0 xs.length ++ moves) reads p s) (hfit : xs.length ≤ s.depth m.name)
    (hbytes : ∀ i < xs.length, s.hostByte m i = xs.getD i 0) :
    let t : State := { s with host := moves, reads := readBack xs ++ reads }
    Reaches s t ∧ AtRest moves (readBack xs ++ reads) p t := by
  have hseen : s.hostBytes m 0 xs.length = xs := by
    refine List.ext_getElem (by simp [State.hostBytes]) fun i h1 h2 => ?_
    rw [← List.getD_eq_getElem _ 0 h2, ← hbytes i h2]
    simp [State.hostBytes]
  have hrun := run_scriptDump h.idle h.inv.uopsDone h.host (by rw [Nat.zero_add]; exact hfit)
  rw [hseen, h.reads] at hrun
  have hreach := Reaches.of_run hrun
  exact ⟨hreach, h.idle, hreach.inv h.inv, rfl, rfl, h.params⟩

/-! ### The scripts -/

section
variable {s : State} {pixels : List Byte} {q : Option (List Byte)} {reads : List Word} {p : Params}

/-- `encode(pixels, message, password?)` up to the decision. -/
theorem AtRest.encodeScript {m : List Byte} {result : List HostMove}
    (h : AtRest (scriptEncodeThen pixels m q result) reads p s) (hpix : pixels.length ≤ p.pixMax)
    (hmsg : m.length ≤ p.msgMax) (hpwd : ∀ xs, q = some xs → xs.length ≤ p.pwdMax) :
    (∀ e sub, sourceEncode pixels m q = .error (e, sub) →
      ∃ t, Reaches s t ∧ AtRest [] (t.status :: reads) p t ∧ t.err = e ∧ t.sub = sub) ∧
    (∀ r, sourceEncode pixels m q = .ok r →
      ∃ t, Reaches s t ∧ AtRest result (t.status :: reads) p t ∧ t.err = .none ∧
        ∀ i < r.length, t.byteAt .pixo i = r.getD i 0) := by
  unfold scriptEncodeThen at h
  simp only [List.append_assoc] at h
  obtain ⟨t1, hreach1, hrest1, hpix1, hlen1, -⟩ := h.pixels hpix
  obtain ⟨t2, hreach2, hrest2, hmsg2, hlen2, hpix2, hpixlen2⟩ := hrest1.message hmsg
  obtain ⟨t3, hreach3, hrest3, hpwd3, hpwdlen3, hpix3, hpixlen3, hmsg3, hmsglen3⟩ := hrest2.password hpwd
  have hreach := hreach1.trans (hreach2.trans hreach3)
  have hc : configCheck true t3 = none := by
    rw [configCheck_eq_none, hrest3.params, hpixlen3, hpixlen2, hlen1, hmsglen3, hlen2]
    exact ⟨hpix, fun _ => hmsg, hpwdlen3⟩
  obtain ⟨herror, hok⟩ := hrest3.encode hc
  rw [hpix3, hpix2, hpix1, hmsg3, hmsg2, hpwd3] at herror hok
  refine ⟨fun e sub he => ?_, fun r hr => ?_⟩
  · obtain ⟨t, ht, hends⟩ := herror e sub he
    exact ⟨t, hreach.trans ht, hends⟩
  · obtain ⟨t, ht, hends⟩ := hok r hr
    exact ⟨t, hreach.trans ht, hends⟩

/-- `decode(pixels, password?)` to its end. -/
theorem AtRest.decodeScript (h : AtRest (scriptDecode pixels q) reads p s) (hpix : pixels.length ≤ p.pixMax)
    (hpwd : ∀ xs, q = some xs → xs.length ≤ p.pwdMax) :
    (∀ e sub, sourceDecode pixels q = .error (e, sub) →
      ∃ t, Reaches s t ∧ AtRest [] (t.status :: reads) p t ∧ t.err = e ∧ t.sub = sub) ∧
    (∀ m, sourceDecode pixels q = .ok m →
      ∃ t, Reaches s t ∧ AtRest [] (readBack m ++ BitVec.ofNat 32 m.length :: t.status :: reads) p t ∧
        t.err = .none) := by
  rw [scriptDecode, scriptDecodeResident] at h
  obtain ⟨t1, hreach1, hrest1, hpix1, hlen1, -⟩ := h.pixels hpix
  obtain ⟨t2, hreach2, hrest2, hpwd2, hpwdlen2, hpix2, hpixlen2, -⟩ := hrest1.password hpwd
  have hreach := hreach1.trans hreach2
  have hc : configCheck false t2 = none := by
    rw [configCheck_eq_none, hrest2.params, hpixlen2, hlen1]
    exact ⟨hpix, nofun, hpwdlen2⟩
  obtain ⟨herror, hok⟩ := hrest2.decode hc
  have hsrc : sourceDecode t2.pixels t2.password = sourceDecode pixels q := by rw [hpix2, hpix1, hpwd2]
  rw [hsrc] at herror hok
  refine ⟨fun e sub he => ?_, fun m hm => ?_⟩
  · obtain ⟨t, ht, hends⟩ := herror e sub he
    exact ⟨t, hreach.trans ht, hends⟩
  · obtain ⟨t, ht, hrest, herr, hout, hbytes⟩ := hok m hm
    have hfit := sourceDecode_length (hsrc.trans hm)
    have hcap := cap_lt t2
    have hlen : t.outlen.toNat = m.length := by rw [hout]; exact toNat_ofNat_of_lt (by omega)
    have hext : m.length ≤ p.extMax := by
      have hwf := hrest.inv.paramsOk
      rw [hrest.params] at hwf
      exact Params.le_extMax hwf hpix (by rw [← hlen1, ← hpixlen2]; exact hfit)
    -- `RD OUTLEN`, then as many byte reads
    have hread := step_of_rd hrest.inv.uopsDone hrest.host
    have hmany := step_of_dumpRead (s := observe t.outlen { t with host := [.dumpRead .out] })
      hrest.inv.uopsDone rfl rfl
    have hreach' := (Reaches.of_step hread).trans (Reaches.of_step hmany)
    have hrest' : AtRest (scriptDump .out 0 m.length ++ []) (t.outlen :: t.status :: reads) p
        { observe t.outlen { t with host := [.dumpRead .out] } with host := scriptDump .out 0 t.outlen.toNat ++ [] } :=
      ⟨hrest.idle, hreach'.inv hrest.inv, congrArg (scriptDump .out 0 · ++ []) hlen,
        congrArg (t.outlen :: ·) hrest.reads, hrest.params⟩
    obtain ⟨hdump, hend⟩ := hrest'.dump (show _ ≤ t.params.extMax by rw [hrest.params]; exact hext) fun i hi =>
      (hostByte_eq fun _ => hi.trans_eq hlen.symm).trans (hbytes i hi)
    exact ⟨_, hreach.trans (ht.trans (hreach'.trans hdump)),
      ⟨hend.idle, hend.inv, hend.host, hend.reads.trans (congrArg (fun v => readBack m ++ v :: t.status :: reads) hout),
        hend.params⟩, herr⟩

end

/-- The start of a script. -/
theorem atRest_start {s : State} {moves : List HostMove} (hinv : s.Inv) (hst : s.st = .idle) (hh : s.host = moves) :
    AtRest moves s.reads s.params s := ⟨hst, hinv, hh, rfl, rfl⟩

theorem hostByte_pixo (s : State) (i : Nat) : s.hostByte .pixo i = s.byteAt .pixo i := hostByte_eq nofun

/-- Settles O59: the lines up to the decision, then the result's reads. -/
theorem scriptsReturnTheSourcesResults : Obligations.ScriptsReturnTheSourcesResults := by
  intro s pixels q hinv hst hpix hpwd
  refine ⟨fun m hmsg hh => ?_, fun hh => ?_⟩
  · obtain ⟨herror, hok⟩ := (atRest_start hinv hst hh).encodeScript hpix hmsg hpwd
    rcases except_cases (sourceEncode pixels m q) with ⟨e, sub, he⟩ | ⟨r, hr⟩
    · obtain ⟨t, ⟨k, hk⟩, hrest, herr, hsub⟩ := herror e sub he
      refine ⟨k, t, hk, hrest.host, hrest.idle, fun r hr => (nomatch he.symm.trans hr), fun e' sub' he' => ?_⟩
      cases he.symm.trans he'
      exact ⟨herr, hsub, hrest.reads⟩
    · obtain ⟨t, hreach, hrest, herr, hbytes⟩ := hok r hr
      have hlen := sourceEncode_length hr
      rw [← hlen, ← List.append_nil (scriptDump .pixo 0 r.length)] at hrest
      obtain ⟨hdump, hend⟩ := hrest.dump (show _ ≤ t.params.pixMax by rw [hrest.params, hlen]; exact hpix)
        fun i hi => (hostByte_pixo t i).trans (hbytes i hi)
      obtain ⟨k, hk⟩ := hreach.trans hdump
      refine ⟨k, _, hk, hend.host, hend.idle, fun r' hr' => ?_, fun e sub he => (nomatch hr.symm.trans he)⟩
      cases hr.symm.trans hr'
      exact ⟨herr, hend.reads⟩
  · obtain ⟨herror, hok⟩ := (atRest_start hinv hst hh).decodeScript hpix hpwd
    rcases except_cases (sourceDecode pixels q) with ⟨e, sub, he⟩ | ⟨x, hx⟩
    · obtain ⟨t, ⟨k, hk⟩, hrest, herr, hsub⟩ := herror e sub he
      refine ⟨k, t, hk, hrest.host, hrest.idle, fun x hx => (nomatch he.symm.trans hx), fun e' sub' he' => ?_⟩
      cases he.symm.trans he'
      exact ⟨herr, hsub, hrest.reads⟩
    · obtain ⟨t, ⟨k, hk⟩, hrest, herr⟩ := hok x hx
      refine ⟨k, t, hk, hrest.host, hrest.idle, fun x' hx' => ?_, fun e sub he => (nomatch hx.symm.trans he)⟩
      cases hx.symm.trans hx'
      exact ⟨herr, hrest.reads⟩

theorem scriptDecode_eq (pixels : List Byte) (q : Option (List Byte)) : scriptDecode pixels q =
    scriptLoad .pixi 0 pixels ++ (scriptWr 2 (BitVec.ofNat 32 pixels.length) ++ scriptDecodeResident q) := by
  rw [scriptDecode, scriptPixels, List.append_assoc]

/-- The copy between the two commands (R355): the host reads the encoder's bytes and loads them into `PIXI`, with
the moves of `decode` on them before it. -/
theorem AtRest.copyBack {s : State} {r : List Byte} {q : Option (List Byte)} {reads : List Word} {p : Params}
    (h : AtRest (scriptCopyBack r.length ++ scriptWr 2 (BitVec.ofNat 32 r.length) ++ scriptDecodeResident q) reads p s)
    (hfit : r.length ≤ p.pixMax) (hbytes : ∀ i < r.length, s.byteAt .pixo i = r.getD i 0) :
    ∃ t, Reaches s t ∧ AtRest (scriptDecode r q) (readBack r ++ reads) p t := by
  rw [scriptCopyBack, List.append_assoc, List.append_assoc] at h
  obtain ⟨hdump, hread⟩ := h.dump (show _ ≤ s.params.pixMax by rw [h.params]; exact hfit)
    fun i hi => (hostByte_pixo s i).trans (hbytes i hi)
  have hload := Reaches.of_step (step_of_loadRead hread.inv.uopsDone hread.host hread.reads)
  exact ⟨_, hdump.trans hload, hread.idle, hload.inv hread.inv, (scriptDecode_eq r q).symm, hread.reads,
    hread.params⟩

/-- Settles O60: `encode`, the copy and `decode` one after the other. -/
theorem roundTripScriptIsTheComposition : Obligations.RoundTripScriptIsTheComposition := by
  intro s pixels m q q' hinv hst hpix hmsg hpwd hh
  obtain ⟨herror, hok⟩ := (atRest_start hinv hst hh).encodeScript hpix hmsg fun xs hq => hpwd xs (.inl hq)
  rcases except_cases (sourceEncode pixels m q) with ⟨e, sub, he⟩ | ⟨r, hr⟩
  · obtain ⟨t, ⟨k, hk⟩, hrest, herr, hsub⟩ := herror e sub he
    refine ⟨k, t, hk, hrest.host, hrest.idle, fun e' sub' he' => ?_, fun r hr => (nomatch he.symm.trans hr)⟩
    cases he.symm.trans he'
    exact ⟨herr, hsub, hrest.reads⟩
  · obtain ⟨t, hencode, hrest, hnone, hbytes⟩ := hok r hr
    have hlen := sourceEncode_length hr
    rw [← hlen] at hrest
    have hfit : r.length ≤ s.params.pixMax := hlen.trans_le hpix
    obtain ⟨v, hcopy, hcopied⟩ := hrest.copyBack hfit hbytes
    obtain ⟨hfails, hends⟩ := hcopied.decodeScript hfit fun xs hq => hpwd xs (.inr hq)
    have hword := (statusErr_eq_zero_iff t).2 hnone
    rcases except_cases (sourceDecode r q') with ⟨e, sub, he⟩ | ⟨x, hx⟩
    · obtain ⟨u, hdecode, hend, herr, hsub⟩ := hfails e sub he
      obtain ⟨k, hk⟩ := hencode.trans (hcopy.trans hdecode)
      refine ⟨k, u, hk, hend.host, hend.idle, fun e' sub' he' => (nomatch hr.symm.trans he'), fun r' hr' => ?_⟩
      cases hr.symm.trans hr'
      refine ⟨_, hword, fun x hx => (nomatch he.symm.trans hx), fun e' sub' he' => ?_⟩
      cases he.symm.trans he'
      exact ⟨herr, hsub, hend.reads⟩
    · obtain ⟨u, hdecode, hend, herr⟩ := hends x hx
      obtain ⟨k, hk⟩ := hencode.trans (hcopy.trans hdecode)
      refine ⟨k, u, hk, hend.host, hend.idle, fun e' sub' he' => (nomatch hr.symm.trans he'), fun r' hr' => ?_⟩
      cases hr.symm.trans hr'
      refine ⟨_, hword, fun x' hx' => ?_, fun e sub he => (nomatch hx.symm.trans he)⟩
      cases hx.symm.trans hx'
      exact ⟨herr, hend.reads⟩

end Sys2Proof.Machine
end
